-- ==== Sys2Proof/Word.lean ====
section
/-! DEFINITION. The word types of the SSM raster core (spec/00_scope.md R10, spec/30_encoding.md R108). -/

namespace Sys2Proof

/-- A framebuffer byte, a font byte, or an 8-bit command field. -/
abbrev Byte := BitVec 8

/-- A 16-bit coordinate, size, radius or colour (R8: `COORD_W` and `COLOR_W` are 16). -/
abbrev Half := BitVec 16

/-- A command word or a host register (R100, R75). -/
abbrev Word := BitVec 32

/-- `ceil(a / b)` for `b > 0`, as R11 defines it. -/
def ceilDiv (a b : Nat) : Nat := (a + b - 1) / b

end Sys2Proof
end

