-- ==== Sys2Proof/Config.lean ====
section
/-! DEFINITION. What one implementation of the block fixes (spec/00_scope.md R8), and the free values:
constants with no body, one for each value the spec leaves unspecified (spec/93_implementation_defined.md §2). -/

namespace Sys2Proof

/-- The OPEN parameters of R8 that a rule depends on. A model takes them as an argument: they are a field of
`State` that no step writes, so a statement about every state holds for every value of them (log entry 1).
`FONT_MEM` and its length `FONT_MEM_SIZE` stand in `State.fontMem`. -/
structure Params where
  /-- `FB_CAPACITY`: bytes of framebuffer RAM. -/
  fbCapacity : Nat
  /-- `FONT_SLOTS`: number of font descriptor slots. -/
  fontSlots : Nat
  /-- `TRANSPARENT`: the background colour that means "do not paint unset glyph bits". -/
  transparent : Half
  /-- `CMD_FIFO_DEPTH`: words the command FIFO holds. -/
  fifoDepth : Nat
deriving DecidableEq, Repr

/-- The ranges R8 gives the parameters. `FB_CAPACITY < 2^32` because the `CAPACITY` register shows it in 32 bits
(R75, R11): DEDUCED, log entry 12. -/
def Params.wf (p : Params) : Bool :=
  decide (1 ≤ p.fbCapacity) && decide (p.fbCapacity < 2 ^ 32) && decide (2 ≤ p.fontSlots) &&
    decide (p.fontSlots ≤ 16) && decide (1 ≤ p.fifoDepth)

/-- The parameter values of the test vectors (spec/95_test_vectors.md, conventions). The spec leaves the FIFO
depth open there; 16 is the model's. DESIGN CHOICE, log entry 1. -/
def Params.vectors : Params :=
  { fbCapacity := 32768, fontSlots := 4, transparent := 0xFFFF, fifoDepth := 16 }

/-- `NUM_CAPACITY` (R8, R263): the largest length of the string DRAW_NUMBER formats. -/
def Config.numCapacity : Nat := 255

/-- FREE VALUE. The framebuffer byte at an index that nothing has written since the `epoch`-th time the buffer
became unspecified (R42, R76: any value, fixed until the byte is next written). Log entry 2. -/
opaque Config.fbUnspecified : (epoch index : Nat) → Byte

/-- FREE VALUE. What an `FB_DATA` read returns while `BUSY = 1` (R78). Log entry 9. -/
opaque Config.busyRead : (counter : Nat) → Word

/-- FREE VALUE. Which point of the command stream a configuration or font register read shows while `BUSY = 1`
(R350). Log entry 9. -/
opaque Config.streamPoint : (counter : Nat) → Nat

/-- FREE VALUE. What happens to one pixel of a glyph whose font memory changed while its command was queued or
running (R351): `none`, it is left; `some c`, it is drawn with `c`. Log entry 10. -/
opaque Config.unstableCell : (counter : Nat) → Option Half

/-- OPEN parameter `ROW_SEL(r)` of R8: the bytes the transport sends for `ROW(r)`. No rule depends on it. -/
opaque Config.rowSel : (row : Nat) → List Byte

/-- OPEN parameter `COL_SEL_A(b)` of R8. No rule depends on it. -/
opaque Config.colSelA : (byte : Nat) → List Byte

/-- OPEN parameter `COL_SEL_B(b)` of R8. No rule depends on it. -/
opaque Config.colSelB : (byte : Nat) → List Byte

end Sys2Proof
end

