-- ==== Sys2Proof/Syntax.lean ====
section
/-! DEFINITION. The commands of the SSM-RC command set v1 (spec/30_encoding.md R105, R106): one constructor for
each row of spec/opcode_table.json, its arguments named as the fields of R106. -/

namespace Sys2Proof

/-- `STYLE` of DRAW_POINT (R110): 0 filled-around, 1 filled-square. -/
inductive PointStyle where
  | around
  | square
deriving DecidableEq, Repr

/-- `STYLE` of DRAW_LINE (R110): 0 solid, 1 dotted. -/
inductive LineStyle where
  | solid
  | dotted
deriving DecidableEq, Repr

/-- `FILL` of DRAW_RECT and DRAW_CIRCLE (R110): 0 outline, 1 filled. -/
inductive Fill where
  | outline
  | filled
deriving DecidableEq, Repr

/-- A command with its operands. Every operand is an unsigned number taken from its bits as they stand (R108).
Fields whose unsupported codes a command must be able to spell (`rot`, `mcode`, `dcode`, `slot`, `gw`, `gh`)
keep their bits. -/
inductive Instr where
  | nop
  | surfInit (bg wm hm rot : Half)
  | setRotation (rot : Half)
  | setMirror (mcode : Byte)
  | setDepth (dcode : Byte)
  | setFont (slot : BitVec 4) (gw gh : Byte) (base : Word)
  | clear (color : Half)
  | setPixel (color x y : Half)
  | drawPoint (style : PointStyle) (color x y r : Half)
  | drawLine (style : LineStyle) (color x0 y0 x1 y1 : Half)
  | drawRect (fill : Fill) (color xs ys xe ye : Half)
  | drawCircle (fill : Fill) (color cx cy r : Half)
  | drawChar (slot : BitVec 4) (fg x y : Half) (ch : Byte) (bg16 : Half)
  | drawString (slot : BitVec 4) (fg x y bg16 : Half) (chars : List Byte)
  | drawNumber (slot : BitVec 4) (fg x y : Half) (digits : Byte) (bg16 : Half) (value : BitVec 64)
  | pushFrame
deriving DecidableEq, Repr

end Sys2Proof
end

