-- ==== Sys2Proof/WellFormed.lean ====
section
/-! DEFINITION. Which terms of `Instr` are commands. Every field has exactly its width, so the one thing left to
check is the DRAW_STRING payload: a string ends at its first zero byte (spec/30_encoding.md R112), so its
characters hold none. -/

namespace Sys2Proof

/-- No character of a string is the terminator (R112). -/
def charsWellFormed (cs : List Byte) : Bool := cs.all (fun c => c != 0)

/-- The command can be spelled in words. -/
def Instr.wellFormed : Instr → Bool
  | .nop => true
  | .surfInit _ _ _ _ => true
  | .setRotation _ => true
  | .setMirror _ => true
  | .setDepth _ => true
  | .setFont _ _ _ _ => true
  | .clear _ => true
  | .setPixel _ _ _ => true
  | .drawPoint _ _ _ _ _ => true
  | .drawLine _ _ _ _ _ _ => true
  | .drawRect _ _ _ _ _ _ => true
  | .drawCircle _ _ _ _ _ => true
  | .drawChar _ _ _ _ _ _ => true
  | .drawString _ _ _ _ _ chars => charsWellFormed chars
  | .drawNumber _ _ _ _ _ _ _ => true
  | .pushFrame => true

end Sys2Proof
end

