-- ==== Sys2Proof/Decode.lean ====
section
/-! DEFINITION. The decoder of command words (spec/30_encoding.md R100 to R114), total on any list of words, and
after it the encoder. -/

namespace Sys2Proof

/-- The rows of the opcode map (R105). -/
inductive Op where
  | nop
  | surfInit
  | setRotation
  | setMirror
  | setDepth
  | setFont
  | clear
  | setPixel
  | drawPoint
  | drawLine
  | drawRect
  | drawCircle
  | drawChar
  | drawString
  | drawNumber
  | pushFrame
deriving DecidableEq, Repr

/-- Every row, in the order of R105. -/
def Op.all : List Op :=
  [.nop, .surfInit, .setRotation, .setMirror, .setDepth, .setFont, .clear, .setPixel, .drawPoint, .drawLine,
    .drawRect, .drawCircle, .drawChar, .drawString, .drawNumber, .pushFrame]

/-- The opcode, header bits 7:0 (R105). -/
def Op.code : Op → Byte
  | .nop => 0x00
  | .surfInit => 0x01
  | .setRotation => 0x02
  | .setMirror => 0x03
  | .setDepth => 0x04
  | .setFont => 0x05
  | .clear => 0x10
  | .setPixel => 0x11
  | .drawPoint => 0x12
  | .drawLine => 0x13
  | .drawRect => 0x14
  | .drawCircle => 0x15
  | .drawChar => 0x18
  | .drawString => 0x19
  | .drawNumber => 0x1A
  | .pushFrame => 0x20

/-- The header bits that must be 0 (R107, column "reserved mask"). -/
def Op.reservedMask : Op → Word
  | .nop => 0xFFFFFF00
  | .surfInit => 0x0000FF00
  | .setRotation => 0x0000FF00
  | .setMirror => 0xFFFF0000
  | .setDepth => 0xFFFF0000
  | .setFont => 0x0000F000
  | .clear => 0x0000FF00
  | .setPixel => 0x0000FF00
  | .drawPoint => 0x0000FE00
  | .drawLine => 0x0000FE00
  | .drawRect => 0x0000FE00
  | .drawCircle => 0x0000FE00
  | .drawChar => 0x0000F000
  | .drawString => 0x0000F000
  | .drawNumber => 0x0000F000
  | .pushFrame => 0xFFFFFF00

/-- The row with a given opcode, if the map has one (R105). -/
def Op.ofCode (b : Byte) : Option Op := Op.all.find? (fun op => op.code == b)

/-- Why a header is illegal (R104). -/
inductive DecodeError where
  /-- The opcode has no row in R105. -/
  | unassignedOpcode (code : Byte)
  /-- A header bit that R106 marks reserved is set. -/
  | reservedBits (op : Op)
deriving DecidableEq, Repr

/-- What the decoder reads at the front of a list of words. -/
inductive DecodeResult where
  /-- A whole command, and the words after it. -/
  | command (i : Instr) (rest : List Word)
  /-- The first word is an illegal header (R104). -/
  | illegal (why : DecodeError)
  /-- The words end before the command does. -/
  | incomplete
deriving DecidableEq, Repr

/-- Header bits 7:0 (R101). -/
def opField (h : Word) : Byte := h.extractLsb' 0 8

/-- Header bits 15:8 (R101). -/
def modField (h : Word) : Byte := h.extractLsb' 8 8

/-- Header bits 31:16 (R101). -/
def a16Field (h : Word) : Half := h.extractLsb' 16 16

/-- `SLOT`, header bits 11:8 (R106). -/
def slotField (h : Word) : BitVec 4 := h.extractLsb' 8 4

/-- `GW`, header bits 23:16 (R106). -/
def gwField (h : Word) : Byte := h.extractLsb' 16 8

/-- `GH`, header bits 31:24 (R106). -/
def ghField (h : Word) : Byte := h.extractLsb' 24 8

/-- Bits 15:0 of an operand word: the first value of a pair, the value of an `L` word (R102). -/
def loField (w : Word) : Half := w.extractLsb' 0 16

/-- Bits 31:16 of an operand word: the second value of a pair, `BG16` of a `B` word (R102). -/
def hiField (w : Word) : Half := w.extractLsb' 16 16

/-- Bits 7:0 of a `B` word: `CH` or `DIGITS` (R102, R106). -/
def byteField (w : Word) : Byte := w.extractLsb' 0 8

/-- `STYLE` of DRAW_POINT, header bit 8 (R106, R110). -/
def pointStyleField (h : Word) : PointStyle := if h.getLsbD 8 then .square else .around

/-- `STYLE` of DRAW_LINE, header bit 8 (R106, R110). -/
def lineStyleField (h : Word) : LineStyle := if h.getLsbD 8 then .dotted else .solid

/-- `FILL`, header bit 8 (R106, R110). -/
def fillField (h : Word) : Fill := if h.getLsbD 8 then .filled else .outline

/-- The row a header selects, or why it is illegal (R104). -/
def headerOp (h : Word) : Except DecodeError Op :=
  match Op.ofCode (opField h) with
  | none => .error (.unassignedOpcode (opField h))
  | some op => if h &&& op.reservedMask = 0 then .ok op else .error (.reservedBits op)

/-- The four bytes of a payload word, the first in bits 7:0 (R112). -/
def payloadBytes (w : Word) : List Byte :=
  [w.extractLsb' 0 8, w.extractLsb' 8 8, w.extractLsb' 16 8, w.extractLsb' 24 8]

/-- The characters of a payload word before its first zero byte (R112). -/
def payloadChars (w : Word) : List Byte := (payloadBytes w).takeWhile (fun c => c != 0)

/-- The characters of a DRAW_STRING payload and the words after it: words are read up to and including the one
that holds the first zero byte, and the bytes after it are ignored. `none` while no zero byte has come (R112). -/
def payload : List Word → Option (List Byte × List Word)
  | [] => none
  | w :: ws =>
    if (payloadChars w).length < 4 then some (payloadChars w, ws)
    else match payload ws with
      | none => none
      | some (ds, rest) => some (payloadChars w ++ ds, rest)

/-- A command from its row, its header and the words after the header (R106). Operand bits marked `ign` are
dropped (R109). -/
def decodeOperands (op : Op) (h : Word) (ws : List Word) : DecodeResult :=
  match op with
  | .nop => .command .nop ws
  | .surfInit =>
    match ws with
    | p :: l :: rest => .command (.surfInit (a16Field h) (loField p) (hiField p) (loField l)) rest
    | _ => .incomplete
  | .setRotation => .command (.setRotation (a16Field h)) ws
  | .setMirror => .command (.setMirror (modField h)) ws
  | .setDepth => .command (.setDepth (modField h)) ws
  | .setFont =>
    match ws with
    | b :: rest => .command (.setFont (slotField h) (gwField h) (ghField h) b) rest
    | _ => .incomplete
  | .clear => .command (.clear (a16Field h)) ws
  | .setPixel =>
    match ws with
    | p :: rest => .command (.setPixel (a16Field h) (loField p) (hiField p)) rest
    | _ => .incomplete
  | .drawPoint =>
    match ws with
    | p :: l :: rest =>
      .command (.drawPoint (pointStyleField h) (a16Field h) (loField p) (hiField p) (loField l)) rest
    | _ => .incomplete
  | .drawLine =>
    match ws with
    | p :: q :: rest =>
      .command (.drawLine (lineStyleField h) (a16Field h) (loField p) (hiField p) (loField q) (hiField q)) rest
    | _ => .incomplete
  | .drawRect =>
    match ws with
    | p :: q :: rest =>
      .command (.drawRect (fillField h) (a16Field h) (loField p) (hiField p) (loField q) (hiField q)) rest
    | _ => .incomplete
  | .drawCircle =>
    match ws with
    | p :: l :: rest =>
      .command (.drawCircle (fillField h) (a16Field h) (loField p) (hiField p) (loField l)) rest
    | _ => .incomplete
  | .drawChar =>
    match ws with
    | p :: b :: rest =>
      .command (.drawChar (slotField h) (a16Field h) (loField p) (hiField p) (byteField b) (hiField b)) rest
    | _ => .incomplete
  | .drawString =>
    match ws with
    | p :: b :: rest =>
      match payload rest with
      | some (cs, rest') =>
        .command (.drawString (slotField h) (a16Field h) (loField p) (hiField p) (hiField b) cs) rest'
      | none => .incomplete
    | _ => .incomplete
  | .drawNumber =>
    match ws with
    | p :: b :: lo :: hi :: rest =>
      .command
        (.drawNumber (slotField h) (a16Field h) (loField p) (hiField p) (byteField b) (hiField b) (hi ++ lo)) rest
    | _ => .incomplete
  | .pushFrame => .command .pushFrame ws

/-- The decoder: the first word is a header, and the command's length follows from it, but for DRAW_STRING
(R100, R103). An illegal header consumes no operand word (R104). -/
def decode : List Word → DecodeResult
  | [] => .incomplete
  | h :: ws =>
    match headerOp h with
    | .error e => .illegal e
    | .ok op => decodeOperands op h ws

/-- The row a command belongs to. -/
def Instr.op : Instr → Op
  | .nop => .nop
  | .surfInit _ _ _ _ => .surfInit
  | .setRotation _ => .setRotation
  | .setMirror _ => .setMirror
  | .setDepth _ => .setDepth
  | .setFont _ _ _ _ => .setFont
  | .clear _ => .clear
  | .setPixel _ _ _ => .setPixel
  | .drawPoint _ _ _ _ _ => .drawPoint
  | .drawLine _ _ _ _ _ _ => .drawLine
  | .drawRect _ _ _ _ _ _ => .drawRect
  | .drawCircle _ _ _ _ _ => .drawCircle
  | .drawChar _ _ _ _ _ _ => .drawChar
  | .drawString _ _ _ _ _ _ => .drawString
  | .drawNumber _ _ _ _ _ _ _ => .drawNumber
  | .pushFrame => .pushFrame

/-- A header word: `A16`, `MOD`, `OP` (R101). -/
def headerWord (op : Op) (mod : Byte) (a16 : Half) : Word := a16 ++ mod ++ op.code

/-- A `P` word: the first value in bits 15:0, the second in bits 31:16 (R102). -/
def pairWord (first second : Half) : Word := second ++ first

/-- An `L` word; the ignored half is written as 0 (R102, R116). -/
def lowWord (v : Half) : Word := (0 : Half) ++ v

/-- A `B` word; the ignored byte is written as 0 (R102, R116). -/
def backgroundWord (bg16 : Half) (v : Byte) : Word := bg16 ++ (0 : Byte) ++ v

/-- `MOD` with `SLOT` in header bits 11:8 (R106). -/
def slotMod (slot : BitVec 4) : Byte := (0 : BitVec 4) ++ slot

/-- `MOD` with a one-bit field in header bit 8 (R106). -/
def bitMod (b : Bool) : Byte := if b then 1 else 0

/-- A payload word from four characters (R112). -/
def payloadWord (a b c d : Byte) : Word := d ++ c ++ b ++ a

/-- The payload words of a string: its characters, the terminator, and zero padding (R112, R116). -/
def payloadWords : List Byte → List Word
  | a :: b :: c :: d :: cs => payloadWord a b c d :: payloadWords cs
  | [a, b, c] => [payloadWord a b c 0]
  | [a, b] => [payloadWord a b 0 0]
  | [a] => [payloadWord a 0 0 0]
  | [] => [payloadWord 0 0 0 0]

/-- The encoder: the words of a well-formed command (R101, R102, R106, R112, R113, R116). -/
def encode (i : Instr) : List Word :=
  match i with
  | .nop => [headerWord .nop 0 0]
  | .surfInit bg wm hm rot => [headerWord .surfInit 0 bg, pairWord wm hm, lowWord rot]
  | .setRotation rot => [headerWord .setRotation 0 rot]
  | .setMirror mcode => [headerWord .setMirror mcode 0]
  | .setDepth dcode => [headerWord .setDepth dcode 0]
  | .setFont slot gw gh base => [headerWord .setFont (slotMod slot) (gh ++ gw), base]
  | .clear color => [headerWord .clear 0 color]
  | .setPixel color x y => [headerWord .setPixel 0 color, pairWord x y]
  | .drawPoint style color x y r =>
    [headerWord .drawPoint (bitMod (style == .square)) color, pairWord x y, lowWord r]
  | .drawLine style color x0 y0 x1 y1 =>
    [headerWord .drawLine (bitMod (style == .dotted)) color, pairWord x0 y0, pairWord x1 y1]
  | .drawRect fill color xs ys xe ye =>
    [headerWord .drawRect (bitMod (fill == .filled)) color, pairWord xs ys, pairWord xe ye]
  | .drawCircle fill color cx cy r =>
    [headerWord .drawCircle (bitMod (fill == .filled)) color, pairWord cx cy, lowWord r]
  | .drawChar slot fg x y ch bg16 =>
    [headerWord .drawChar (slotMod slot) fg, pairWord x y, backgroundWord bg16 ch]
  | .drawString slot fg x y bg16 chars =>
    headerWord .drawString (slotMod slot) fg :: pairWord x y :: backgroundWord bg16 0 :: payloadWords chars
  | .drawNumber slot fg x y digits bg16 value =>
    [headerWord .drawNumber (slotMod slot) fg, pairWord x y, backgroundWord bg16 digits,
      value.extractLsb' 0 32, value.extractLsb' 32 32]
  | .pushFrame => [headerWord .pushFrame 0 0]

/-- The words of the number `w` of `nbits` bits, the first word in its low 32 bits: as many as `nbits` fills, one
more, and at least five (the longest fixed length of R105), every bit from `nbits` up being 0. -/
def tableWords (nbits w : Nat) : List Word :=
  (List.range (max 5 ((nbits + 31) / 32 + 1))).map (fun k => BitVec.ofNat 32 ((w % 2 ^ nbits) >>> (32 * k)))

/-- The words of `tableWords` that the decoder takes: the command's own, or the header alone of a word that is no
command. -/
def commandWords (nbits w : Nat) : List Word :=
  let ws := tableWords nbits w
  match decode ws with
  | .command _ rest => ws.take (ws.length - rest.length)
  | .illegal _ => ws.take 1
  | .incomplete => ws

/-- The command the decoder reads from the table's numbering of an instruction's bits (bit 0 is the least
significant bit of the first word, a later word's bits count on from it). -/
def decodeTableWord (nbits w : Nat) : Option Instr :=
  match decode (tableWords nbits w) with
  | .command i _ => some i
  | .illegal _ => none
  | .incomplete => none

end Sys2Proof
end

