-- ==== Sys2Proof/Machine/State.lean ====
section
/-! DEFINITION. Everything the spec gives the machine (spec/10_state.md R30 to R52), as plain data, and its value
after a hard reset. -/

namespace Sys2Proof.Machine

/-- The framebuffer bytes that have been written since the buffer last became unspecified, by index, indices
strictly rising. An index not listed holds an unspecified byte (R42, log entry 2). -/
abbrev Memory := List Host.Cell

/-- A font descriptor (R43): the font address of the space glyph, and the glyph's width and height. -/
structure Font where
  base : Word
  w : Byte
  h : Byte
deriving DecidableEq, Repr

/-- An unloaded slot: every field 0 (R43). -/
def Font.unloaded : Font := { base := 0, w := 0, h := 0 }

/-- The result codes 0 to 5 of R44 and R301; 6 and 7 are never produced. -/
inductive Result where
  | ok
  | oob
  | unsupported
  | resource
  | transport
  | illegal
deriving DecidableEq, Repr

/-- The engine modes of R48. -/
inductive Mode where
  | idle
  | exec
  | halted
deriving DecidableEq, Repr

/-- A token the block hands to the transport (R280). -/
inductive Token where
  | row (r : Nat)
  | colA (b : Nat)
  | colB (b : Nat)
  | data (v : Byte)
deriving DecidableEq, Repr

/-- The transport's answer to an offered token (R280). -/
inductive Answer where
  | accepted
  | error
deriving DecidableEq, Repr

/-- One `Emit` of PUSH_FRAME (R282). A data token takes its byte from the framebuffer when it is offered. -/
inductive Emission where
  | row (r : Nat)
  | colA (b : Nat)
  | colB (b : Nat)
  | data (index : Nat)
deriving DecidableEq, Repr

/-- One indivisible piece of a command's work (R79, R343): a list of these is the loop state R50 gives the engine,
unrolled (log entry 3). -/
inductive Micro where
  /-- `WritePixel(x, y, c)` (R180). -/
  | pixel (x y : Int) (c : Half)
  /-- One pixel of the glyph that takes `size` bytes of font memory from `glyph` on (R240, R245): bit `bit` of the
  font byte at `addr` picks `fg`, or `bg` unless transparent. -/
  | cell (x y : Int) (glyph size addr bit : Nat) (fg bg : Half)
  /-- `drop` of a whole character (R244, R246, R247). -/
  | dropChar
  /-- The bytes CLEAR writes in one indivisible step, from `index` on (R190): one byte, or at 16 bits the two bytes of
  a pixel (R343, log entry 22). -/
  | fill (index : Nat) (vs : List Byte)
  /-- One token of PUSH_FRAME (R282). -/
  | emit (e : Emission)
deriving DecidableEq, Repr

/-- A font memory byte that the platform changed while words were written and not yet done with (R351). `queued` is
the number of those words, the current command's included: they hold the commands that were queued or running. -/
structure FontChange where
  addr : Nat
  queued : Nat
deriving DecidableEq, Repr

/-- What can reach the block from outside between two of its steps (R70, R80, R340, R345; log entry 4). -/
inductive Input where
  /-- The host writes `v` at byte offset `off` of the register window, `size` bytes wide (R75). -/
  | hostWrite (size off : Nat) (v : Word)
  /-- The host reads `size` bytes at byte offset `off` (R75). -/
  | hostRead (size off : Nat)
  /-- The transport will give this answer to the next token that no earlier answer is for (R280). -/
  | answer (a : Answer)
  /-- The platform puts a byte into font memory (R345 step 1, R351). -/
  | fontByte (addr : Nat) (v : Byte)
  /-- The engine goes on by `n` of its own small steps, which may leave a command unfinished (R343). -/
  | ticks (n : Nat)
  /-- The platform's reset input (R340). -/
  | hardReset
deriving DecidableEq, Repr

/-- The machine. -/
structure State where
  /-- The implementation's parameters (R8). No step writes them. -/
  params : Params
  /-- `WM` (R32). -/
  wm : Half
  /-- `HM` (R33). -/
  hm : Half
  /-- `ROT`, in degrees (R34). -/
  rot : Half
  /-- `MIRROR` (R35). -/
  mirror : BitVec 2
  /-- `DEPTH`, in bits per pixel (R36). -/
  depth : BitVec 5
  /-- `BG` (R40). -/
  bg : Half
  /-- `CFG_VALID` (R41). -/
  cfgValid : Bool
  /-- `FB` (R42). -/
  fb : Memory
  /-- The model's own: how often the framebuffer has become unspecified (log entry 2). -/
  fbEpoch : Nat
  /-- `FONT_MEM`; its length is `FONT_MEM_SIZE` (R8, R241). -/
  fontMem : List Byte
  /-- `FONT_BASE[k]`, `FONT_W[k]`, `FONT_H[k]` for k = 0 .. `FONT_SLOTS − 1` (R43). -/
  fonts : List Font
  /-- `STATUS.RESULT` (R44). -/
  result : Result
  /-- `STATUS` bits 12:8: `S_ILLEGAL`, `S_XFER`, `S_RES`, `S_UNSUP`, `S_OOB` from high to low (R44). -/
  sticky : BitVec 5
  /-- `FB_INDEX` (R47). -/
  fbIndex : Word
  /-- The engine mode (R48). -/
  mode : Mode
  /-- The command FIFO, oldest word first (R49). -/
  fifo : List Word
  /-- The word of a host write to `CMD` that the host interface holds because the FIFO is full. While it holds one the
  host is stalled (R49, R355). -/
  held : Option Word
  /-- The current command's words received so far (R50). -/
  current : List Word
  /-- The work the current command has left, once all its words are in: its loop state (R50, log entry 3). -/
  work : Option (List Micro)
  /-- The current command's `dropped` flag (R50, R304). -/
  dropped : Bool
  /-- The token offered to the transport and not yet answered (R52 "transport token in flight", R280). -/
  offered : Option Token
  /-- The transport token stream: every token accepted so far, oldest first (R70, R88). -/
  tokens : List Token
  /-- The model's own: the answers the transport will give to tokens not yet offered, in order (log entry 5). -/
  answers : List Answer
  /-- The data the last host register read returned: the model's own, the spec's read port (log entry 16). -/
  readData : Word
  /-- The model's own: which free value is used next (log entry 16). -/
  freeCtr : Nat
  /-- The model's own: the font memory bytes changed while a command that is not yet done was queued or running (R351,
  log entry 10). -/
  fontChanges : List FontChange
  /-- The model's own: what reaches the block from outside before the engine goes on, in order (log entry 4). -/
  inputs : List Input
deriving DecidableEq, Repr

/-- Why the machine stops. The block has no trap of its own (R308), so no command raises one. -/
inductive Fault where
  /-- A host access at an offset outside the register window 0x000 .. 0x0FF (R70). Raised by a host access only.
  Safe: the model stops. -/
  | hostOffsetOutsideWindow
deriving DecidableEq, Repr

/-- Why a step has no meaning. -/
inductive Refusal where
  /-- A command that has no meaning yet, by its mnemonic. Raised by `exec` only. Safe. -/
  | notModelled (mnemonic : String)
  /-- A host access that is not 32 bits wide or not at a multiple of 4: "a model refuses it" (R75). Raised by a
  host access only. Safe. -/
  | hostAccessForm
deriving DecidableEq, Repr

/-- The state after a hard reset of a block with given parameters and font memory, nothing yet having happened
outside it (R52, R340). Every value is the spec's but those of the model's own fields (log entry 16). -/
def State.resetWith (p : Params) (fontMem : List Byte) : State :=
  { params := p
    wm := 0, hm := 0, rot := 0, mirror := 0, depth := 1, bg := 0, cfgValid := false
    fb := [], fbEpoch := 0
    fontMem := fontMem
    fonts := List.replicate p.fontSlots Font.unloaded
    result := .ok, sticky := 0, fbIndex := 0
    mode := .idle, fifo := [], held := none, current := [], work := none, dropped := false, offered := none
    tokens := [], answers := [], readData := 0, freeCtr := 0, fontChanges := [], inputs := [] }

/-- The 288-byte test font of spec/95_test_vectors.md section 9: `FONT_MEM` of the vectors. DESIGN CHOICE, log
entry 1. -/
def State.vectorFont : List Byte :=
  List.replicate 0x27 0 ++ [0x00, 0xE0, 0x00] ++ [0x00, 0x00, 0x40] ++ List.replicate 3 0 ++
    [0xE0, 0xA0, 0xE0] ++ [0x40, 0xC0, 0x40] ++ List.replicate 9 0 ++ [0xE0, 0xC0, 0x60] ++
    List.replicate 0x21 0 ++ [0x40, 0xA0, 0xE0] ++ List.replicate 0xBA 0

/-- The machine right after a hard reset (R52), with the parameters and the font memory of the vectors
(log entry 1). -/
def State.reset : State := State.resetWith Params.vectors State.vectorFont

end Sys2Proof.Machine
end

