-- ==== Sys2Proof/Machine/Operands.lean ====
section
/-! DEFINITION. The codes an operand may carry (spec/30_encoding.md R110), the derived geometry
(spec/10_state.md R37 to R39), the coordinate transform and the packing of pixels (spec/41_pixel.md). -/

namespace Sys2Proof.Machine

/-- The recognized rotations (R34, R110). -/
inductive Rotation where
  | deg0
  | deg90
  | deg180
  | deg270
deriving DecidableEq, Repr

/-- The rotation a `ROT` value names, if any (R110). -/
def rotOf (rot : Half) : Option Rotation :=
  if rot = 0 then some .deg0
  else if rot = 90 then some .deg90
  else if rot = 180 then some .deg180
  else if rot = 270 then some .deg270
  else none

/-- The mirror modes (R35). -/
inductive Mirror where
  | none
  | horizontal
  | vertical
  | both
deriving DecidableEq, Repr

/-- The mirror mode of a 2-bit code; every code names one (R35). -/
def mirrorOf (m : BitVec 2) : Mirror :=
  if m = 0 then .none
  else if m = 1 then .horizontal
  else if m = 2 then .vertical
  else .both

/-- The packed-pixel formats (R36, R149). -/
inductive Depth where
  | one
  | two
  | four
  | sixteen
deriving DecidableEq, Repr

/-- Bits per pixel (R36). -/
def Depth.bits : Depth → Nat
  | .one => 1
  | .two => 2
  | .four => 4
  | .sixteen => 16

/-- The depth a number of bits per pixel names, if any (R36, R110). -/
def depthOf (n : Nat) : Option Depth :=
  if n = 1 then some .one
  else if n = 2 then some .two
  else if n = 4 then some .four
  else if n = 16 then some .sixteen
  else none

/-- `WIDTH` (R37). An unrecognized `ROT`, which no run reaches, keeps `WM`: DESIGN CHOICE, log entry 11. -/
def State.width (s : State) : Nat :=
  match rotOf s.rot with
  | some .deg0 => s.wm.toNat
  | some .deg90 => s.hm.toNat
  | some .deg180 => s.wm.toNat
  | some .deg270 => s.hm.toNat
  | none => s.wm.toNat

/-- `HEIGHT` (R37). An unrecognized `ROT`, which no run reaches, keeps `HM`: DESIGN CHOICE, log entry 11. -/
def State.height (s : State) : Nat :=
  match rotOf s.rot with
  | some .deg0 => s.hm.toNat
  | some .deg90 => s.wm.toNat
  | some .deg180 => s.hm.toNat
  | some .deg270 => s.wm.toNat
  | none => s.hm.toNat

/-- Bytes of a physical row of `wm` pixels at `depth` bits each (R38). -/
def strideOf (wm depth : Nat) : Nat := ceilDiv (wm * depth) 8

/-- `STRIDE` (R38). -/
def State.stride (s : State) : Nat := strideOf s.wm.toNat s.depth.toNat

/-- `FB_LEN` (R39). -/
def State.fbLen (s : State) : Nat := s.stride * s.hm.toNat

/-- The rotation step of the transform (R171). -/
def rotateStep (r : Rotation) (wm hm x y : Int) : Int × Int :=
  match r with
  | .deg0 => (x, y)
  | .deg90 => (wm - y - 1, x)
  | .deg180 => (wm - x - 1, hm - y - 1)
  | .deg270 => (y, hm - x - 1)

/-- The mirror step of the transform, applied to the rotated result (R172). -/
def mirrorStep (m : Mirror) (wm hm : Int) (p : Int × Int) : Int × Int :=
  match m with
  | .none => p
  | .horizontal => (wm - p.1 - 1, p.2)
  | .vertical => (p.1, hm - p.2 - 1)
  | .both => (wm - p.1 - 1, hm - p.2 - 1)

/-- `Transform(x, y)`: a pure function of the coordinate and `ROT`, `MIRROR`, `WM`, `HM`; `none` when the rotation
is unrecognized (R170, R173, R174). -/
def transform (rot : Half) (mirror : BitVec 2) (wm hm : Half) (x y : Int) : Option (Int × Int) :=
  match rotOf rot with
  | none => none
  | some r => some (mirrorStep (mirrorOf mirror) wm.toNat hm.toNat (rotateStep r wm.toNat hm.toNat x y))

/-- `ByteIndex(X, Y)`: the first byte of a physical pixel and how many bytes it takes (R183). -/
def byteIndex (d : Depth) (stride X Y : Nat) : Nat × Nat :=
  match d with
  | .one => (X / 8 + Y * stride, 1)
  | .two => (X / 4 + Y * stride, 1)
  | .four => (X / 2 + Y * stride, 1)
  | .sixteen => (X * 2 + Y * stride, 2)

/-- `Pack` at 1 bit per pixel: bit `7 − X % 8`, set when bit 0 of the colour is 1 (R184). -/
def packOne (old : Byte) (X : Nat) (c : Half) : Byte :=
  let m : Byte := 0x80#8 >>> (X % 8)
  if c.getLsbD 0 then old ||| m else old &&& ~~~m

/-- `Pack` at 2 bits per pixel: bits `7 − 2k` and `6 − 2k`, k = `X % 4` (R185). -/
def packTwo (old : Byte) (X : Nat) (c : Half) : Byte :=
  let s := 6 - 2 * (X % 4)
  (old &&& ~~~(0x3#8 <<< s)) ||| ((c.extractLsb' 0 2).setWidth 8 <<< s)

/-- `Pack` at 4 bits per pixel: an even X writes the high nibble, an odd X the low one (R186). -/
def packFour (old : Byte) (X : Nat) (c : Half) : Byte :=
  let s := if X % 2 = 0 then 4 else 0
  (old &&& ~~~(0xF#8 <<< s)) ||| ((c.extractLsb' 0 4).setWidth 8 <<< s)

/-- The high byte of a 16-bit pixel, stored at the lower index (R71, R187). -/
def highByte (c : Half) : Byte := c.extractLsb' 8 8

/-- The low byte of a 16-bit pixel, stored at the higher index (R71, R187). -/
def lowByte (c : Half) : Byte := c.extractLsb' 0 8

/-- The field `Pack` writes at 1 bit per pixel, read back (R188). -/
def fieldOne (b : Byte) (X : Nat) : Half := ((b >>> (7 - X % 8)) &&& 0x1#8).setWidth 16

/-- The field `Pack` writes at 2 bits per pixel, read back (R188). -/
def fieldTwo (b : Byte) (X : Nat) : Half := ((b >>> (6 - 2 * (X % 4))) &&& 0x3#8).setWidth 16

/-- The field `Pack` writes at 4 bits per pixel, read back (R188). -/
def fieldFour (b : Byte) (X : Nat) : Half := ((b >>> (if X % 2 = 0 then 4 else 0)) &&& 0xF#8).setWidth 16

/-- The bytes CLEAR repeats through the buffer (R190): one byte, or at 16 bits a pixel's two, high byte first. -/
def clearBytes (d : Depth) (color : Half) : List Byte :=
  match d with
  | .one => [if color.getLsbD 0 then 0xFF else 0x00]
  | .two => [(color.extractLsb' 0 2).setWidth 8 * 0x55#8]
  | .four => [(color.extractLsb' 0 4).setWidth 8 * 0x11#8]
  | .sixteen => [highByte color, lowByte color]

/-- `rev8(v)`: bit i of the result is bit `7 − i` of `v` (R281). -/
def rev8 (v : Byte) : Byte :=
  v.extractLsb' 0 1 ++ v.extractLsb' 1 1 ++ v.extractLsb' 2 1 ++ v.extractLsb' 3 1 ++
    v.extractLsb' 4 1 ++ v.extractLsb' 5 1 ++ v.extractLsb' 6 1 ++ v.extractLsb' 7 1

end Sys2Proof.Machine
end

