-- ==== Sys2Proof/Machine/Flags.lean ====
section
/-! DEFINITION. The status register (spec/10_state.md R44, R45): result codes, sticky bits, `BUSY`, `HALTED`,
`CFG_VALID`. -/

namespace Sys2Proof.Machine

/-- The code of a result in `STATUS` bits 2:0 (R44, R301). -/
def Result.code : Result → BitVec 3
  | .ok => 0
  | .oob => 1
  | .unsupported => 2
  | .resource => 3
  | .transport => 4
  | .illegal => 5

/-- The sticky bit of a result, in the five bits 12:8 of `STATUS`; OK has none (R44, R301). -/
def Result.stickyMask : Result → BitVec 5
  | .ok => 0
  | .oob => 1
  | .unsupported => 2
  | .resource => 4
  | .transport => 8
  | .illegal => 16

/-- `S_OOB`, bit 8 (R44). -/
def State.sOob (s : State) : Bool := s.sticky.getLsbD 0

/-- `S_UNSUP`, bit 9 (R44). -/
def State.sUnsup (s : State) : Bool := s.sticky.getLsbD 1

/-- `S_RES`, bit 10 (R44). -/
def State.sRes (s : State) : Bool := s.sticky.getLsbD 2

/-- `S_XFER`, bit 11 (R44). -/
def State.sXfer (s : State) : Bool := s.sticky.getLsbD 3

/-- `S_ILLEGAL`, bit 12 (R44). -/
def State.sIllegal (s : State) : Bool := s.sticky.getLsbD 4

/-- `STATUS.BUSY`: the engine executes a command or the FIFO holds a word (R44, R300). -/
def State.busy (s : State) : Bool := s.mode == .exec || !s.fifo.isEmpty

/-- `STATUS.HALTED` (R44, R48). -/
def State.halted (s : State) : Bool := s.mode == .halted

/-- `STATUS` as the host reads it, reserved bits 0 (R44). -/
def State.statusWord (s : State) : Word :=
  (0 : BitVec 13) ++ BitVec.ofBool s.cfgValid ++ BitVec.ofBool s.halted ++ BitVec.ofBool s.busy ++ (0 : BitVec 3) ++
    s.sticky ++ (0 : BitVec 5) ++ s.result.code

/-- The engine writes `RESULT` and in the same step sets the sticky bit of a result that is not OK (R45). -/
def State.setResult (s : State) (c : Result) : State :=
  { s with result := c, sticky := s.sticky ||| c.stickyMask }

/-- A host write to `STATUS`: a 1 in bits 12:8 clears that sticky bit, every other bit is ignored (R44, R45). -/
def State.clearSticky (s : State) (v : Word) : State :=
  { s with sticky := s.sticky &&& ~~~(v.extractLsb' 8 5) }

end Sys2Proof.Machine
end

