-- ==== Sys2Proof/Machine/Ops.lean ====
section
/-! DEFINITION. The shared operations: framebuffer bytes, the pixel-write primitive, the command stream, the end
of a command (result, rejection, halt), the two resets, and the running of a command's work. -/

namespace Sys2Proof.Machine

/-- The canonical form of the framebuffer's list: indices strictly rising (log entry 2). -/
abbrev Memory.wf (m : Memory) : Prop := (m.map Prod.fst).Pairwise (· < ·)

/-- The byte written at an index, if one has been. -/
def Memory.lookup : Memory → Nat → Option Byte
  | [], _ => none
  | (a, v) :: m, i => if a = i then some v else Memory.lookup m i

/-- Write one byte, keeping the list sorted. -/
def Memory.insert : Memory → Nat → Byte → Memory
  | [], i, v => [(i, v)]
  | (a, u) :: m, i, v =>
    if i < a then (i, v) :: (a, u) :: m
    else if i = a then (i, v) :: m
    else (a, u) :: Memory.insert m i v

/-- `MemRead_FB(i, 1)`: the byte last written, or the index's unspecified value (R12, R42, R76). -/
def State.readFb (s : State) (i : Nat) : Byte :=
  (Memory.lookup s.fb i).getD (Config.fbUnspecified s.fbEpoch i)

/-- `MemWrite_FB(i, 1, v)` (R12). -/
def State.writeFb (s : State) (i : Nat) (v : Byte) : State :=
  { s with fb := Memory.insert s.fb i v }

/-- Write bytes from an index on, as one indivisible write (R12, R79). -/
def State.writeBytes (s : State) (i : Nat) : List Byte → State
  | [] => s
  | v :: vs => (s.writeFb i v).writeBytes (i + 1) vs

/-- Every byte of `FB` becomes unspecified (R42, R142, R148). -/
def State.forgetFb (s : State) : State := { s with fb := [], fbEpoch := s.fbEpoch + 1 }

/-- `MemRead_FONT(a, 1)` (R12, R241). Only addresses below `FONT_MEM_SIZE` are read (R244); one at or above 2^32, in a
font memory that large, is read as it is: DESIGN CHOICE, log entry 23. -/
def State.readFont (s : State) (a : Nat) : Byte := s.fontMem.getD a 0

/-- `FONT_MEM_SIZE` (R8), which the model does not bound: DESIGN CHOICE, log entry 23. -/
def State.fontMemSize (s : State) : Nat := s.fontMem.length

/-- The descriptor of slot `k` (R43). -/
def State.font (s : State) (k : Nat) : Font := s.fonts.getD k Font.unloaded

/-- `Pack(i, X, c)` (R184 to R187): narrow pixels are read-modify-write of one byte, a 16-bit pixel overwrites two
(R79). -/
def State.pack (s : State) (d : Depth) (i X : Nat) (c : Half) : State :=
  match d with
  | .one => s.writeFb i (packOne (s.readFb i) X c)
  | .two => s.writeFb i (packTwo (s.readFb i) X c)
  | .four => s.writeFb i (packFour (s.readFb i) X c)
  | .sixteen => (s.writeFb i (highByte c)).writeFb (i + 1) (lowByte c)

/-- `GetPixel(X, Y)`: the field `Pack` writes for a physical pixel, zero-extended (R188). No command performs it. -/
def State.getPixel (s : State) (d : Depth) (X Y : Nat) : Half :=
  let i := (byteIndex d s.stride X Y).1
  match d with
  | .one => fieldOne (s.readFb i) X
  | .two => fieldTwo (s.readFb i) X
  | .four => fieldFour (s.readFb i) X
  | .sixteen => s.readFb i ++ s.readFb (i + 1)

/-- What `WritePixel` returns (R180). -/
inductive PixelOutcome where
  | written
  | dropped
  | skipped
deriving DecidableEq, Repr

/-- Where `WritePixel(x, y, c)` writes, or why it does not. -/
inductive PixelTarget where
  /-- Byte `i`, physical column `X`, at depth `d`. -/
  | place (d : Depth) (i X : Nat)
  | dropped
  | skipped
deriving DecidableEq, Repr

/-- The checks of `WritePixel` (R180), in its order: negative coordinates (R177), the lenient logical check (R181),
the transform (R174), the physical check (R178), the memory guard (R182). They read the geometry only. An
unrecognized `DEPTH`, which no run reaches, is skipped like an unrecognized rotation: DEDUCED, log entry 11. -/
def State.pixelTarget (s : State) (x y : Int) : PixelTarget :=
  if x < 0 ∨ y < 0 then .dropped
  else if x > s.width ∨ y > s.height then .dropped
  else
    match transform s.rot s.mirror s.wm s.hm x y with
    | none => .skipped
    | some (X, Y) =>
      if X < 0 ∨ Y < 0 ∨ X > s.wm.toNat ∨ Y > s.hm.toNat then .dropped
      else
        match depthOf s.depth.toNat with
        | none => .skipped
        | some d =>
          let b := byteIndex d s.stride X.toNat Y.toNat
          if b.1 + b.2 > s.fbLen then .dropped else .place d b.1 X.toNat

/-- `WritePixel(x, y, c)` (R180): `drop` sets the command's `dropped` flag (R304), a skip sets nothing (R305). -/
def State.writePixel (s : State) (x y : Int) (c : Half) : State :=
  match s.pixelTarget x y with
  | .place d i X => s.pack d i X c
  | .dropped => { s with dropped := true }
  | .skipped => s

/-- What that `WritePixel` returns (R180). -/
def State.pixelOutcome (s : State) (x y : Int) : PixelOutcome :=
  match s.pixelTarget x y with
  | .place _ _ _ => .written
  | .dropped => .dropped
  | .skipped => .skipped

/-- A byte of the glyph that takes `size` bytes from `glyph` on changed while the current command was queued or
running (R351). -/
def State.glyphChanged (s : State) (glyph size : Nat) : Bool :=
  s.fontChanges.any fun c => decide (glyph ≤ c.addr) && decide (c.addr < glyph + size)

/-- The changes that still concern a command once one of `n` words is done: those made when the words written reached
beyond it (R351). -/
def changesAfter (n : Nat) (cs : List FontChange) : List FontChange :=
  (cs.filter fun c => decide (n < c.queued)).map fun c => { c with queued := c.queued - n }

/-- One pixel of a glyph (R245): its bit picks the foreground, or the background unless it is `TRANSPARENT`
(R248). A pixel of a changed glyph is drawn with any value or left (R351, log entry 10). -/
def State.drawCell (s : State) (x y : Int) (glyph size addr bit : Nat) (fg bg : Half) : State :=
  if s.glyphChanged glyph size then
    let s' := { s with freeCtr := s.freeCtr + 1 }
    match Config.unstableCell s.freeCtr with
    | some c => s'.writePixel x y c
    | none => s'
  else if (s.readFont addr).getLsbD bit then s.writePixel x y fg
  else if bg ≠ s.params.transparent then s.writePixel x y bg
  else s

/-- The command stream still to come: the FIFO's words, then the word the host interface holds (R49). -/
def State.stream (s : State) : List Word := s.fifo ++ s.held.toList

/-- The end of a command (R300, R45, R50): `RESULT` and its sticky bit are written, the engine is idle, and what it
held for the command is discarded. A font memory change goes on to concern the commands that were queued behind this
one when it was made (R351). -/
def State.complete (s : State) (c : Result) : State :=
  { s.setResult c with
    mode := .idle, current := [], work := none, dropped := false, offered := none
    fontChanges := changesAfter s.current.length s.fontChanges }

/-- The end of a command that was not rejected: OOB if anything was dropped, OK otherwise (R300). -/
def State.completeDrawn (s : State) : State := s.complete (if s.dropped then .oob else .ok)

/-- An illegal header (R302): ILLEGAL is recorded and the engine halts; every word already written is discarded
with the ones to come (R48; DEDUCED, log entry 8). This is the block's one exceptional mode change (R308). -/
def State.halt (s : State) : State :=
  { s.setResult .illegal with
    mode := .halted, fifo := [], held := none, current := [], work := none, dropped := false, offered := none
    fontChanges := [] }

/-- The soft reset (R342): the running command is aborted (R343), the FIFO emptied, `RESULT` and the sticky bits
cleared, the engine idle. It is the way out of HALTED. The host that writes it is not stalled, so the host interface
holds no word then (R355, log entry 7). DESIGN CHOICE, log entry 21: an answer of the transport that the engine has
not taken when the offered token is withdrawn stays in `answers` and is given to the next token offered. -/
def State.softReset (s : State) : State :=
  { s with
    result := .ok, sticky := 0, mode := .idle
    fifo := [], current := [], work := none, dropped := false, offered := none
    fontChanges := [] }

/-- The hard reset (R340): every value of R52, the framebuffer unspecified. Font memory, the parameters, what the
transport has taken and what is still to come from outside are not the block's and stay (log entry 17). -/
def State.hardReset (s : State) : State :=
  { State.resetWith s.params s.fontMem with
    fbEpoch := s.fbEpoch + 1
    tokens := s.tokens, answers := s.answers, readData := s.readData, freeCtr := s.freeCtr, inputs := s.inputs }

/-- The token an `Emit` offers; a data byte is reversed at every depth (R281, R282, R283). -/
def State.tokenOf (s : State) (e : Emission) : Token :=
  match e with
  | .row r => .row r
  | .colA b => .colA b
  | .colB b => .colB b
  | .data i => .data (rev8 (s.readFb i))

/-- The bytes the transport puts on the wire for a token: parameters of the platform, on which no rule depends
(R8, R280). -/
def Token.wireBytes : Token → List Byte
  | .row r => Config.rowSel r
  | .colA b => Config.colSelA b
  | .colB b => Config.colSelB b
  | .data v => [v]

/-- How one piece of work ends. -/
inductive MicroOutcome where
  /-- It is done and the command goes on. -/
  | done (s : State)
  /-- `raise Reject(c)` (R306). -/
  | reject (c : Result) (s : State)
  /-- The transport has not answered; the engine waits (R280, R317). -/
  | waiting (s : State)
deriving DecidableEq, Repr

/-- A token the transport has accepted joins its stream (R88). -/
def State.deliver (s : State) (e : Emission) (rest : List Answer) : State :=
  { s with answers := rest, offered := none, tokens := s.tokens ++ [s.tokenOf e] }

/-- `Emit(t)` (R280, R284): offer the token and take the transport's answer. -/
def State.emitToken (s : State) (e : Emission) : MicroOutcome :=
  match s.answers with
  | [] => .waiting { s with offered := some (s.tokenOf e) }
  | .accepted :: rest => .done (s.deliver e rest)
  | .error :: rest => .reject .transport { s with answers := rest, offered := none }

/-- Perform one piece of work. -/
def State.perform (s : State) (m : Micro) : MicroOutcome :=
  match m with
  | .pixel x y c => .done (s.writePixel x y c)
  | .cell x y glyph size addr bit fg bg => .done (s.drawCell x y glyph size addr bit fg bg)
  | .dropChar => .done { s with dropped := true }
  | .fill i vs => .done (s.writeBytes i vs)
  | .emit e => s.emitToken e

/-- Run a command's work in order to its end, or until the transport keeps the engine waiting: then the work left
stays in the state and the engine in `EXEC` (R200, R285, R300). -/
def State.runWork (s : State) : List Micro → State
  | [] => s.completeDrawn
  | m :: ms =>
    match s.perform m with
    | .done s' => s'.runWork ms
    | .reject c s' => s'.complete c
    | .waiting s' => { s' with mode := .exec, work := some (m :: ms) }

/-- What a command's rule comes to, once its operands are known. -/
inductive Plan where
  /-- `raise Reject(c)` before any effect (R306). -/
  | reject (c : Result)
  /-- A configuration command: its registers are written in one final step, giving this state (R343). -/
  | configure (s : State)
  /-- A drawing command or PUSH_FRAME: the work to do, in order (R200). -/
  | draw (ms : List Micro)
deriving DecidableEq, Repr

/-- The start of a command's rule: the `dropped` flag is cleared (R50, R300). -/
def State.begin (s : State) : State := { s with mode := .exec, work := none, dropped := false, offered := none }

/-- Run a command's rule to its end (R300). -/
def State.runPlan (s : State) (p : Plan) : State :=
  match p with
  | .reject c => s.begin.complete c
  | .configure s' => s'.begin.complete .ok
  | .draw ms => s.begin.runWork ms

/-- Every command but NOP, SURF_INIT and SET_FONT needs a Surface (R303). -/
def State.needsSurface (s : State) (p : Plan) : Plan :=
  if s.cfgValid then p else .reject .unsupported

end Sys2Proof.Machine
end

