-- ==== Sys2Proof/Machine/Pixel.lean ====
section
/-! DEFINITION. The two commands that write pixels directly (spec/41_pixel.md): CLEAR and SET_PIXEL. -/

namespace Sys2Proof.Machine

/-- What CLEAR writes, in order (R190): the bytes of `clearBytes` again and again from index 0 on, so that a soft reset
leaves no half-written 16-bit pixel (R343, log entry 22). `FB_LEN` is even at 16 bits (R77). An unrecognized `DEPTH`,
which no run reaches, has no row in R190 and writes none: DEDUCED, log entry 11. -/
def clearWork (color : Half) (s : State) : List Micro :=
  match depthOf s.depth.toNat with
  | none => []
  | some d =>
    let vs := clearBytes d color
    (List.range (s.fbLen / vs.length)).map fun k => .fill (vs.length * k) vs

/-- CLEAR (R190). -/
def planClear (color : Half) (s : State) : Plan := s.needsSurface (.draw (clearWork color s))

/-- CLEAR (R190). -/
def execClear (color : Half) (s : State) : Host.Outcome State Fault Refusal := .next (s.runPlan (planClear color s))

/-- SET_PIXEL (R192): one `WritePixel`. -/
def planSetPixel (color x y : Half) (s : State) : Plan :=
  s.needsSurface (.draw [.pixel x.toNat y.toNat color])

/-- SET_PIXEL (R192). -/
def execSetPixel (color x y : Half) (s : State) : Host.Outcome State Fault Refusal :=
  .next (s.runPlan (planSetPixel color x y s))

end Sys2Proof.Machine
end

