-- ==== Sys2Proof/Machine/Raster.lean ====
section
/-! DEFINITION. The rasterizer commands (spec/42_raster.md): DRAW_POINT, DRAW_LINE, DRAW_RECT, DRAW_CIRCLE. Each
is a list of coordinates, in the order of its pseudocode (R200), every one of which goes through `WritePixel`
(R201). Arithmetic is in ℤ (R11). -/

namespace Sys2Proof.Machine

/-- Write one colour at each of a list of coordinates, in order. -/
def pixelsOf (color : Half) (ps : List (Int × Int)) : List Micro := ps.map (fun p => .pixel p.1 p.2 color)

/-- The integers from `a` up to `b` inclusive, ascending; none when `a > b` (R12 `for i in a..b`). -/
def intsFromTo (a b : Int) : List Int := (List.range (b - a + 1).toNat).map (fun (k : Nat) => a + k)

/-- The cells of DRAW_POINT filled-around (R202, R203): column by column, a cell with a negative coordinate being
skipped. -/
def aroundCells (X Y : Int) (R : Nat) : List (Int × Int) :=
  ((List.range (2 * R - 1)).flatMap fun (i : Nat) =>
    (List.range (2 * R - 1)).map fun (j : Nat) => (X + i - ((R : Int) - 1), Y + j - ((R : Int) - 1))).filter
      fun p => decide (0 ≤ p.1) && decide (0 ≤ p.2)

/-- The cells of DRAW_POINT filled-square (R202, R204), anchored one unit up-left of the point. -/
def squareCells (X Y : Int) (R : Nat) : List (Int × Int) :=
  (List.range R).flatMap fun (i : Nat) => (List.range R).map fun (j : Nat) => (X + i - 1, Y + j - 1)

/-- The cells of DRAW_POINT (R202). -/
def pointCells (style : PointStyle) (X Y : Int) (R : Nat) : List (Int × Int) :=
  match style with
  | .around => aroundCells X Y R
  | .square => squareCells X Y R

/-- DRAW_POINT (R202). -/
def planDrawPoint (style : PointStyle) (color x y r : Half) (s : State) : Plan :=
  s.needsSurface (.draw (pixelsOf color (pointCells style x.toNat y.toNat r.toNat)))

/-- DRAW_POINT (R202). -/
def execDrawPoint (style : PointStyle) (color x y r : Half) (s : State) : Host.Outcome State Fault Refusal :=
  .next (s.runPlan (planDrawPoint style color x y r s))

/-- The loop of `LinePoints` (R210): visit the point, then step along X if `2·err ≥ dy` and along Y if
`2·err ≤ dx`, both tests on the same saved `e2`, each stopping the line at its end coordinate. The first argument
bounds the number of rounds. -/
def lineLoop (x1 y1 dx dy sx sy : Int) : Nat → Int → Int → Int → List (Int × Int)
  | 0, _, _, _ => []
  | n + 1, x, y, err =>
    let e2 := 2 * err
    if e2 ≥ dy ∧ x = x1 then [(x, y)]
    else if e2 ≤ dx ∧ y = y1 then [(x, y)]
    else
      let x' := if e2 ≥ dy then x + sx else x
      let y' := if e2 ≤ dx then y + sy else y
      let err' := (if e2 ≥ dy then err + dy else err) + (if e2 ≤ dx then dx else 0)
      (x, y) :: lineLoop x1 y1 dx dy sx sy n x' y' err'

/-- `LinePoints(x0, y0, x1, y1)` (R210). Each round moves along X or along Y, so `|x1 − x0| + |y1 − y0| + 1` rounds
are enough; that the line takes `max + 1` of them is R211. -/
def linePoints (x0 y0 x1 y1 : Int) : List (Int × Int) :=
  let dx : Int := (x1 - x0).natAbs
  let dy : Int := -(y1 - y0).natAbs
  let sx : Int := if x0 < x1 then 1 else -1
  let sy : Int := if y0 < y1 then 1 else -1
  lineLoop x1 y1 dx dy sx sy ((x1 - x0).natAbs + (y1 - y0).natAbs + 1) x0 y0 (dx + dy)

/-- The colour of the k-th visited point, counting from 0 here and from 1 in R214: dotted, every third point takes
`BG`; solid, every point takes the line's colour (R213). -/
def lineColor (style : LineStyle) (color bg : Half) (k : Nat) : Half :=
  match style with
  | .solid => color
  | .dotted => if (k + 1) % 3 = 0 then bg else color

/-- The pixels of DRAW_LINE in order (R212). -/
def lineWork (style : LineStyle) (color bg : Half) (ps : List (Int × Int)) : List Micro :=
  ps.zipIdx.map (fun pk => .pixel pk.1.1 pk.1.2 (lineColor style color bg pk.2))

/-- DRAW_LINE (R212). -/
def planDrawLine (style : LineStyle) (color x0 y0 x1 y1 : Half) (s : State) : Plan :=
  s.needsSurface (.draw (lineWork style color s.bg (linePoints x0.toNat y0.toNat x1.toNat y1.toNat)))

/-- DRAW_LINE (R212). -/
def execDrawLine (style : LineStyle) (color x0 y0 x1 y1 : Half) (s : State) : Host.Outcome State Fault Refusal :=
  .next (s.runPlan (planDrawLine style color x0 y0 x1 y1 s))

/-- The coordinates of DRAW_RECT in order: filled, the rows `YS .. YE − 1` (R221); outline, the four sides
(R222). -/
def rectCells (fill : Fill) (xs ys xe ye : Int) : List (Int × Int) :=
  match fill with
  | .filled => (intsFromTo ys (ye - 1)).flatMap fun y => linePoints xs y xe y
  | .outline => linePoints xs ys xe ys ++ linePoints xs ys xs ye ++ linePoints xe ye xe ys ++ linePoints xe ye xs ye

/-- DRAW_RECT (R220). -/
def planDrawRect (fill : Fill) (color xs ys xe ye : Half) (s : State) : Plan :=
  s.needsSurface (.draw (pixelsOf color (rectCells fill xs.toNat ys.toNat xe.toNat ye.toNat)))

/-- DRAW_RECT (R220). -/
def execDrawRect (fill : Fill) (color xs ys xe ye : Half) (s : State) : Host.Outcome State Fault Refusal :=
  .next (s.runPlan (planDrawRect fill color xs ys xe ye s))

/-- The steps of the midpoint circle from a given step on (R230, R231): the pixels of a step use the `x`, `y` it
starts with. The first argument bounds the number of steps. -/
def circleLoop : Nat → Int → Int → Int → List (Int × Int × Int)
  | 0, _, _, _ => []
  | n + 1, x, y, err =>
    if x ≤ y then
      (x, y, err) ::
        (if err < 0 then circleLoop n (x + 1) y (err + 4 * x + 6)
         else circleLoop n (x + 1) (y - 1) (err + 10 + 4 * (x - y)))
    else []

/-- The steps `(x, y, err)` of a circle of radius `R` (R230). `x` rises by one a step and never passes `y ≤ R`, so
there are at most `R + 1`. -/
def circleSteps (R : Nat) : List (Int × Int × Int) := circleLoop (R + 1) 0 R (3 - 2 * R)

/-- `Octants(x, y)` (R232). -/
def octants (cx cy x y : Int) : List (Int × Int) :=
  [(cx + x, cy + y), (cx - x, cy + y), (cx + x, cy - y), (cx - x, cy - y),
    (cx + y, cy + x), (cx - y, cy + x), (cx + y, cy - x), (cx - y, cy - x)]

/-- One horizontal span, left to right (R233). -/
def span (a b y : Int) : List (Int × Int) := (intsFromTo a b).map fun px => (px, y)

/-- `Spans(x, y)` (R233). -/
def spans (cx cy x y : Int) : List (Int × Int) :=
  span (cx - x) (cx + x) (cy + y) ++ span (cx - x) (cx + x) (cy - y) ++
    span (cx - y) (cx + y) (cy + x) ++ span (cx - y) (cx + y) (cy - x)

/-- The coordinates of DRAW_CIRCLE in order (R230). -/
def circleCells (fill : Fill) (cx cy : Int) (R : Nat) : List (Int × Int) :=
  (circleSteps R).flatMap fun st =>
    match fill with
    | .outline => octants cx cy st.1 st.2.1
    | .filled => spans cx cy st.1 st.2.1

/-- DRAW_CIRCLE (R230). -/
def planDrawCircle (fill : Fill) (color cx cy r : Half) (s : State) : Plan :=
  s.needsSurface (.draw (pixelsOf color (circleCells fill cx.toNat cy.toNat r.toNat)))

/-- DRAW_CIRCLE (R230). -/
def execDrawCircle (fill : Fill) (color cx cy r : Half) (s : State) : Host.Outcome State Fault Refusal :=
  .next (s.runPlan (planDrawCircle fill color cx cy r s))

end Sys2Proof.Machine
end

