-- ==== Sys2Proof/Machine/Surface.lean ====
section
/-! DEFINITION. Surface and font configuration commands (spec/40_config.md): NOP, SURF_INIT, SET_ROTATION,
SET_MIRROR, SET_DEPTH, SET_FONT. For each, what its rule comes to (`plan…`) and its meaning (`exec…`). -/

namespace Sys2Proof.Machine

/-- NOP (R140). -/
def planNop (s : State) : Plan := .configure s

/-- NOP (R140). -/
def execNop (s : State) : Host.Outcome State Fault Refusal := .next (s.runPlan (planNop s))

/-- SURF_INIT (R142): zero dimension, then rotation, then capacity (R307); mirror none and depth 1 (R143). -/
def planSurfInit (bg wm hm rot : Half) (s : State) : Plan :=
  if wm = 0 ∨ hm = 0 then .reject .unsupported
  else if rotOf rot = none then .reject .unsupported
  else if ceilDiv wm.toNat 8 * hm.toNat > s.params.fbCapacity then .reject .unsupported
  else .configure
    ({ s with wm := wm, hm := hm, rot := rot, bg := bg, mirror := 0, depth := 1, cfgValid := true }).forgetFb

/-- SURF_INIT (R142). -/
def execSurfInit (bg wm hm rot : Half) (s : State) : Host.Outcome State Fault Refusal :=
  .next (s.runPlan (planSurfInit bg wm hm rot s))

/-- SET_ROTATION (R144). Existing pixels stay where they are (R145). -/
def planSetRotation (rot : Half) (s : State) : Plan :=
  s.needsSurface <|
    if rotOf rot = none then .reject .unsupported else .configure { s with rot := rot }

/-- SET_ROTATION (R144). -/
def execSetRotation (rot : Half) (s : State) : Host.Outcome State Fault Refusal :=
  .next (s.runPlan (planSetRotation rot s))

/-- SET_MIRROR (R146). -/
def planSetMirror (mcode : Byte) (s : State) : Plan :=
  s.needsSurface <|
    if mcode.toNat > 3 then .reject .unsupported else .configure { s with mirror := mcode.setWidth 2 }

/-- SET_MIRROR (R146). -/
def execSetMirror (mcode : Byte) (s : State) : Host.Outcome State Fault Refusal :=
  .next (s.runPlan (planSetMirror mcode s))

/-- SET_DEPTH (R148): depth code, then capacity (R307); the buffer becomes unspecified. -/
def planSetDepth (dcode : Byte) (s : State) : Plan :=
  s.needsSurface <|
    if depthOf dcode.toNat = none then .reject .unsupported
    else if ceilDiv (s.wm.toNat * dcode.toNat) 8 * s.hm.toNat > s.params.fbCapacity then .reject .unsupported
    else .configure ({ s with depth := dcode.setWidth 5 }).forgetFb

/-- SET_DEPTH (R148). -/
def execSetDepth (dcode : Byte) (s : State) : Host.Outcome State Fault Refusal :=
  .next (s.runPlan (planSetDepth dcode s))

/-- SET_FONT (R150): slot, then glyph size (R307). It needs no Surface and does not check `BASE`. -/
def planSetFont (slot : BitVec 4) (gw gh : Byte) (base : Word) (s : State) : Plan :=
  if slot.toNat ≥ s.params.fontSlots then .reject .unsupported
  else if gw = 0 ∨ gh = 0 then .reject .unsupported
  else .configure { s with fonts := s.fonts.set slot.toNat { base := base, w := gw, h := gh } }

/-- SET_FONT (R150). -/
def execSetFont (slot : BitVec 4) (gw gh : Byte) (base : Word) (s : State) : Host.Outcome State Fault Refusal :=
  .next (s.runPlan (planSetFont slot gw gh base s))

end Sys2Proof.Machine
end

