-- ==== Sys2Proof/Machine/Number.lean ====
section
/-! DEFINITION. `FormatNumber` (spec/43_text.md R260): a binary64 value and a digit count turned into characters.
A finite non-negative binary64 is held exactly, as a significand and a power of two. -/

namespace Sys2Proof.Machine

/-- The number `sig · 2^exp`. -/
structure BinReal where
  sig : Nat
  exp : Int
deriving DecidableEq, Repr

/-- Bits 62:52 of a binary64 encoding, the biased exponent (R113). -/
def biasedExp (v : BitVec 64) : Nat := (v.extractLsb' 52 11).toNat

/-- Bits 51:0, the fraction (R113). -/
def fractionBits (v : BitVec 64) : Nat := (v.extractLsb' 0 52).toNat

/-- The value is an infinity or a NaN (R113). -/
def isNotFinite (v : BitVec 64) : Bool := biasedExp v == 0x7FF

/-- `|v|` of a finite value, exact (R113). -/
def magnitude (v : BitVec 64) : BinReal :=
  if biasedExp v = 0 then { sig := fractionBits v, exp := -1074 }
  else { sig := 2 ^ 52 + fractionBits v, exp := (biasedExp v : Int) - 1075 }

/-- `v < 0`, for a finite value: the sign is set and the value is not a zero (R260: false for −0.0). -/
def isNegative (v : BitVec 64) : Bool := v.getLsbD 63 && (magnitude v).sig != 0

/-- `trunc(a)` of a non-negative number, exact (R260). -/
def truncate (a : BinReal) : Nat := if 0 ≤ a.exp then a.sig * 2 ^ a.exp.toNat else a.sig / 2 ^ (-a.exp).toNat

/-- `a − trunc(a)`, exact (R260). -/
def fractionPart (a : BinReal) : BinReal :=
  if 0 ≤ a.exp then { sig := 0, exp := -1074 } else { sig := a.sig % 2 ^ (-a.exp).toNat, exp := a.exp }

/-- `n / 2^k` rounded to the nearest integer, ties to the even one. -/
def roundShift (n k : Nat) : Nat :=
  let q := n / 2 ^ k
  let r := n % 2 ^ k
  if 2 * r < 2 ^ k then q
  else if 2 * r > 2 ^ k then q + 1
  else if q % 2 = 0 then q else q + 1

/-- How many low bits of a significand the nearest binary64 drops: those beyond 53, and those below `2^−1074`. -/
def droppedBits (a : BinReal) : Nat := max (a.sig.log2 + 1 - 53) (-1074 - a.exp).toNat

/-- `RNE64(z)`: the binary64 nearest to `z`, ties to an even significand (R260, decision D44). No value of R260
reaches the largest finite binary64, so none becomes an infinity. -/
def roundNearestEven (a : BinReal) : BinReal :=
  { sig := roundShift a.sig (droppedBits a), exp := a.exp + droppedBits a }

/-- `F <- RNE64(F * 10)`, once (R260). -/
def timesTen (a : BinReal) : BinReal := roundNearestEven { sig := a.sig * 10, exp := a.exp }

/-- `repeat d times: F <- RNE64(F * 10)` (R260). -/
def timesTenRepeat : Nat → BinReal → BinReal
  | 0, a => a
  | d + 1, a => timesTenRepeat d (timesTen a)

/-- The ASCII digit of a number below 10: 0x30 to 0x39 (R260). -/
def asciiDigit (n : Nat) : Byte := BitVec.ofNat 8 (0x30 + n)

/-- The decimal digits of `n`, most significant first, at most `fuel` of them, put before `acc`. -/
def decimalLoop : Nat → Nat → List Byte → List Byte
  | 0, _, acc => acc
  | fuel + 1, n, acc => if n < 10 then asciiDigit n :: acc else decimalLoop fuel (n / 10) (asciiDigit (n % 10) :: acc)

/-- `Decimal(n)`: no leading zeros, `Decimal(0) = "0"` (R260). A number has no more decimal digits than bits. -/
def decimal (n : Nat) : List Byte := decimalLoop (n.log2 + 1) n []

/-- `PadLeft(s, d, "0")` (R260). -/
def padLeft (s : List Byte) (d : Nat) : List Byte := List.replicate (d - s.length) (asciiDigit 0) ++ s

/-- The characters of a finite value with `d` fractional digits (R260). -/
def numberChars (v : BitVec 64) (d : Nat) : List Byte :=
  let a := magnitude v
  let whole := (if isNegative v then [0x2D#8] else []) ++ decimal (truncate a)
  if d = 0 then whole
  else
    let t := truncate (timesTenRepeat d (fractionPart a))
    whole ++ [0x2E#8] ++ padLeft (decimal (t % 10 ^ d)) d

/-- `FormatNumber(v, d)`; `none` is `raise Reject(RESOURCE)` (R260, R263). -/
def formatNumber (v : BitVec 64) (d : Nat) : Option (List Byte) :=
  if isNotFinite v then none
  else
    let s := numberChars v d
    if s.length > Config.numCapacity then none else some s

end Sys2Proof.Machine
end

