-- ==== Sys2Proof/Machine/Text.lean ====
section
/-! DEFINITION. The text commands (spec/43_text.md): DRAW_CHAR, DRAW_STRING, DRAW_NUMBER. -/

namespace Sys2Proof.Machine

/-- `bpr`: bytes of a glyph row (R240). -/
def bytesPerRow (f : Font) : Nat := ceilDiv f.w.toNat 8

/-- `GlyphAddr(k, ch)` for a code from 0x20 up (R240). -/
def glyphAddr (f : Font) (ch : Byte) : Nat :=
  f.base.toNat + (ch.toNat - 0x20) * f.h.toNat * bytesPerRow f

/-- The pixels of one glyph row, left to right (R243, R245). -/
def glyphRow (f : Font) (x y : Int) (a : Nat) (fg bg : Half) (row : Nat) : List Micro :=
  (List.range f.w.toNat).map fun (col : Nat) =>
    .cell (x + col) (y + row) a (f.h.toNat * bytesPerRow f) (a + row * bytesPerRow f + col / 8) (7 - col % 8) fg bg

/-- `Glyph(x, y, ch, k, fg, bg)` (R245): a whole character is dropped when its code is below 0x20 (R246), its origin
is beyond the Surface (R247) or its glyph does not lie inside font memory (R244); otherwise its pixels, row by
row. -/
def glyphWork (s : State) (f : Font) (x y : Int) (ch : Byte) (fg bg : Half) : List Micro :=
  if ch.toNat < 0x20 then [.dropChar]
  else if x > s.width ∨ y > s.height then [.dropChar]
  else
    let a := glyphAddr f ch
    if a + f.h.toNat * bytesPerRow f > s.fontMemSize then [.dropChar]
    else (List.range f.h.toNat).flatMap (glyphRow f x y a fg bg)

/-- The slot check of every text command, after the Surface check (R242). -/
def State.needsFont (s : State) (slot : BitVec 4) (k : Font → Plan) : Plan :=
  s.needsSurface <|
    if slot.toNat ≥ s.params.fontSlots ∨ (s.font slot.toNat).w = 0 then .reject .unsupported
    else k (s.font slot.toNat)

/-- DRAW_CHAR (R250). -/
def planDrawChar (slot : BitVec 4) (fg x y : Half) (ch : Byte) (bg16 : Half) (s : State) : Plan :=
  s.needsFont slot fun f => .draw (glyphWork s f x.toNat y.toNat ch fg bg16)

/-- DRAW_CHAR (R250). -/
def execDrawChar (slot : BitVec 4) (fg x y : Half) (ch : Byte) (bg16 : Half) (s : State) :
    Host.Outcome State Fault Refusal :=
  .next (s.runPlan (planDrawChar slot fg x y ch bg16 s))

/-- Where the cursor puts the next character (R255): the wrap test (R256), then the restart test (R257). -/
def placeCursor (s : State) (f : Font) (X Y : Int) (p : Int × Int) : Int × Int :=
  let p := if p.1 + f.w.toNat > s.width then (X, p.2 + f.h.toNat) else p
  if p.2 + f.h.toNat > s.height then (X, Y) else p

/-- The positions of a string's characters, from a cursor on; the cursor advances by the glyph width after every
character, a dropped one too (R255). -/
def cursorPath (s : State) (f : Font) (X Y : Int) : Int × Int → List Byte → List (Int × Int × Byte)
  | _, [] => []
  | p, ch :: cs =>
    let q := placeCursor s f X Y p
    (q.1, q.2, ch) :: cursorPath s f X Y (q.1 + f.w.toNat, q.2) cs

/-- The work of drawing a string (R255). -/
def stringWork (s : State) (f : Font) (X Y : Int) (fg bg : Half) (chars : List Byte) : List Micro :=
  (cursorPath s f X Y (X, Y) chars).flatMap fun t => glyphWork s f t.1 t.2.1 t.2.2 fg bg

/-- DRAW_STRING (R255). -/
def planDrawString (slot : BitVec 4) (fg x y bg16 : Half) (chars : List Byte) (s : State) : Plan :=
  s.needsFont slot fun f => .draw (stringWork s f x.toNat y.toNat fg bg16 chars)

/-- DRAW_STRING (R255). -/
def execDrawString (slot : BitVec 4) (fg x y bg16 : Half) (chars : List Byte) (s : State) :
    Host.Outcome State Fault Refusal :=
  .next (s.runPlan (planDrawString slot fg x y bg16 chars s))

/-- DRAW_NUMBER (R262): the slot check, then NaN or infinity, then length (R307); the characters are drawn as the
payload of DRAW_STRING. -/
def planDrawNumber (slot : BitVec 4) (fg x y : Half) (digits : Byte) (bg16 : Half) (value : BitVec 64) (s : State) :
    Plan :=
  s.needsFont slot fun f =>
    match formatNumber value digits.toNat with
    | none => .reject .resource
    | some chars => .draw (stringWork s f x.toNat y.toNat fg bg16 chars)

/-- DRAW_NUMBER (R262). -/
def execDrawNumber (slot : BitVec 4) (fg x y : Half) (digits : Byte) (bg16 : Half) (value : BitVec 64) (s : State) :
    Host.Outcome State Fault Refusal :=
  .next (s.runPlan (planDrawNumber slot fg x y digits bg16 value s))

end Sys2Proof.Machine
end

