-- ==== Sys2Proof/Machine/Transfer.lean ====
section
/-! DEFINITION. The frame serializer (spec/44_transfer.md): PUSH_FRAME. -/

namespace Sys2Proof.Machine

/-- The tokens of one physical row: the row select, then for each byte the two column selects and the data (R282,
R283). -/
def rowEmissions (stride r : Nat) : List Emission :=
  .row r :: (List.range stride).flatMap fun b => [.colA b, .colB b, .data (r * stride + b)]

/-- The tokens of a frame in order (R282, R283). -/
def frameEmissions (s : State) : List Emission := (List.range s.hm.toNat).flatMap (rowEmissions s.stride)

/-- PUSH_FRAME (R282). -/
def planPushFrame (s : State) : Plan := s.needsSurface (.draw ((frameEmissions s).map .emit))

/-- PUSH_FRAME (R282). -/
def execPushFrame (s : State) : Host.Outcome State Fault Refusal := .next (s.runPlan (planPushFrame s))

end Sys2Proof.Machine
end

