-- ==== Sys2Proof/Machine/Dispatch.lean ====
section
/-! DEFINITION. The meaning of every command, one arm per constructor of `Instr`. -/

namespace Sys2Proof.Machine

def exec (i : Instr) (s : State) : Host.Outcome State Fault Refusal :=
  match i with
  | .nop => Sys2Proof.Machine.execNop s
  | .surfInit bg wm hm rot => Sys2Proof.Machine.execSurfInit bg wm hm rot s
  | .setRotation rot => Sys2Proof.Machine.execSetRotation rot s
  | .setMirror mcode => Sys2Proof.Machine.execSetMirror mcode s
  | .setDepth dcode => Sys2Proof.Machine.execSetDepth dcode s
  | .setFont slot gw gh base => Sys2Proof.Machine.execSetFont slot gw gh base s
  | .clear color => Sys2Proof.Machine.execClear color s
  | .setPixel color x y => Sys2Proof.Machine.execSetPixel color x y s
  | .drawPoint style color x y r => Sys2Proof.Machine.execDrawPoint style color x y r s
  | .drawLine style color x0 y0 x1 y1 => Sys2Proof.Machine.execDrawLine style color x0 y0 x1 y1 s
  | .drawRect fill color xs ys xe ye => Sys2Proof.Machine.execDrawRect fill color xs ys xe ye s
  | .drawCircle fill color cx cy r => Sys2Proof.Machine.execDrawCircle fill color cx cy r s
  | .drawChar slot fg x y ch bg16 => Sys2Proof.Machine.execDrawChar slot fg x y ch bg16 s
  | .drawString slot fg x y bg16 chars => Sys2Proof.Machine.execDrawString slot fg x y bg16 chars s
  | .drawNumber slot fg x y digits bg16 value => Sys2Proof.Machine.execDrawNumber slot fg x y digits bg16 value s
  | .pushFrame => Sys2Proof.Machine.execPushFrame s

end Sys2Proof.Machine
end

