-- ==== Sys2Proof/Machine/Engine.lean ====
section
/-! DEFINITION. The engine cycle (spec/60_exceptions.md R300), twice: `engineStep` runs the engine to the end of one
command (or until it must wait), `tick` takes one of its small steps, so that something from outside can reach the
block inside a command (spec/70_reset_and_hazards.md R343). -/

namespace Sys2Proof.Machine

/-- What a command's rule comes to in a state. -/
def planOf (i : Instr) (s : State) : Plan :=
  match i with
  | .nop => planNop s
  | .surfInit bg wm hm rot => planSurfInit bg wm hm rot s
  | .setRotation rot => planSetRotation rot s
  | .setMirror mcode => planSetMirror mcode s
  | .setDepth dcode => planSetDepth dcode s
  | .setFont slot gw gh base => planSetFont slot gw gh base s
  | .clear color => planClear color s
  | .setPixel color x y => planSetPixel color x y s
  | .drawPoint style color x y r => planDrawPoint style color x y r s
  | .drawLine style color x0 y0 x1 y1 => planDrawLine style color x0 y0 x1 y1 s
  | .drawRect fill color xs ys xe ye => planDrawRect fill color xs ys xe ye s
  | .drawCircle fill color cx cy r => planDrawCircle fill color cx cy r s
  | .drawChar slot fg x y ch bg16 => planDrawChar slot fg x y ch bg16 s
  | .drawString slot fg x y bg16 chars => planDrawString slot fg x y bg16 chars s
  | .drawNumber slot fg x y digits bg16 value => planDrawNumber slot fg x y digits bg16 value s
  | .pushFrame => planPushFrame s

/-- The state in which a command runs: its words are the current command's, `rest` is what the stream still holds,
the engine is in `EXEC` (R50, R300). A word was taken, so the FIFO has room for the word that the host interface held,
and the host goes on (R49, R355). -/
def State.takeCommand (s : State) (words rest : List Word) : State :=
  { s with mode := .exec, current := words, fifo := rest, held := none }

/-- Every word written so far belongs to a command that is not complete: the engine holds them and stays in `EXEC`
(R300, R355). With no word at all it stays as it is, in `IDLE` (R317). -/
def State.collect (s : State) : State :=
  match s.stream with
  | [] => s
  | ws => { s with mode := .exec, current := s.current ++ ws, fifo := [], held := none }

/-- The engine goes on to the end of a command, or until it has to wait for a word or for the transport. -/
def engineStep (s : State) : Host.Outcome State Fault Refusal :=
  match s.mode, s.work with
  | .halted, _ => .next { s with fifo := [], held := none }
  | _, some ms => .next (s.runWork ms)
  | _, none =>
    let ws := s.current ++ s.stream
    match decode ws with
    | .command i rest => exec i (s.takeCommand (ws.take (ws.length - rest.length)) rest)
    | .illegal _ => .next s.halt
    | .incomplete => .next s.collect

/-- The command's words are all in: its rule starts. A rejection or a configuration ends it at once (R343). -/
def State.startPlan (s : State) (p : Plan) : State :=
  match p with
  | .reject c => s.begin.complete c
  | .configure s' => s'.begin.complete .ok
  | .draw ms => { s.begin with work := some ms }

/-- One small step of the engine: it discards (HALTED), performs one piece of the command's work, ends the command,
or takes one word from the FIFO. -/
def tick (s : State) : State :=
  match s.mode, s.work with
  | .halted, _ => { s with fifo := [], held := none }
  | _, some [] => s.completeDrawn
  | _, some (m :: ms) =>
    match s.perform m with
    | .done s' => { s' with work := some ms }
    | .reject c s' => s'.complete c
    | .waiting s' => s'
  | _, none =>
    match s.stream with
    | [] => s
    | w :: rest =>
      let s' := s.takeCommand (s.current ++ [w]) rest
      match decode s'.current with
      | .command i _ => s'.startPlan (planOf i s')
      | .illegal _ => s'.halt
      | .incomplete => s'

/-- `n` small steps of the engine. -/
def ticks : Nat → State → State
  | 0, s => s
  | n + 1, s => ticks n (tick s)

end Sys2Proof.Machine
end

