-- ==== Sys2Proof/Machine/HostPort.lean ====
section
/-! DEFINITION. What reaches the block from outside: the host's register window (spec/20_memory.md R75 to R80), the
transport's answers, the platform's font memory and reset input. -/

namespace Sys2Proof.Machine

/-- The font slot of a `FONT_BASE_k` or `FONT_SIZE_k` offset (R75). -/
def fontSlotOfOffset (off : Nat) : Nat := (off - 0x40) / 8

/-- The offsets whose contents come from the Surface registers or the font table (R350). -/
def isConfigOffset (off : Nat) : Bool :=
  off == 0x14 || off == 0x18 || off == 0x1C || off == 0x20 || off == 0x24 || off == 0x28 ||
    (decide (0x40 ≤ off) && decide (off < 0xC0))

/-- `FB_DATA` (R76). -/
def State.fbData (s : State) : Word :=
  if s.fbIndex.toNat < s.fbLen then (s.readFb s.fbIndex.toNat).setWidth 32 else 0

/-- `MODE` (R75): `ROT` in bits 15:0, `MIRROR` in 17:16, `DEPTH` in 28:24, the others 0. -/
def State.modeWord (s : State) : Word := (0 : BitVec 3) ++ s.depth ++ (0 : BitVec 6) ++ s.mirror ++ s.rot

/-- What a register shows in a given state (R75); an offset the table does not list reads 0. -/
def State.register (s : State) (off : Nat) : Word :=
  if off = 0x04 then s.statusWord
  else if off = 0x0C then s.fbIndex
  else if off = 0x10 then s.fbData
  else if off = 0x14 then s.hm ++ s.wm
  else if off = 0x18 then s.modeWord
  else if off = 0x1C then BitVec.ofNat 16 s.height ++ BitVec.ofNat 16 s.width
  else if off = 0x20 then s.bg.setWidth 32
  else if off = 0x24 then BitVec.ofNat 32 s.fbLen
  else if off = 0x28 then BitVec.ofNat 32 s.stride
  else if off = 0x2C then BitVec.ofNat 32 s.params.fbCapacity
  else if off = 0x30 then (BitVec.ofNat 5 s.params.fontSlots).setWidth 32
  else if 0x40 ≤ off ∧ off < 0xC0 then
    let f := s.font (fontSlotOfOffset off)
    if off % 8 = 0 then f.base else (0 : Half) ++ f.h ++ f.w
  else 0

/-- The commands a list of words holds, up to the first that is illegal or not complete; `fuel` bounds their
number. -/
def commandsIn : Nat → List Word → List Instr
  | 0, _ => []
  | fuel + 1, ws =>
    match decode ws with
    | .command i rest => i :: commandsIn fuel rest
    | .illegal _ => []
    | .incomplete => []

/-- The state's configuration registers and font table after a command of the stream has completed: a
configuration command takes its effect, any other leaves them (R350). -/
def configAfter (s : State) (i : Instr) : State :=
  match planOf i s with
  | .reject _ => s
  | .configure s' => s'
  | .draw _ => s

/-- A point of the command stream written so far: the configuration after its first `k` commands (R350). -/
def State.atStreamPoint (s : State) (k : Nat) : State :=
  let ws := s.current ++ s.stream
  ((commandsIn ws.length ws).take k).foldl configAfter s

/-- What a host read of an offset returns. While `BUSY = 1`, `FB_DATA` reads any value (R78) and a configuration or
font register reads as of some point of the command stream (R350); the free values say which. -/
def State.hostReadValue (s : State) (off : Nat) : Word :=
  if s.busy then
    if off = 0x10 then Config.busyRead s.freeCtr
    else if isConfigOffset off then (s.atStreamPoint (Config.streamPoint s.freeCtr)).register off
    else s.register off
  else s.register off

/-- A host read (R75, R80). It changes nothing of the spec's state: only the read port and the choice of free
values. -/
def State.hostRead (s : State) (off : Nat) : State :=
  { s with readData := s.hostReadValue off, freeCtr := s.freeCtr + 1 }

/-- A host write to `CMD`: discarded while HALTED (R48), otherwise put into the FIFO, or held by the host interface
when the FIFO is full (R49). -/
def State.pushWord (s : State) (v : Word) : State :=
  if s.halted then s
  else if s.fifo.length < s.params.fifoDepth then { s with fifo := s.fifo ++ [v] }
  else { s with held := some v }

/-- A host write (R75, R80): `CMD`, `STATUS`, `CTRL`, `FB_INDEX`; a write to any other offset is ignored. -/
def State.hostWrite (s : State) (off : Nat) (v : Word) : State :=
  if off = 0x00 then s.pushWord v
  else if off = 0x04 then s.clearSticky v
  else if off = 0x08 then (if v.getLsbD 0 then s.softReset else s)
  else if off = 0x0C then { s with fbIndex := v }
  else s

/-- The form a host access must have (R70, R75): inside the window; 32 bits wide and at a multiple of 4. -/
def hostAccess (size off : Nat) (s : State) : Host.Outcome State Fault Refusal :=
  if off ≥ 0x100 then .fault .hostOffsetOutsideWindow
  else if size ≠ 4 ∨ off % 4 ≠ 0 then .refused .hostAccessForm
  else .next s

/-- What the running command has done so far: its work, but for what is left of it. -/
def State.workDone (s : State) : List Micro :=
  match s.work, decode s.current with
  | some left, .command i _ =>
    match planOf i s with
    | .draw all => all.take (all.length - left.length)
    | .reject _ => []
    | .configure _ => []
  | _, _ => []

/-- Draw pieces of text in order, from a cleared `dropped` flag. -/
def State.drawAgain (s : State) (ms : List Micro) : State :=
  ms.foldl (fun u m =>
    match m with
    | .cell x y glyph size addr bit fg bg => u.drawCell x y glyph size addr bit fg bg
    | .dropChar => { u with dropped := true }
    | .pixel _ _ _ => u
    | .fill _ _ => u
    | .emit _ => u) { s with dropped := false }

/-- A piece of text that reads font memory at `a`. -/
def Micro.readsFont (a : Nat) (m : Micro) : Bool :=
  match m with
  | .cell _ _ glyph size _ _ _ _ => decide (glyph ≤ a) && decide (a < glyph + size)
  | .dropChar => false
  | .pixel _ _ _ => false
  | .fill _ _ => false
  | .emit _ => false

/-- The platform puts a byte into font memory. A byte that changes is noted for the commands whose words are written
and not yet done with, and the pixels that they draw with its glyph become any value (R351). Where the running command
has already drawn that glyph, its pixels are drawn again from the first on: those of changed glyphs become any value,
and the others come out as they were (log entry 10). -/
def State.fontByte (s : State) (a : Nat) (v : Byte) : State :=
  let queued := (s.current ++ s.stream).length
  if a < s.fontMemSize ∧ s.readFont a ≠ v then
    let s' := { s with fontMem := s.fontMem.set a v }
    if queued = 0 then s'
    else
      let s'' := { s' with fontChanges := { addr := a, queued := queued } :: s.fontChanges }
      if s.workDone.any (Micro.readsFont a) then s''.drawAgain s.workDone else s''
  else s

/-- Something from outside reaches the block. -/
def inputStep (inp : Input) (s : State) : Host.Outcome State Fault Refusal :=
  match inp with
  | .hostWrite size off v => hostAccess size off (s.hostWrite off v)
  | .hostRead size off => hostAccess size off (s.hostRead off)
  | .answer a => .next { s with answers := s.answers ++ [a] }
  | .fontByte a v => .next (s.fontByte a v)
  | .ticks n => .next (ticks n s)
  | .hardReset => .next s.hardReset

/-- An access of the host, which waits while the host is stalled (R355). -/
def Input.isHostAccess (inp : Input) : Bool :=
  match inp with
  | .hostWrite _ _ _ => true
  | .hostRead _ _ => true
  | .answer _ => false
  | .fontByte _ _ => false
  | .ticks _ => false
  | .hardReset => false

/-- The next thing of a list that can reach the block, and the list without it: the first, or, while the host is
stalled, the first that is no access of the host (R355). -/
def nextOf (stalled : Bool) : List Input → Option (Input × List Input)
  | [] => none
  | inp :: rest =>
    if stalled && inp.isHostAccess then
      match nextOf stalled rest with
      | none => none
      | some (inp', rest') => some (inp', inp :: rest')
    else some (inp, rest)

/-- The next thing from outside that can reach the block. A host whose `CMD` word the host interface holds is stalled
until the engine takes a word (R355); the stall covers each of its accesses (log entry 7). -/
def State.nextInput (s : State) : Option (Input × List Input) := nextOf s.held.isSome s.inputs

/-- One step of the block: the next thing from outside that can reach it, if there is one, and otherwise the
engine. -/
def machineStep (s : State) : Host.Outcome State Fault Refusal :=
  match s.nextInput with
  | none => engineStep s
  | some (inp, rest) => inputStep inp { s with inputs := rest }

/-- The state with the words of one command as the whole of its command stream, no command running and nothing waiting
outside, so that the next step runs that command. Of a command longer than the FIFO the engine has taken the first
words already. -/
def State.loadCommand (s : State) (ws : List Word) : State :=
  let taken := ws.length - s.params.fifoDepth
  { s with
    mode := if taken = 0 then .idle else .exec
    current := ws.take taken, fifo := ws.drop taken, held := none
    work := none, dropped := false, offered := none, fontChanges := [], inputs := [] }

end Sys2Proof.Machine
end

