-- ==== Sys2Proof/Machine/Step.lean ====
section
/-! DEFINITION. The machine's step, and where the host places a command to be run next. -/

namespace Sys2Proof.Machine

/-- One step (spec/60_exceptions.md R300): something from outside, or the engine to the end of one command. -/
def step (s : State) : Host.Outcome State Fault Refusal := machineStep s

/-- `s` with one command, numbered as the opcode table numbers its bits, waiting in the command stream (log
entry 6). -/
def State.withFetchWord (s : State) (nbits w : Nat) : State := s.loadCommand (commandWords nbits w)

end Sys2Proof.Machine
end

