-- ==== Sys2Proof/Safety.lean ====
section
/-! DEFINITION. What a good state is, what a command may leave changed, and what a safe step is: the terms the
statements are made in. -/

namespace Sys2Proof.Machine

/-- The invariant of the block: what is true after a hard reset and after every step. -/
structure State.Inv (s : State) : Prop where
  /-- The parameters lie in the ranges of R8. -/
  params : s.params.wf = true
  /-- The framebuffer's list is in canonical form. -/
  memory : Memory.wf s.fb
  /-- No byte outside `FB[0 .. FB_LEN − 1]` has been written (R82, R182). -/
  bounded : ∀ c ∈ s.fb, c.1 < s.fbLen
  /-- `ROT` holds a recognized rotation (R34). -/
  rotation : (rotOf s.rot).isSome = true
  /-- `DEPTH` holds a legal depth (R36). -/
  depth : (depthOf s.depth.toNat).isSome = true
  /-- `FB_LEN` never exceeds `FB_CAPACITY` (R39). -/
  fits : s.fbLen ≤ s.params.fbCapacity
  /-- A configured Surface has no zero dimension (R32, R33). -/
  configured : s.cfgValid = true → s.wm ≠ 0 ∧ s.hm ≠ 0
  /-- An unconfigured block has the geometry of reset (R32, R41). -/
  unconfigured : s.cfgValid = false → s.wm = 0 ∧ s.hm = 0
  /-- The font table has `FONT_SLOTS` entries (R43). -/
  slots : s.fonts.length = s.params.fontSlots
  /-- An entry has both glyph dimensions or neither (R43). -/
  glyphs : ∀ f ∈ s.fonts, f.w = 0 ↔ f.h = 0
  /-- The FIFO holds at most `CMD_FIFO_DEPTH` words (R49). -/
  fifo : s.fifo.length ≤ s.params.fifoDepth
  /-- The host interface holds a word only while the FIFO is full (R49). -/
  held : s.held ≠ none → s.fifo.length = s.params.fifoDepth
  /-- An idle engine holds nothing of a command (R50). -/
  idle : s.mode = .idle → s.current = [] ∧ s.work = none ∧ s.dropped = false ∧ s.offered = none
  /-- A halted engine holds nothing of a command, and no word waits (R48, R302). -/
  halted : s.mode = .halted →
    s.fifo = [] ∧ s.held = none ∧ s.current = [] ∧ s.work = none ∧ s.dropped = false ∧ s.offered = none
  /-- An executing engine that has no work yet is still receiving its command's words (R300). -/
  receiving : s.mode = .exec → s.work = none →
    s.current ≠ [] ∧ decode s.current = .incomplete ∧ s.dropped = false ∧ s.offered = none
  /-- CLEAR's remaining bytes lie in the buffer (R190). -/
  work : ∀ ms, s.work = some ms → ∀ i vs, Micro.fill i vs ∈ ms → i + vs.length ≤ s.fbLen
  /-- The work left is the end of what the running command's rule comes to (R50, R300). -/
  running : ∀ left, s.work = some left → ∃ i rest all,
    decode s.current = .command i rest ∧ planOf i s = .draw all ∧ left <:+ all
  /-- A font memory change is noted only for commands that are queued or running (R351). -/
  changes : ∀ c ∈ s.fontChanges, 0 < c.queued ∧ c.queued ≤ (s.current ++ s.stream).length

/-- The Surface registers are the same (R32 to R36, R40, R41). -/
def State.SameSurface (s t : State) : Prop :=
  t.wm = s.wm ∧ t.hm = s.hm ∧ t.rot = s.rot ∧ t.mirror = s.mirror ∧ t.depth = s.depth ∧ t.bg = s.bg ∧
    t.cfgValid = s.cfgValid

/-- The font table and font memory are the same (R43, R241). -/
def State.SameFonts (s t : State) : Prop := t.fonts = s.fonts ∧ t.fontMem = s.fontMem

/-- Every framebuffer byte reads the same (R42). -/
def State.SameFb (s t : State) : Prop := ∀ i, t.readFb i = s.readFb i

/-- The parameters, `FB_INDEX`, the words still to be taken, and what the host and the outside have seen or have
still to do are the same. -/
def State.SameOutside (s t : State) : Prop :=
  t.params = s.params ∧ t.fbIndex = s.fbIndex ∧ t.fifo = s.fifo ∧ t.held = s.held ∧ t.inputs = s.inputs ∧
    t.readData = s.readData

/-- The token stream and the answers to come are the same (R280). -/
def State.SameTransport (s t : State) : Prop := t.tokens = s.tokens ∧ t.answers = s.answers

/-- Everything but the framebuffer's bytes, the status, the token port and the engine's own progress is the same:
what drawing never changes. -/
def State.SameButDrawing (s t : State) : Prop :=
  s.SameSurface t ∧ s.SameFonts t ∧ s.SameOutside t ∧ t.fbEpoch = s.fbEpoch

/-- The command ended with result `c`: `RESULT` is `c`, the sticky bit of `c` is set beside those that were (R45),
and the engine is idle and holds nothing of the command (R50, R300). -/
def State.Ended (s t : State) (c : Result) : Prop :=
  t.result = c ∧ t.sticky = s.sticky ||| c.stickyMask ∧ t.mode = .idle ∧ t.current = [] ∧ t.work = none ∧
    t.dropped = false ∧ t.offered = none

/-- The command ended with result `c` and changed nothing but `STATUS` (R141, R306). -/
def State.OnlyStatus (s t : State) (c : Result) : Prop :=
  s.SameSurface t ∧ s.SameFonts t ∧ s.SameFb t ∧ s.SameOutside t ∧ s.SameTransport t ∧ s.Ended t c

/-- The engine is idle, nothing can come from outside, and nothing of a command is held. -/
def State.Ready (s : State) : Prop := s.nextInput = none ∧ s.mode = .idle ∧ s.work = none ∧ s.current = []

/-- An access of the host (R75). -/
def Input.FromHost (inp : Input) : Prop :=
  (∃ size off v, inp = .hostWrite size off v) ∨ ∃ size off, inp = .hostRead size off

/-- A step is safe when it answers a next state: it neither faults nor is refused. -/
def SafeStep (s : State) : Prop := ∃ t, step s = .next t

/-- Write a list of coloured pixels in order with `WritePixel` (R200). -/
def State.paint (s : State) (ps : List (Int × Int × Half)) : State :=
  ps.foldl (fun u p => u.writePixel p.1 p.2.1 p.2.2) s

/-- The result of a command that writes a list of pixels: OOB if `WritePixel` drops one of them, OK otherwise
(R300, R304). -/
def State.paintResult (s : State) (ps : List (Int × Int × Half)) : Result :=
  if ∃ p ∈ ps, s.pixelOutcome p.1 p.2.1 = .dropped then .oob else .ok

/-- The byte of font memory that holds a glyph pixel's bit (R240, R243): row `row`, column `col` of code `ch`. -/
def glyphByteAddr (f : Font) (ch : Byte) (row col : Nat) : Nat :=
  f.base.toNat + (ch.toNat - 0x20) * (f.h.toNat * ((f.w.toNat + 7) / 8)) + row * ((f.w.toNat + 7) / 8) + col / 8

/-- A character is dropped whole: its code is below 0x20 (R246), its origin is beyond the Surface (R247), or its
glyph does not lie wholly inside font memory (R244). -/
abbrev State.CharDropped (s : State) (f : Font) (x y : Int) (ch : Byte) : Prop :=
  ch.toNat < 0x20 ∨ x > s.width ∨ y > s.height ∨
    f.base.toNat + (ch.toNat - 0x20) * (f.h.toNat * ((f.w.toNat + 7) / 8)) +
      f.h.toNat * ((f.w.toNat + 7) / 8) > s.fontMem.length

/-- The coloured pixels of a glyph in order (R245): a 1 bit takes the foreground, a 0 bit the background unless that
is `TRANSPARENT` (R248). -/
def State.charPixels (s : State) (f : Font) (x y : Int) (ch : Byte) (fg bg : Half) : List (Int × Int × Half) :=
  if s.CharDropped f x y ch then []
  else
    (List.range f.h.toNat).flatMap fun (row : Nat) => (List.range f.w.toNat).flatMap fun (col : Nat) =>
      if (s.fontMem.getD (glyphByteAddr f ch row col) 0).getLsbD (7 - col % 8) then [(x + col, y + row, fg)]
      else if bg ≠ s.params.transparent then [(x + col, y + row, bg)]
      else []

/-- The cells of a glyph with its top-left pixel at `(x, y)` (R245). -/
def glyphCells (f : Font) (x y : Int) : List (Int × Int) :=
  (List.range f.h.toNat).flatMap fun (row : Nat) => (List.range f.w.toNat).map fun (col : Nat) => (x + col, y + row)

/-- A byte of the character's glyph changed while the current command was queued or running (R351). -/
def State.CharChanged (s : State) (f : Font) (ch : Byte) : Prop :=
  ∃ c ∈ s.fontChanges, f.base.toNat + (ch.toNat - 0x20) * (f.h.toNat * ((f.w.toNat + 7) / 8)) ≤ c.addr ∧
    c.addr < f.base.toNat + (ch.toNat - 0x20) * (f.h.toNat * ((f.w.toNat + 7) / 8)) +
      f.h.toNat * ((f.w.toNat + 7) / 8)

/-- What drawing one character may write: the pixels of its glyph in order; or, when a byte of the glyph changed under
the command, any colour in any of the glyph's cells, at most once each, and nothing outside them (R351). A dropped
character writes nothing. -/
def State.CharDraws (s : State) (f : Font) (x y : Int) (ch : Byte) (fg bg : Half) (ps : List (Int × Int × Half)) :
    Prop :=
  (s.CharDropped f x y ch ∨ ¬ s.CharChanged f ch → ps = s.charPixels f x y ch fg bg) ∧
    (ps.map fun p => (p.1, p.2.1)).Sublist (glyphCells f x y)

/-- What one piece of a text command's work may write: the same, a pixel at a time. -/
def State.PieceDraws (s : State) (m : Micro) (ps : List (Int × Int × Half)) : Prop :=
  match m with
  | .cell x y glyph size addr bit fg bg =>
    (s.glyphChanged glyph size = false → ps =
      if (s.fontMem.getD addr 0).getLsbD bit then [(x, y, fg)]
      else if bg ≠ s.params.transparent then [(x, y, bg)] else []) ∧
      (ps = [] ∨ ∃ c, ps = [(x, y, c)])
  | .dropChar => ps = []
  | .pixel _ _ _ => False
  | .fill _ _ => False
  | .emit _ => False

/-- What each of a list of pieces writes, in order. -/
def State.PiecesDraw (s : State) (ms : List Micro) (pss : List (List (Int × Int × Half))) : Prop :=
  List.Forall₂ s.PieceDraws ms pss

/-- A piece that draws a pixel of a glyph that has its byte `a` among those it takes. -/
def Micro.DrawnFrom (a : Nat) (m : Micro) : Prop :=
  ∃ x y glyph size addr bit fg bg, m = .cell x y glyph size addr bit fg bg ∧ glyph ≤ a ∧ a < glyph + size

/-- The pieces of a character's work in order (R245): it is dropped whole, or its glyph's pixels follow row by row, each
with the glyph's bytes (R240) and its own bit of them (R243). -/
def State.charPieces (s : State) (f : Font) (fg bg : Half) (p : Int × Int × Byte) : List Micro :=
  if s.CharDropped f p.1 p.2.1 p.2.2 then [.dropChar]
  else
    (List.range f.h.toNat).flatMap fun (row : Nat) => (List.range f.w.toNat).map fun (col : Nat) =>
      .cell (p.1 + col) (p.2.1 + row) (glyphByteAddr f p.2.2 0 0) (f.h.toNat * ((f.w.toNat + 7) / 8))
        (glyphByteAddr f p.2.2 row col) (7 - col % 8) fg bg

/-- The current command is a text command that is not rejected, and `all` is the whole of its work: DRAW_CHAR's one
character (R250), or the characters of DRAW_STRING's payload (R255) or of DRAW_NUMBER's string (R262), each where the
cursor puts it. -/
def State.RunsText (s : State) (all : List Micro) : Prop :=
  s.cfgValid = true ∧ ∃ (slot : BitVec 4) (fg x y bg16 : Half) (rest : List Word), slot.toNat < s.params.fontSlots ∧
    (s.font slot.toNat).w ≠ 0 ∧
    ((∃ ch, decode s.current = .command (.drawChar slot fg x y ch bg16) rest ∧
        all = s.charPieces (s.font slot.toNat) fg bg16 (x.toNat, y.toNat, ch)) ∨
      ∃ chars, (decode s.current = .command (.drawString slot fg x y bg16 chars) rest ∨
          ∃ digits value, decode s.current = .command (.drawNumber slot fg x y digits bg16 value) rest ∧
            value.extractLsb' 52 11 ≠ 0x7FF ∧ chars = numberChars value digits.toNat ∧ chars.length ≤ 255) ∧
        all = (cursorPath s (s.font slot.toNat) x.toNat y.toNat (x.toNat, y.toNat) chars).flatMap
          (s.charPieces (s.font slot.toNat) fg bg16))

/-- The result of a text command that places characters and writes pixels: OOB if a character or a pixel is dropped,
OK otherwise (R250, R255). -/
def State.textResult (s : State) (f : Font) (cs : List (Int × Int × Byte)) (ps : List (Int × Int × Half)) : Result :=
  if (∃ p ∈ cs, s.CharDropped f p.1 p.2.1 p.2.2) ∨ ∃ q ∈ ps, s.pixelOutcome q.1 q.2.1 = .dropped then .oob else .ok

/-- What a soft reset leaves of a command it aborts: nothing, and no result (R342, R343). -/
def State.Aborted (s t : State) : Prop :=
  t.result = .ok ∧ t.sticky = 0 ∧ t.mode = .idle ∧ t.work = none ∧ t.current = [] ∧ t.dropped = false ∧
    t.offered = none ∧ t.fifo = [] ∧ t.held = none ∧ s.SameSurface t ∧ s.SameFonts t ∧ t.fbIndex = s.fbIndex

/-- The number a significand and an exponent stand for. -/
def BinReal.value (a : BinReal) : ℚ := a.sig * (2 : ℚ) ^ a.exp

/-- The tokens of a frame (R282, R283). -/
def State.frameTokens (s : State) : List Token :=
  (List.range s.hm.toNat).flatMap fun r =>
    .row r :: (List.range s.stride).flatMap fun b => [.colA b, .colB b, .data (rev8 (s.readFb (r * s.stride + b)))]

/-- `u` is the state after the first `k` of the commands that `ws` holds have run from `s` on, or after all of them
where there are fewer. Only its Surface registers and its font table are asked about (R350). -/
def AfterCommands : Nat → List Word → State → State → Prop
  | 0, _, s, u => u = s
  | k + 1, ws, s, u =>
    match decode ws with
    | .command i rest => ∃ t, exec i s = .next t ∧ AfterCommands k rest t u
    | .illegal _ => u = s
    | .incomplete => u = s

/-- `v` is what the Surface or font register at `off` shows of the state `s` (R75, R80). -/
def State.ShowsConfig (s : State) (off : Nat) (v : Word) : Prop :=
  (off = 0x14 → v.extractLsb' 0 16 = s.wm ∧ v.extractLsb' 16 16 = s.hm) ∧
  (off = 0x18 → v.extractLsb' 0 16 = s.rot ∧ v.extractLsb' 16 2 = s.mirror ∧ v.extractLsb' 18 6 = 0 ∧
    v.extractLsb' 24 5 = s.depth ∧ v.extractLsb' 29 3 = 0) ∧
  (off = 0x1C → (v.extractLsb' 0 16).toNat = s.width ∧ (v.extractLsb' 16 16).toNat = s.height) ∧
  (off = 0x20 → v.extractLsb' 0 16 = s.bg ∧ v.extractLsb' 16 16 = 0) ∧
  (off = 0x24 → v = BitVec.ofNat 32 s.fbLen) ∧
  (off = 0x28 → v = BitVec.ofNat 32 s.stride) ∧
  (∀ k, k < 16 → off = 0x40 + 8 * k →
    (k < s.params.fontSlots → v = (s.font k).base) ∧ (s.params.fontSlots ≤ k → v = 0)) ∧
  (∀ k, k < 16 → off = 0x44 + 8 * k →
    (k < s.params.fontSlots →
      v.extractLsb' 0 8 = (s.font k).w ∧ v.extractLsb' 8 8 = (s.font k).h ∧ v.extractLsb' 16 16 = 0) ∧
    (s.params.fontSlots ≤ k → v = 0))

/-- When a configuration command is rejected (R142, R144, R146, R148, R150, R303). -/
def ConfigRejects (s : State) : Instr → Prop
  | .surfInit _ wm hm rot =>
    wm = 0 ∨ hm = 0 ∨ (rot ≠ 0 ∧ rot ≠ 90 ∧ rot ≠ 180 ∧ rot ≠ 270) ∨
      (wm.toNat + 7) / 8 * hm.toNat > s.params.fbCapacity
  | .setRotation rot => s.cfgValid = false ∨ (rot ≠ 0 ∧ rot ≠ 90 ∧ rot ≠ 180 ∧ rot ≠ 270)
  | .setMirror mcode => s.cfgValid = false ∨ mcode.toNat > 3
  | .setDepth dcode =>
    s.cfgValid = false ∨ (dcode ≠ 1 ∧ dcode ≠ 2 ∧ dcode ≠ 4 ∧ dcode ≠ 16) ∨
      (s.wm.toNat * dcode.toNat + 7) / 8 * s.hm.toNat > s.params.fbCapacity
  | .setFont slot gw gh _ => slot.toNat ≥ s.params.fontSlots ∨ gw = 0 ∨ gh = 0
  | .nop => False
  | .clear _ => False
  | .setPixel _ _ _ => False
  | .drawPoint _ _ _ _ _ => False
  | .drawLine _ _ _ _ _ _ => False
  | .drawRect _ _ _ _ _ _ => False
  | .drawCircle _ _ _ _ _ => False
  | .drawChar _ _ _ _ _ _ => False
  | .drawString _ _ _ _ _ _ => False
  | .drawNumber _ _ _ _ _ _ _ => False
  | .pushFrame => False

/-- The commands that need no Surface (R303). -/
def NeedsNoSurface (i : Instr) : Prop := i.op = .nop ∨ i.op = .surfInit ∨ i.op = .setFont

/-- The number of words of a command, the header counted (R105, R112). -/
def wordCount : Instr → Nat
  | .nop => 1
  | .surfInit _ _ _ _ => 3
  | .setRotation _ => 1
  | .setMirror _ => 1
  | .setDepth _ => 1
  | .setFont _ _ _ _ => 2
  | .clear _ => 1
  | .setPixel _ _ _ => 2
  | .drawPoint _ _ _ _ _ => 3
  | .drawLine _ _ _ _ _ _ => 3
  | .drawRect _ _ _ _ _ _ => 3
  | .drawCircle _ _ _ _ _ => 3
  | .drawChar _ _ _ _ _ _ => 3
  | .drawString _ _ _ _ _ chars => 3 + (chars.length / 4 + 1)
  | .drawNumber _ _ _ _ _ _ _ => 5
  | .pushFrame => 1

/-- `MATCH` of R107. -/
def rowMatch (op : Op) : Word :=
  match op with
  | .nop => 0x00000000 | .surfInit => 0x00000001 | .setRotation => 0x00000002 | .setMirror => 0x00000003
  | .setDepth => 0x00000004 | .setFont => 0x00000005 | .clear => 0x00000010 | .setPixel => 0x00000011
  | .drawPoint => 0x00000012 | .drawLine => 0x00000013 | .drawRect => 0x00000014 | .drawCircle => 0x00000015
  | .drawChar => 0x00000018 | .drawString => 0x00000019 | .drawNumber => 0x0000001A | .pushFrame => 0x00000020

/-- `MASK` of R107. -/
def rowMask (op : Op) : Word :=
  match op with
  | .nop => 0xFFFFFFFF | .surfInit => 0x0000FFFF | .setRotation => 0x0000FFFF | .setMirror => 0xFFFF00FF
  | .setDepth => 0xFFFF00FF | .setFont => 0x0000F0FF | .clear => 0x0000FFFF | .setPixel => 0x0000FFFF
  | .drawPoint => 0x0000FEFF | .drawLine => 0x0000FEFF | .drawRect => 0x0000FEFF | .drawCircle => 0x0000FEFF
  | .drawChar => 0x0000F0FF | .drawString => 0x0000F0FF | .drawNumber => 0x0000F0FF | .pushFrame => 0xFFFFFFFF

end Sys2Proof.Machine
end

