-- ==== Sys2Proof/Certificates/Slice0/Obligations.lean ====
section
/-! DEFINITION. The statements about the model, one definition each. -/

open Sys2Proof Sys2Proof.Machine

/-! ### Encoding and decoding -/

/-- R101, R102, R106, R112, R113, R116: the decoder reads back every well-formed command, whatever follows it, and
the command takes the number of words of R105. -/
def Obligations.EncodeDecodeRoundTrip : Prop :=
  ∀ (i : Instr) (rest : List Word), i.wellFormed = true →
    decode (encode i ++ rest) = .command i rest ∧ (encode i).length = wordCount i

/-- R100, R103, R105, R112: a command the decoder reads is well formed, takes exactly its number of words, does not
depend on the words after it, and is not complete before its last word. -/
def Obligations.DecodeReadsWholeCommand : Prop :=
  ∀ (ws rest : List Word) (i : Instr), decode ws = .command i rest →
    i.wellFormed = true ∧ ∃ used, ws = used ++ rest ∧ used.length = wordCount i ∧
      (∀ rest', decode (used ++ rest') = .command i rest') ∧
      ∀ k, k < used.length → decode (used.take k) = .incomplete

/-- R107: a header selects a row exactly when its masked bits are the row's match, at most one row matches a
header, and the reserved mask of a row is its mask without bits 7:0. -/
def Obligations.HeaderSelectsRowByMask : Prop :=
  ∀ (h : Word) (op : Op),
    (headerOp h = .ok op ↔ h &&& rowMask op = rowMatch op) ∧
    (∀ op', h &&& rowMask op = rowMatch op → h &&& rowMask op' = rowMatch op' → op' = op) ∧
    op.reservedMask = rowMask op &&& 0xFFFFFF00

/-- R104: a header is illegal exactly when its opcode has no row, or it has a reserved bit set. -/
def Obligations.IllegalHeaders : Prop :=
  ∀ (h : Word) (ws : List Word),
    (∃ e, decode (h :: ws) = .illegal e) ↔
      (∀ op : Op, rowMatch op ≠ h &&& 0xFF) ∨ ∃ op : Op, rowMatch op = h &&& 0xFF ∧ h &&& op.reservedMask ≠ 0

/-- Words of the examples of R117, R140, R142, R144, R146, R148, R150, R190, R192, R202, R220, R230, R250, R255, R262
and R282, and four illegal headers, read as the spec reads them. -/
def Obligations.SampleWordsDecode : Prop :=
  decode [0x00000000] = .command .nop [] ∧
  decode [0x00000001, 0x00800080, 0x00000000] = .command (.surfInit 0 128 128 0) [] ∧
  decode [0x005A0002] = .command (.setRotation 90) [] ∧
  decode [0x00000103] = .command (.setMirror 1) [] ∧
  decode [0x00000404] = .command (.setDepth 4) [] ∧
  decode [0x0C080005, 0x00000100] = .command (.setFont 0 8 12 0x100) [] ∧
  decode [0x00030010] = .command (.clear 3) [] ∧
  decode [0x00010011, 0x00020009] = .command (.setPixel 1 9 2) [] ∧
  decode [0x00010012, 0x00050005, 0x00000002] = .command (.drawPoint .around 1 5 5 2) [] ∧
  decode [0x00010113, 0x00000000, 0x0000000A] = .command (.drawLine .dotted 1 0 0 10 0) [] ∧
  decode [0x00010114, 0x00020002, 0x00040005] = .command (.drawRect .filled 1 2 2 5 4) [] ∧
  decode [0x00010015, 0x00320032, 0x0000000A] = .command (.drawCircle .outline 1 50 50 10) [] ∧
  decode [0x00010018, 0x0014000A, 0x00000041] = .command (.drawChar 0 1 10 20 0x41 0) [] ∧
  decode [0x00010019, 0x00000064, 0x00000000, 0x44434241, 0x00000000] =
    .command (.drawString 0 1 100 0 0 [0x41, 0x42, 0x43, 0x44]) [] ∧
  decode [0x0001001A, 0x00000000, 0x00000002, 0xF01B866E, 0x400921F9] =
    .command (.drawNumber 0 1 0 0 2 0 0x400921F9F01B866E) [] ∧
  decode [0x00000020] = .command .pushFrame [] ∧
  decode [0x00000100] = .illegal (.reservedBits .nop) ∧
  decode [0x00000006] = .illegal (.unassignedOpcode 6) ∧
  decode [0x00010003] = .illegal (.reservedBits .setMirror) ∧
  decode [0x00000212] = .illegal (.reservedBits .drawPoint)

/-! ### The engine and the step -/

/-- R300: when the words received so far and the stream hold a whole command and nothing can come from outside, a step
runs it: its words are the current command's, those after it stay in the FIFO, and a host that waited goes on (R355). -/
def Obligations.StepRunsDecodedCommand : Prop :=
  ∀ (s : State) (i : Instr) (rest : List Word), s.nextInput = none → s.mode ≠ .halted → s.work = none →
    decode (s.current ++ (s.fifo ++ s.held.toList)) = .command i rest →
    step s = exec i { s with
      mode := .exec
      current := (s.current ++ (s.fifo ++ s.held.toList)).take
        ((s.current ++ (s.fifo ++ s.held.toList)).length - rest.length)
      fifo := rest
      held := none }

/-- R300, R317, R355: while the words so far are no whole command, a step takes all of them and stays in `EXEC`; with
no word to take it changes nothing. -/
def Obligations.StepWaitsForMoreWords : Prop :=
  ∀ s : State, s.nextInput = none → s.mode ≠ .halted → s.work = none →
    decode (s.current ++ (s.fifo ++ s.held.toList)) = .incomplete →
    (s.fifo ++ s.held.toList ≠ [] → step s = .next { s with
      mode := .exec, current := s.current ++ (s.fifo ++ s.held.toList), fifo := [], held := none }) ∧
    (s.fifo ++ s.held.toList = [] → step s = .next s)

/-- R302: an illegal header sets ILLEGAL and its sticky bit and halts the engine, which holds no word any more and is
not busy; nothing else changes. In HALTED a word written to `CMD` is discarded, the engine does nothing, and only a
soft or a hard reset leaves the mode. -/
def Obligations.IllegalHeaderHalts : Prop :=
  (∀ (s : State) (h : Word) (ws : List Word) (e : DecodeError), s.Ready → s.fifo ++ s.held.toList = h :: ws →
    headerOp h = .error e →
    ∃ t, step s = .next t ∧ t.result = .illegal ∧ t.sIllegal = true ∧ t.sticky = s.sticky ||| 0b10000 ∧
      t.mode = .halted ∧ t.busy = false ∧ t.halted = true ∧ t.fifo = [] ∧ t.held = none ∧ t.current = [] ∧
      t.work = none ∧ s.SameSurface t ∧ s.SameFonts t ∧ s.SameFb t ∧ s.SameTransport t ∧ t.params = s.params ∧
      t.fbIndex = s.fbIndex ∧ t.inputs = s.inputs) ∧
  (∀ (s : State) (v : Word) (rest : List Input), s.mode = .halted →
    s.nextInput = some (.hostWrite 4 0x00 v, rest) → step s = .next { s with inputs := rest }) ∧
  (∀ s : State, s.mode = .halted → s.nextInput = none → step s = .next { s with fifo := [], held := none }) ∧
  ∀ s t : State, s.mode = .halted → step s = .next t → t.mode ≠ .halted →
    (∃ v rest, s.nextInput = some (.hostWrite 4 0x08 v, rest) ∧ v.getLsbD 0 = true) ∨
      ∃ rest, s.nextInput = some (.hardReset, rest)

/-- R300, R343: the engine's own small steps, which something from outside may come between, add up to what one
step of the machine does when nothing comes: the two readings of the engine cycle agree. -/
def Obligations.TicksReachCommandEnd : Prop :=
  ∀ s : State, s.Inv → s.nextInput = none → ∃ n, step s = .next (ticks n s)

/-- R343: a soft reset that comes after the first pieces of a command's work leaves what those wrote and nothing more:
the pixels, CLEAR's bytes, the glyph pixels; at 16 bits an aborted CLEAR leaves every pixel old or cleared, never half
written. The command reports nothing and the engine is idle. An aborted frame keeps the tokens accepted, and the token
that waits for its answer is withdrawn. That the transport's answers not taken yet are kept (the first part's
`SameTransport`) is the model's choice: DESIGN CHOICE, log entry 21. -/
def Obligations.AbortKeepsPixelsDrawn : Prop :=
  (∀ (s : State) (done left : List Micro) (v : Word) (rest : List Input), s.mode = .exec → s.held = none →
    s.work = some (done ++ left) → s.inputs = .ticks done.length :: .hostWrite 4 0x08 v :: rest →
    v.getLsbD 0 = true → (∀ e, Micro.emit e ∉ done) →
    ∃ t u, step s = .next t ∧ step t = .next u ∧ s.Aborted u ∧ s.SameTransport u ∧ u.inputs = rest ∧
      (∀ ps : List (Int × Int × Half), done = ps.map (fun p => .pixel p.1 p.2.1 p.2.2) →
        ∀ j, u.readFb j = (s.paint ps).readFb j) ∧
      (∀ fs : List (Nat × List Byte), done = fs.map (fun p => .fill p.1 p.2) →
        ∀ j, u.readFb j = (fs.foldl (fun w p => w.writeBytes p.1 p.2) s).readFb j) ∧
      (∀ color : Half, depthOf s.depth.toNat = some .sixteen → done ++ left = clearWork color s →
        ∀ X Y, X < s.wm.toNat → Y < s.hm.toNat →
          u.getPixel .sixteen X Y = color ∨ u.getPixel .sixteen X Y = s.getPixel .sixteen X Y) ∧
      ((∀ m ∈ done, m = .dropChar ∨ ∃ x y g n a b fg bg, m = .cell x y g n a b fg bg) →
        ∃ pss, s.PiecesDraw done pss ∧ ∀ j, u.readFb j = (s.paint pss.flatten).readFb j)) ∧
  ∀ (s : State) (es later : List Emission) (e : Emission) (more : List Answer) (n : Nat) (v : Word)
    (rest : List Input), s.mode = .exec → s.held = none → s.work = some ((es ++ e :: later).map .emit) →
    s.answers = List.replicate es.length .accepted ++ more →
    s.inputs = .ticks n :: .hostWrite 4 0x08 v :: rest → v.getLsbD 0 = true →
    n = es.length ∨ (n = es.length + 1 ∧ more = []) →
    ∃ t u, step s = .next t ∧ (n = es.length + 1 → t.offered = some (s.tokenOf e)) ∧ step t = .next u ∧
      s.Aborted u ∧ u.tokens = s.tokens ++ es.map s.tokenOf ∧ s.SameFb u

/-- Every step keeps the invariant: the framebuffer's canonical form and bounds (R82), the legal modes (R34, R36), the
capacity (R39), the font table (R43), the FIFO (R49), and what the engine holds in each mode (R48, R50). -/
def Obligations.StepKeepsInvariant : Prop :=
  ∀ s t : State, s.Inv → step s = .next t → t.Inv

/-- The invariant holds after a hard reset, whatever the implementation's parameters and font memory (R8, R52). -/
def Obligations.ResetSatisfiesInvariant : Prop :=
  (∀ (p : Params) (m : List Byte), p.wf = true → (State.resetWith p m).Inv) ∧ State.reset.Inv

/-- R52: the value of every piece of state after a hard reset; a framebuffer byte holds a free value. -/
def Obligations.ResetValues : Prop :=
  ∀ (p : Params) (m : List Byte),
    let s := State.resetWith p m
    s.wm = 0 ∧ s.hm = 0 ∧ s.rot = 0 ∧ s.mirror = 0 ∧ s.depth = 1 ∧ s.bg = 0 ∧ s.cfgValid = false ∧
      s.width = 0 ∧ s.height = 0 ∧ s.stride = 0 ∧ s.fbLen = 0 ∧
      (∀ i, s.readFb i = Config.fbUnspecified s.fbEpoch i) ∧
      (∀ k, k < p.fontSlots → s.fonts[k]? = some { base := 0, w := 0, h := 0 }) ∧ s.fonts.length = p.fontSlots ∧
      s.statusWord = 0 ∧ s.fbIndex = 0 ∧ s.mode = .idle ∧ s.fifo = [] ∧ s.offered = none

/-! ### What commands may change -/

/-- R300, R308: every command answers a next state from every state: it ends with a result of its own, or it is a
PUSH_FRAME that waits for the transport. -/
def Obligations.EveryCommandAnswers : Prop :=
  ∀ (i : Instr) (s : State), ∃ t, exec i s = .next t ∧
    ((∃ c, s.Ended t c ∧ c ≠ .illegal) ∨
      (i = .pushFrame ∧ t.mode = .exec ∧ t.answers = [] ∧ t.offered.isSome = true ∧ t.result = s.result ∧
        t.sticky = s.sticky))

/-- R32 to R36, R40, R41, R43: which commands write which register; `FB_INDEX`, font memory and the words still to
come are written by none (R47, R86). -/
def Obligations.OnlyConfigurationWritesRegisters : Prop :=
  ∀ (i : Instr) (s t : State), exec i s = .next t →
    (i.op ≠ .surfInit → t.wm = s.wm ∧ t.hm = s.hm ∧ t.bg = s.bg ∧ t.cfgValid = s.cfgValid) ∧
    (i.op ≠ .surfInit → i.op ≠ .setRotation → t.rot = s.rot) ∧
    (i.op ≠ .surfInit → i.op ≠ .setMirror → t.mirror = s.mirror) ∧
    (i.op ≠ .surfInit → i.op ≠ .setDepth → t.depth = s.depth) ∧
    (i.op ≠ .setFont → t.fonts = s.fonts) ∧
    (s.cfgValid = true → t.cfgValid = true) ∧
    t.fontMem = s.fontMem ∧ s.SameOutside t

/-- R42, R82, R86: the framebuffer is written by the drawing commands only, and by none of them at or above `FB_LEN`;
the token stream is written by PUSH_FRAME only. -/
def Obligations.OnlyDrawingWritesFramebuffer : Prop :=
  ∀ (i : Instr) (s t : State), exec i s = .next t →
    (i.op = .nop ∨ i.op = .setRotation ∨ i.op = .setMirror ∨ i.op = .setFont ∨ i.op = .pushFrame → s.SameFb t) ∧
    (i.op ≠ .surfInit → i.op ≠ .setDepth → ∀ j, s.fbLen ≤ j → t.readFb j = s.readFb j) ∧
    (i.op ≠ .pushFrame → s.SameTransport t)

/-! ### Configuration -/

/-- R140: NOP changes nothing but `STATUS` and ends OK, whether or not there is a Surface. -/
def Obligations.NopOnlyReports : Prop :=
  ∀ s : State, ∃ t, exec .nop s = .next t ∧ s.OnlyStatus t .ok

/-- R142: SURF_INIT rejects a zero dimension, an unrecognized rotation and a 1-bit buffer that does not fit;
otherwise it writes every Surface register, and every framebuffer byte becomes a free value. -/
def Obligations.SurfInitCreatesSurface : Prop :=
  ∀ (s : State) (bg wm hm rot : Half),
    (ConfigRejects s (.surfInit bg wm hm rot) →
      ∃ t, exec (.surfInit bg wm hm rot) s = .next t ∧ s.OnlyStatus t .unsupported) ∧
    (¬ ConfigRejects s (.surfInit bg wm hm rot) →
      ∃ t, exec (.surfInit bg wm hm rot) s = .next t ∧ t.wm = wm ∧ t.hm = hm ∧ t.rot = rot ∧ t.bg = bg ∧
        t.mirror = 0 ∧ t.depth = 1 ∧ t.cfgValid = true ∧ t.fbEpoch = s.fbEpoch + 1 ∧
        (∀ i, t.readFb i = Config.fbUnspecified t.fbEpoch i) ∧ s.SameFonts t ∧ s.SameOutside t ∧
        s.SameTransport t ∧ s.Ended t .ok)

/-- R144: SET_ROTATION rejects when there is no Surface or the rotation is unrecognized; otherwise it writes `ROT`
and nothing else, so the framebuffer keeps every byte (R145). -/
def Obligations.SetRotationWritesRot : Prop :=
  ∀ (s : State) (rot : Half),
    (ConfigRejects s (.setRotation rot) →
      ∃ t, exec (.setRotation rot) s = .next t ∧ s.OnlyStatus t .unsupported) ∧
    (¬ ConfigRejects s (.setRotation rot) →
      ∃ t, exec (.setRotation rot) s = .next t ∧ t.rot = rot ∧ t.wm = s.wm ∧ t.hm = s.hm ∧ t.mirror = s.mirror ∧
        t.depth = s.depth ∧ t.bg = s.bg ∧ t.cfgValid = s.cfgValid ∧
        t.width = (if rot = 0 ∨ rot = 180 then s.wm.toNat else s.hm.toNat) ∧
        t.height = (if rot = 0 ∨ rot = 180 then s.hm.toNat else s.wm.toNat) ∧
        s.SameFb t ∧ s.SameFonts t ∧ s.SameOutside t ∧ s.SameTransport t ∧ s.Ended t .ok)

/-- R146: SET_MIRROR rejects when there is no Surface or the code is above 3; otherwise it writes `MIRROR` and nothing
else. -/
def Obligations.SetMirrorWritesMirror : Prop :=
  ∀ (s : State) (mcode : Byte),
    (ConfigRejects s (.setMirror mcode) →
      ∃ t, exec (.setMirror mcode) s = .next t ∧ s.OnlyStatus t .unsupported) ∧
    (¬ ConfigRejects s (.setMirror mcode) →
      ∃ t, exec (.setMirror mcode) s = .next t ∧ t.mirror.toNat = mcode.toNat ∧ t.wm = s.wm ∧ t.hm = s.hm ∧
        t.rot = s.rot ∧ t.depth = s.depth ∧ t.bg = s.bg ∧ t.cfgValid = s.cfgValid ∧ s.SameFb t ∧ s.SameFonts t ∧
        s.SameOutside t ∧ s.SameTransport t ∧ s.Ended t .ok)

/-- R148: SET_DEPTH rejects when there is no Surface, the depth is unrecognized or the buffer does not fit;
otherwise it writes `DEPTH`, `STRIDE` and `FB_LEN` follow, and every framebuffer byte becomes a free value. -/
def Obligations.SetDepthReallocates : Prop :=
  ∀ (s : State) (dcode : Byte),
    (ConfigRejects s (.setDepth dcode) →
      ∃ t, exec (.setDepth dcode) s = .next t ∧ s.OnlyStatus t .unsupported) ∧
    (¬ ConfigRejects s (.setDepth dcode) →
      ∃ t, exec (.setDepth dcode) s = .next t ∧ t.depth.toNat = dcode.toNat ∧ t.wm = s.wm ∧ t.hm = s.hm ∧
        t.rot = s.rot ∧ t.mirror = s.mirror ∧ t.bg = s.bg ∧ t.cfgValid = s.cfgValid ∧
        t.stride = (s.wm.toNat * dcode.toNat + 7) / 8 ∧
        t.fbLen = (s.wm.toNat * dcode.toNat + 7) / 8 * s.hm.toNat ∧ t.fbEpoch = s.fbEpoch + 1 ∧
        (∀ i, t.readFb i = Config.fbUnspecified t.fbEpoch i) ∧ s.SameFonts t ∧ s.SameOutside t ∧
        s.SameTransport t ∧ s.Ended t .ok)

/-- R150: SET_FONT rejects a slot the block does not have and a zero glyph dimension; otherwise it replaces that slot
and nothing else. It needs no Surface. -/
def Obligations.SetFontLoadsSlot : Prop :=
  ∀ (s : State) (slot : BitVec 4) (gw gh : Byte) (base : Word), s.fonts.length = s.params.fontSlots →
    (ConfigRejects s (.setFont slot gw gh base) →
      ∃ t, exec (.setFont slot gw gh base) s = .next t ∧ s.OnlyStatus t .unsupported) ∧
    (¬ ConfigRejects s (.setFont slot gw gh base) →
      ∃ t, exec (.setFont slot gw gh base) s = .next t ∧ t.font slot.toNat = { base := base, w := gw, h := gh } ∧
        (∀ k, k ≠ slot.toNat → t.font k = s.font k) ∧ t.fonts.length = s.fonts.length ∧ t.fontMem = s.fontMem ∧
        s.SameSurface t ∧ s.SameFb t ∧ s.SameOutside t ∧ s.SameTransport t ∧ s.Ended t .ok)

/-- R141: a configuration command that does not end OK has changed no register and no framebuffer byte, only
`STATUS`. -/
def Obligations.RejectedConfigurationChangesNothing : Prop :=
  ∀ (i : Instr) (s t : State),
    i.op = .surfInit ∨ i.op = .setRotation ∨ i.op = .setMirror ∨ i.op = .setDepth ∨ i.op = .setFont →
    exec i s = .next t → t.result ≠ .ok → s.OnlyStatus t t.result ∧ t.result = .unsupported

/-- R303: without a Surface every command but NOP, SURF_INIT and SET_FONT is rejected with UNSUPPORTED before its own
rule runs: it changes nothing, and its words are consumed. -/
def Obligations.UnconfiguredCommandsRejected : Prop :=
  ∀ (s : State) (i : Instr), s.cfgValid = false → ¬ NeedsNoSurface i →
    (∃ t, exec i s = .next t ∧ s.OnlyStatus t .unsupported) ∧
    ∀ rest, s.Ready → decode (s.fifo ++ s.held.toList) = .command i rest →
      ∃ t, step s = .next t ∧ t.fifo = rest ∧ t.held = none ∧ s.SameSurface t ∧ s.SameFonts t ∧ s.SameFb t ∧
        s.SameTransport t ∧ t.params = s.params ∧ t.fbIndex = s.fbIndex ∧ s.Ended t .unsupported

/-! ### The transform and the pixel write -/

/-- R171, R172: the transform is the row of `ROT` in the rotation table, and then, on what that gives, the row of
`MIRROR` in the mirror table; an unrecognized rotation gives none. R175: for every recognized rotation and every
mirror, it maps the logical rectangle one-to-one onto the physical rectangle. -/
def Obligations.TransformIsBijection : Prop :=
  (∀ (s : State) (x y X Y : Int),
    (s.rot = 0 ∧ X = x ∧ Y = y) ∨ (s.rot = 90 ∧ X = s.wm.toNat - y - 1 ∧ Y = x) ∨
      (s.rot = 180 ∧ X = s.wm.toNat - x - 1 ∧ Y = s.hm.toNat - y - 1) ∨
      (s.rot = 270 ∧ X = y ∧ Y = s.hm.toNat - x - 1) →
    (s.mirror = 0 → transform s.rot s.mirror s.wm s.hm x y = some (X, Y)) ∧
    (s.mirror = 1 → transform s.rot s.mirror s.wm s.hm x y = some (s.wm.toNat - X - 1, Y)) ∧
    (s.mirror = 2 → transform s.rot s.mirror s.wm s.hm x y = some (X, s.hm.toNat - Y - 1)) ∧
    (s.mirror = 3 → transform s.rot s.mirror s.wm s.hm x y = some (s.wm.toNat - X - 1, s.hm.toNat - Y - 1))) ∧
  (∀ (s : State) (x y : Int), s.rot ≠ 0 → s.rot ≠ 90 → s.rot ≠ 180 → s.rot ≠ 270 →
    transform s.rot s.mirror s.wm s.hm x y = none) ∧
  ∀ s : State, s.rot = 0 ∨ s.rot = 90 ∨ s.rot = 180 ∨ s.rot = 270 →
    (∀ x y : Int, 0 ≤ x → x < s.width → 0 ≤ y → y < s.height →
      ∃ X Y : Int, transform s.rot s.mirror s.wm s.hm x y = some (X, Y) ∧
        0 ≤ X ∧ X < s.wm.toNat ∧ 0 ≤ Y ∧ Y < s.hm.toNat) ∧
    (∀ x y x' y' : Int,
      transform s.rot s.mirror s.wm s.hm x y = transform s.rot s.mirror s.wm s.hm x' y' → x = x' ∧ y = y') ∧
    (∀ X Y : Int, 0 ≤ X → X < s.wm.toNat → 0 ≤ Y → Y < s.hm.toNat →
      ∃ x y : Int, 0 ≤ x ∧ x < s.width ∧ 0 ≤ y ∧ y < s.height ∧
        transform s.rot s.mirror s.wm s.hm x y = some (X, Y))

/-- R189: a pixel inside the logical rectangle is written, and reads back at its physical place as the colour modulo
2 to the depth. -/
def Obligations.PixelRoundTrip : Prop :=
  ∀ (s : State) (d : Depth) (x y : Int) (c : Half), depthOf s.depth.toNat = some d →
    s.rot = 0 ∨ s.rot = 90 ∨ s.rot = 180 ∨ s.rot = 270 → 0 ≤ x → x < s.width → 0 ≤ y → y < s.height →
    ∃ X Y : Int, transform s.rot s.mirror s.wm s.hm x y = some (X, Y) ∧ s.pixelOutcome x y = .written ∧
      (s.writePixel x y c).getPixel d X.toNat Y.toNat = BitVec.ofNat 16 (c.toNat % 2 ^ d.bits)

/-- R79, R183 to R187: writing one pixel of the physical rectangle leaves every other pixel of it as it was. -/
def Obligations.PixelKeepsItsNeighbours : Prop :=
  ∀ (s : State) (d : Depth) (x y X Y : Int) (c : Half) (X' Y' : Nat), depthOf s.depth.toNat = some d →
    transform s.rot s.mirror s.wm s.hm x y = some (X, Y) → 0 ≤ X → X < s.wm.toNat → 0 ≤ Y → Y < s.hm.toNat →
    X' < s.wm.toNat → Y' < s.hm.toNat → ((X' : Int), (Y' : Int)) ≠ (X, Y) →
    (s.writePixel x y c).getPixel d X' Y' = s.getPixel d X' Y'

/-- R183: the byte of the physical pixel `(X, Y)` at each depth, where a write of it goes unless it passes the end of
the buffer, which inside the rectangle it never does. R184, R185, R186, R187: the bits a pixel write sets in its byte
at each depth, every other bit kept; at 16 bits the high byte goes to the lower index. Every other byte is kept. -/
def Obligations.PackWritesItsField : Prop :=
  (∀ (s : State) (d : Depth) (x y X Y : Int) (c : Half), depthOf s.depth.toNat = some d → 0 ≤ x → x ≤ s.width →
    0 ≤ y → y ≤ s.height → transform s.rot s.mirror s.wm s.hm x y = some (X, Y) → 0 ≤ X → X ≤ s.wm.toNat → 0 ≤ Y →
    Y ≤ s.hm.toNat →
    let i := (match d with
      | .one => X.toNat / 8 | .two => X.toNat / 4 | .four => X.toNat / 2 | .sixteen => X.toNat * 2) +
        Y.toNat * s.stride
    let n := match d with | .one => 1 | .two => 1 | .four => 1 | .sixteen => 2
    (X < s.wm.toNat → Y < s.hm.toNat → i + n ≤ s.fbLen) ∧
    (i + n ≤ s.fbLen → s.pixelTarget x y = .place d i X.toNat ∧ s.writePixel x y c = s.pack d i X.toNat c) ∧
    (i + n > s.fbLen → s.pixelTarget x y = .dropped ∧ s.writePixel x y c = { s with dropped := true })) ∧
  ∀ (s : State) (i X : Nat) (c : Half),
    (∀ j, j < 8 → ((s.pack .one i X c).readFb i).getLsbD j =
      if j = 7 - X % 8 then c.getLsbD 0 else (s.readFb i).getLsbD j) ∧
    (∀ j, j < 8 → ((s.pack .two i X c).readFb i).getLsbD j =
      if j = 7 - 2 * (X % 4) then c.getLsbD 1 else if j = 6 - 2 * (X % 4) then c.getLsbD 0
      else (s.readFb i).getLsbD j) ∧
    (∀ j, j < 8 → ((s.pack .four i X c).readFb i).getLsbD j =
      if X % 2 = 0 then (if 4 ≤ j then c.getLsbD (j - 4) else (s.readFb i).getLsbD j)
      else if j < 4 then c.getLsbD j else (s.readFb i).getLsbD j) ∧
    (s.pack .sixteen i X c).readFb i = c.extractLsb' 8 8 ∧
    (s.pack .sixteen i X c).readFb (i + 1) = c.extractLsb' 0 8 ∧
    (∀ d k, k ≠ i → d ≠ .sixteen ∨ k ≠ i + 1 → (s.pack d i X c).readFb k = s.readFb k)

/-- R182: a pixel whose bytes would not lie wholly inside the buffer is dropped, and no byte at or above `FB_LEN` is
ever written. On a Surface that has pixels the guard fires only at physical `Y = HM`, or at `X = WM` on the last row
when the row has no padding. -/
def Obligations.MemoryGuard : Prop :=
  (∀ (s : State) (d : Depth) (x y X Y : Int) (c : Half), depthOf s.depth.toNat = some d → 0 ≤ x → x ≤ s.width →
    0 ≤ y → y ≤ s.height → transform s.rot s.mirror s.wm s.hm x y = some (X, Y) → 0 ≤ X → X ≤ s.wm.toNat → 0 ≤ Y →
    Y ≤ s.hm.toNat →
    ((byteIndex d s.stride X.toNat Y.toNat).1 + (byteIndex d s.stride X.toNat Y.toNat).2 > s.fbLen →
      s.pixelOutcome x y = .dropped ∧ s.SameFb (s.writePixel x y c) ∧
        (s.wm ≠ 0 → Y = s.hm.toNat ∨
          (X = s.wm.toNat ∧ Y + 1 = s.hm.toNat ∧ s.wm.toNat * s.depth.toNat % 8 = 0))) ∧
    ((byteIndex d s.stride X.toNat Y.toNat).1 + (byteIndex d s.stride X.toNat Y.toNat).2 ≤ s.fbLen →
      s.pixelOutcome x y = .written)) ∧
  ∀ (s : State) (x y : Int) (c : Half) (j : Nat), s.fbLen ≤ j → (s.writePixel x y c).readFb j = s.readFb j

/-- R177, R181, R178: a negative logical coordinate, one beyond `WIDTH` or `HEIGHT`, and one whose physical place is
negative or beyond `WM` or `HM` are dropped and change no byte; `x = WIDTH` and `y = HEIGHT` are not refused by the
logical check. -/
def Obligations.BoundsChecksDrop : Prop :=
  ∀ (s : State) (x y : Int) (c : Half),
    (x < 0 ∨ y < 0 ∨ x > s.width ∨ y > s.height →
      s.pixelOutcome x y = .dropped ∧ s.SameFb (s.writePixel x y c) ∧ (s.writePixel x y c).dropped = true) ∧
    ∀ X Y : Int, 0 ≤ x → 0 ≤ y → x ≤ s.width → y ≤ s.height →
      transform s.rot s.mirror s.wm s.hm x y = some (X, Y) →
      (X < 0 ∨ Y < 0 ∨ X > s.wm.toNat ∨ Y > s.hm.toNat →
        s.pixelOutcome x y = .dropped ∧ s.SameFb (s.writePixel x y c) ∧ (s.writePixel x y c).dropped = true) ∧
      (∀ d, depthOf s.depth.toNat = some d → 0 ≤ X → 0 ≤ Y → X < s.wm.toNat → Y < s.hm.toNat →
        s.pixelOutcome x y = .written ∧ (s.writePixel x y c).dropped = s.dropped)

/-- R179, R182: at no rotation and no mirror, a pixel at `x = WIDTH` above the last row lands on the first pixel of
the next row when a row has no padding, and otherwise in padding that no pixel read sees; on the last row it is
dropped when the row has no padding; at `y = HEIGHT` it is dropped. -/
def Obligations.LenientEdge : Prop :=
  ∀ (s : State) (d : Depth) (c : Half), s.rot = 0 → s.mirror = 0 → depthOf s.depth.toNat = some d → s.wm ≠ 0 →
    (∀ y : Nat, y + 1 < s.hm.toNat → s.wm.toNat * s.depth.toNat % 8 = 0 →
      s.pixelOutcome s.wm.toNat y = .written ∧ s.writePixel s.wm.toNat y c = s.writePixel 0 (y + 1) c) ∧
    (∀ y X' Y' : Nat, y < s.hm.toNat → s.wm.toNat * s.depth.toNat % 8 ≠ 0 → X' < s.wm.toNat → Y' < s.hm.toNat →
      s.pixelOutcome s.wm.toNat y = .written ∧
        (s.writePixel s.wm.toNat y c).getPixel d X' Y' = s.getPixel d X' Y') ∧
    (∀ y : Nat, y + 1 = s.hm.toNat → s.wm.toNat * s.depth.toNat % 8 = 0 →
      s.pixelOutcome s.wm.toNat y = .dropped) ∧
    (∀ x : Nat, x ≤ s.wm.toNat → s.pixelOutcome x s.hm.toNat = .dropped)

/-- R190: CLEAR writes every byte of the buffer and no byte above it, and ends OK; every physical pixel then reads back
as the colour modulo 2 to the depth (R191). -/
def Obligations.ClearFillsBuffer : Prop :=
  ∀ (s : State) (color : Half) (d : Depth), s.cfgValid = true → depthOf s.depth.toNat = some d →
    ∃ t, exec (.clear color) s = .next t ∧
      (∀ i, i < s.fbLen → t.readFb i =
        match d with
        | .one => if color.toNat % 2 = 1 then 0xFF else 0x00
        | .two => BitVec.ofNat 8 (color.toNat % 4 * 0x55)
        | .four => BitVec.ofNat 8 (color.toNat % 16 * 0x11)
        | .sixteen => if i % 2 = 0 then BitVec.ofNat 8 (color.toNat / 256) else BitVec.ofNat 8 (color.toNat % 256)) ∧
      (∀ X Y, X < s.wm.toNat → Y < s.hm.toNat → t.getPixel d X Y = BitVec.ofNat 16 (color.toNat % 2 ^ d.bits)) ∧
      (∀ i, s.fbLen ≤ i → t.readFb i = s.readFb i) ∧ s.SameButDrawing t ∧ s.SameTransport t ∧ s.Ended t .ok

/-- R192: SET_PIXEL is one pixel write: its result is OK when the pixel was written and OOB when it was dropped, and
no byte but the pixel's own changes. -/
def Obligations.SetPixelWritesOnePixel : Prop :=
  ∀ (s : State) (color x y : Half), s.cfgValid = true →
    ∃ t, exec (.setPixel color x y) s = .next t ∧
      (∀ j, t.readFb j = (s.writePixel x.toNat y.toNat color).readFb j) ∧
      (∀ j, (∀ d i X, s.pixelTarget x.toNat y.toNat = .place d i X →
        j < i ∨ i + (if d = .sixteen then 2 else 1) ≤ j) → t.readFb j = s.readFb j) ∧
      s.Ended t (if s.pixelOutcome x.toNat y.toNat = .dropped then .oob else .ok) ∧ s.SameButDrawing t ∧
      s.SameTransport t

/-! ### The rasterizer -/

/-- R210: the points of a line follow its error: from each point the line steps along X if twice the error is at
least `dy`, along Y if it is at most `dx`, and stops where a step would leave an end coordinate. R211: it visits
exactly `max(|x1 − x0|, |y1 − y0|) + 1` points, from its first end point to its last, each at most 1 away from the one
before on each axis. -/
def Obligations.LinePointsCount : Prop :=
  ∀ x0 y0 x1 y1 : Int,
    (linePoints x0 y0 x1 y1).length = max (x1 - x0).natAbs (y1 - y0).natAbs + 1 ∧
    (linePoints x0 y0 x1 y1).head? = some (x0, y0) ∧ (linePoints x0 y0 x1 y1).getLast? = some (x1, y1) ∧
    (∀ (k : Nat) (p q : Int × Int), (linePoints x0 y0 x1 y1)[k]? = some p → (linePoints x0 y0 x1 y1)[k + 1]? = some q →
      (q.1 - p.1).natAbs ≤ 1 ∧ (q.2 - p.2).natAbs ≤ 1) ∧
    let dx : Int := (x1 - x0).natAbs
    let dy : Int := -(y1 - y0).natAbs
    ∃ err : Nat → Int, err 0 = dx + dy ∧
      ∀ (k : Nat) (x y : Int), (linePoints x0 y0 x1 y1)[k]? = some (x, y) →
        err (k + 1) = err k + (if 2 * err k ≥ dy then dy else 0) + (if 2 * err k ≤ dx then dx else 0) ∧
        (linePoints x0 y0 x1 y1)[k + 1]? =
          if (2 * err k ≥ dy ∧ x = x1) ∨ (2 * err k ≤ dx ∧ y = y1) then none
          else some
            (if 2 * err k ≥ dy then (if x0 < x1 then x + 1 else x - 1) else x,
              if 2 * err k ≤ dx then (if y0 < y1 then y + 1 else y - 1) else y)

/-- R200, R201, R202, R220, R230: DRAW_POINT, DRAW_RECT and DRAW_CIRCLE write their cells one by one in order with
`WritePixel`; the result says whether one was dropped; nothing else changes. -/
def Obligations.RasterCommandsPaintTheirCells : Prop :=
  ∀ (s : State) (color a b c d : Half) (fill : Fill) (style : PointStyle), s.cfgValid = true →
    ∀ (i : Instr) (cells : List (Int × Int)),
      (i = .drawPoint style color a b c ∧ cells = pointCells style a.toNat b.toNat c.toNat) ∨
      (i = .drawRect fill color a b c d ∧ cells = rectCells fill a.toNat b.toNat c.toNat d.toNat) ∨
      (i = .drawCircle fill color a b c ∧ cells = circleCells fill a.toNat b.toNat c.toNat) →
      ∃ t, exec i s = .next t ∧
        (∀ j, t.readFb j = (s.paint (cells.map fun p => (p.1, p.2, color))).readFb j) ∧
        (∀ j, s.fbLen ≤ j → t.readFb j = s.readFb j) ∧
        s.Ended t (s.paintResult (cells.map fun p => (p.1, p.2, color))) ∧ s.SameButDrawing t ∧ s.SameTransport t

/-- R212, R213, R214: DRAW_LINE writes the points of its line in order; solid, every point takes the line's colour;
dotted, every third point, counting from 1, takes `BG`. -/
def Obligations.DrawLineColoursItsPoints : Prop :=
  ∀ (s : State) (style : LineStyle) (color x0 y0 x1 y1 : Half), s.cfgValid = true →
    ∃ (t : State) (ps : List (Int × Int × Half)), exec (.drawLine style color x0 y0 x1 y1) s = .next t ∧
      ps.length = (linePoints x0.toNat y0.toNat x1.toNat y1.toNat).length ∧
      (∀ (k : Nat) (p : Int × Int), (linePoints x0.toNat y0.toNat x1.toNat y1.toNat)[k]? = some p →
        ps[k]? = some (p.1, p.2, if style = .dotted ∧ (k + 1) % 3 = 0 then s.bg else color)) ∧
      (∀ j, t.readFb j = (s.paint ps).readFb j) ∧ (∀ j, s.fbLen ≤ j → t.readFb j = s.readFb j) ∧
      s.Ended t (s.paintResult ps) ∧ s.SameButDrawing t ∧ s.SameTransport t

/-- R202, R203, R204, R205: the cells of a point of radius `R` at `(X, Y)`: filled-around, the centred block without
its negative cells; filled-square, the block anchored one unit up-left; each cell once, column by column. -/
def Obligations.PointCells : Prop :=
  ∀ (X Y : Int) (R : Nat),
    (∀ x y : Int, (x, y) ∈ pointCells .around X Y R ↔
      X - (R - 1) ≤ x ∧ x ≤ X + (R - 1) ∧ Y - (R - 1) ≤ y ∧ y ≤ Y + (R - 1) ∧ 0 ≤ x ∧ 0 ≤ y) ∧
    (∀ x y : Int, (x, y) ∈ pointCells .square X Y R ↔
      X - 1 ≤ x ∧ x ≤ X + R - 2 ∧ Y - 1 ≤ y ∧ y ≤ Y + R - 2) ∧
    (∀ style, (pointCells style X Y R).Pairwise fun p q => p.1 < q.1 ∨ (p.1 = q.1 ∧ p.2 < q.2)) ∧
    pointCells .around X Y 0 = [] ∧ pointCells .square X Y 0 = [] ∧
    (0 ≤ X → 0 ≤ Y → pointCells .around X Y 1 = [(X, Y)]) ∧ pointCells .square X Y 1 = [(X - 1, Y - 1)]

/-- R221: the filled rectangle is the rows `YS .. YE − 1`, each over every column between `XS` and `XE` inclusive, each
cell once; with `YE ≤ YS` it is empty. -/
def Obligations.FilledRectCells : Prop :=
  ∀ xs ys xe ye : Int,
    (∀ x y : Int, (x, y) ∈ rectCells .filled xs ys xe ye ↔
      min xs xe ≤ x ∧ x ≤ max xs xe ∧ ys ≤ y ∧ y < ye) ∧
    (rectCells .filled xs ys xe ye).length = (ye - ys).toNat * ((xe - xs).natAbs + 1) ∧
    (ye ≤ ys → rectCells .filled xs ys xe ye = [])

/-- R222: the outline rectangle is four lines that connect its corners, so it covers exactly the cells of its two
end columns and its two end rows. -/
def Obligations.OutlineRectCells : Prop :=
  ∀ xs ys xe ye : Int,
    rectCells .outline xs ys xe ye =
      linePoints xs ys xe ys ++ linePoints xs ys xs ye ++ linePoints xe ye xe ys ++ linePoints xe ye xs ye ∧
    ∀ x y : Int, (x, y) ∈ rectCells .outline xs ys xe ye ↔
      (min xs xe ≤ x ∧ x ≤ max xs xe ∧ (y = ys ∨ y = ye)) ∨ (min ys ye ≤ y ∧ y ≤ max ys ye ∧ (x = xs ∨ x = xe))

/-- R231: the steps of a circle of radius `R`: the first is `(0, R, 3 − 2R)`; each next one follows the error update;
the loop goes on while `x ≤ y` and no longer. For radius 10 they are the eight of the rule. R232, R233: with the `x`
and `y` a step starts with, the outline writes the eight points in the rule's order, and the filled circle the four
spans, each from left to right. -/
def Obligations.CircleStepsFollowRule : Prop :=
  (∀ R : Nat, (circleSteps R)[0]? = some (0, (R : Int), 3 - 2 * (R : Int)) ∧
    ∀ (k : Nat) (x y err : Int), (circleSteps R)[k]? = some (x, y, err) → x ≤ y ∧
      (circleSteps R)[k + 1]? =
        (if err < 0 then (if x + 1 ≤ y then some (x + 1, y, err + 4 * x + 6) else none)
         else if x + 1 ≤ y - 1 then some (x + 1, y - 1, err + 10 + 4 * (x - y)) else none)) ∧
  circleSteps 10 =
    [(0, 10, -17), (1, 10, -11), (2, 10, -1), (3, 10, 13), (4, 9, -5), (5, 9, 17), (6, 8, 11), (7, 7, 13)] ∧
  (∀ (cx cy : Int) (R : Nat), circleCells .outline cx cy R = (circleSteps R).flatMap fun (x, y, _) =>
    [(cx + x, cy + y), (cx - x, cy + y), (cx + x, cy - y), (cx - x, cy - y),
      (cx + y, cy + x), (cx - y, cy + x), (cx + y, cy - x), (cx - y, cy - x)]) ∧
  ∀ (cx cy : Int) (R : Nat), circleCells .filled cx cy R = (circleSteps R).flatMap fun (x, y, _) =>
    (List.range (2 * x + 1).toNat).map (fun (k : Nat) => (cx - x + k, cy + y)) ++
      (List.range (2 * x + 1).toNat).map (fun (k : Nat) => (cx - x + k, cy - y)) ++
      (List.range (2 * y + 1).toNat).map (fun (k : Nat) => (cx - y + k, cy + x)) ++
      (List.range (2 * y + 1).toNat).map (fun (k : Nat) => (cx - y + k, cy - x))

/-- R232, R233: every point of the outline, and every point between two outline points of one row, is a cell of the
filled disc; and the disc has no cell that is not between two outline points of its row. -/
def Obligations.DiscCoversOutline : Prop :=
  ∀ (cx cy : Int) (R : Nat) (x y : Int), (x, y) ∈ circleCells .filled cx cy R ↔
    ∃ x1 x2 : Int, (x1, y) ∈ circleCells .outline cx cy R ∧ (x2, y) ∈ circleCells .outline cx cy R ∧ x1 ≤ x ∧ x ≤ x2

/-! ### Text -/

/-- R242: a text command whose slot does not exist or was never loaded is rejected with UNSUPPORTED and draws
nothing. -/
def Obligations.SlotCheckRejectsText : Prop :=
  ∀ (s : State) (slot : BitVec 4) (fg x y bg16 : Half) (ch digits : Byte) (chars : List Byte) (value : BitVec 64)
    (i : Instr), i = .drawChar slot fg x y ch bg16 ∨ i = .drawString slot fg x y bg16 chars ∨
      i = .drawNumber slot fg x y digits bg16 value →
    slot.toNat ≥ s.params.fontSlots ∨ (s.font slot.toNat).w = 0 →
    ∃ t, exec i s = .next t ∧ s.OnlyStatus t .unsupported

/-- R240, R243, R245, R248, R250: DRAW_CHAR writes the pixels of its glyph in order, the foreground for a 1 bit and
the background for a 0 bit unless that is `TRANSPARENT`; its result says whether the character or a pixel was dropped.
R351: when a byte of that glyph was changed under the command, it writes any colours, in the cells of the glyph only.
R244, R246, R247: a code below 0x20, an origin beyond the Surface or a glyph not wholly inside font memory drops the
whole character: nothing is written and the result is OOB. -/
def Obligations.DrawCharPaintsGlyph : Prop :=
  ∀ (s : State) (slot : BitVec 4) (fg x y bg16 : Half) (ch : Byte), s.cfgValid = true →
    slot.toNat < s.params.fontSlots → (s.font slot.toNat).w ≠ 0 →
    (∃ t ps, exec (.drawChar slot fg x y ch bg16) s = .next t ∧
      s.CharDraws (s.font slot.toNat) x.toNat y.toNat ch fg bg16 ps ∧
      (∀ j, t.readFb j = (s.paint ps).readFb j) ∧ (∀ j, s.fbLen ≤ j → t.readFb j = s.readFb j) ∧
      s.Ended t (s.textResult (s.font slot.toNat) [((x.toNat : Int), (y.toNat : Int), ch)] ps) ∧
      s.SameButDrawing t ∧ s.SameTransport t) ∧
    (s.CharDropped (s.font slot.toNat) x.toNat y.toNat ch →
      ∃ t, exec (.drawChar slot fg x y ch bg16) s = .next t ∧ s.OnlyStatus t .oob)

/-- R255: DRAW_STRING writes the glyphs of its characters in order, each where the cursor puts it (`CursorStaysInside`
says where); a glyph that was changed under the command is written in its own cells only (R351); the result says
whether a character or a pixel was dropped. -/
def Obligations.DrawStringPaintsItsGlyphs : Prop :=
  ∀ (s : State) (slot : BitVec 4) (fg x y bg16 : Half) (chars : List Byte), s.cfgValid = true →
    slot.toNat < s.params.fontSlots → (s.font slot.toNat).w ≠ 0 →
    let path := cursorPath s (s.font slot.toNat) x.toNat y.toNat ((x.toNat : Int), (y.toNat : Int)) chars
    ∃ t pss, exec (.drawString slot fg x y bg16 chars) s = .next t ∧
      List.Forall₂ (fun p ps => s.CharDraws (s.font slot.toNat) p.1 p.2.1 p.2.2 fg bg16 ps) path pss ∧
      (∀ j, t.readFb j = (s.paint pss.flatten).readFb j) ∧ (∀ j, s.fbLen ≤ j → t.readFb j = s.readFb j) ∧
      s.Ended t (s.textResult (s.font slot.toNat) path pss.flatten) ∧ s.SameButDrawing t ∧ s.SameTransport t

/-- R255, R256, R257: where the cursor puts each character of a string. From `(px, py)`, the command's own place or
right after the character before, the character stands there when its glyph fits; at the start column of the next line
when it would pass the right edge; and at the command's own place when the line it comes to passes the bottom edge. So
every character stands inside the Surface or at the command's own column or place. -/
def Obligations.CursorStaysInside : Prop :=
  ∀ (s : State) (f : Font) (X Y : Int) (chars : List Byte),
    let path := cursorPath s f X Y (X, Y) chars
    path.map (fun p => p.2.2) = chars ∧
    (∀ (k : Nat) (px py x y : Int) (ch : Byte),
      (k = 0 ∧ (px, py) = (X, Y)) ∨
        (∃ p, 0 < k ∧ path[k - 1]? = some p ∧ (px, py) = (p.1 + f.w.toNat, p.2.1)) →
      path[k]? = some (x, y, ch) →
      (px + f.w.toNat ≤ s.width → py + f.h.toNat ≤ s.height → (x, y) = (px, py)) ∧
      (px + f.w.toNat > s.width → py + f.h.toNat + f.h.toNat ≤ s.height → (x, y) = (X, py + f.h.toNat)) ∧
      (px + f.w.toNat ≤ s.width → py + f.h.toNat > s.height → (x, y) = (X, Y)) ∧
      (px + f.w.toNat > s.width → py + f.h.toNat + f.h.toNat > s.height → (x, y) = (X, Y))) ∧
    ∀ p ∈ path, (p.1 = X ∨ p.1 + f.w.toNat ≤ s.width) ∧ ((p.1 = X ∧ p.2.1 = Y) ∨ p.2.1 + f.h.toNat ≤ s.height)

/-- R262, R263, R307: with a loaded slot, DRAW_NUMBER is rejected with RESOURCE when the value is an infinity or a NaN
or its string is longer than 255 characters; otherwise it does what DRAW_STRING does with its string. -/
def Obligations.DrawNumberDrawsItsString : Prop :=
  ∀ (s : State) (slot : BitVec 4) (fg x y bg16 : Half) (digits : Byte) (value : BitVec 64), s.cfgValid = true →
    slot.toNat < s.params.fontSlots → (s.font slot.toNat).w ≠ 0 →
    ((value.extractLsb' 52 11 = 0x7FF ∨ (numberChars value digits.toNat).length > 255) →
      ∃ t, exec (.drawNumber slot fg x y digits bg16 value) s = .next t ∧ s.OnlyStatus t .resource) ∧
    (value.extractLsb' 52 11 ≠ 0x7FF → (numberChars value digits.toNat).length ≤ 255 →
      ∃ t, exec (.drawNumber slot fg x y digits bg16 value) s = .next t ∧
        exec (.drawString slot fg x y bg16 (numberChars value digits.toNat)) s = .next t ∧
        s.SameButDrawing t ∧ s.SameTransport t)

/-- R260: the decimal digits of a number read back to it, are digits, and have no leading zero; the string of a number
is an optional sign, the digits of its integer part and, for `d > 0` fractional digits, a point and exactly `d`
digits, those of the scaled fraction modulo 10 to the `d`. R113: the magnitude of a finite value is the number its
encoding stands for; its integer part is the floor of that, its fraction the rest, and the scaling multiplies by ten
and rounds, `d` times. -/
def Obligations.NumberDigits : Prop :=
  (∀ n : Nat, (decimal n).foldl (fun a c => a * 10 + (c.toNat - 0x30)) 0 = n ∧
    (∀ c ∈ decimal n, 0x30 ≤ c.toNat ∧ c.toNat ≤ 0x39) ∧ ((decimal n).head? = some 0x30 → decimal n = [0x30])) ∧
  (∀ (v : BitVec 64) (d : Nat), ∃ sign frac : List Byte,
    numberChars v d = sign ++ decimal (truncate (magnitude v)) ++ frac ∧
    (sign = [0x2D] ∨ sign = []) ∧
    (sign = [0x2D] ↔ v.getLsbD 63 = true ∧ (magnitude v).sig ≠ 0) ∧
    (d = 0 → frac = []) ∧
    (0 < d → ∃ ds, frac = 0x2E :: ds ∧ ds.length = d ∧ (∀ c ∈ ds, 0x30 ≤ c.toNat ∧ c.toNat ≤ 0x39) ∧
      ds.foldl (fun a c => a * 10 + (c.toNat - 0x30)) 0 =
        truncate (timesTenRepeat d (fractionPart (magnitude v))) % 10 ^ d)) ∧
  (∀ v : BitVec 64, v.extractLsb' 52 11 ≠ 0x7FF → (magnitude v).value =
    if v.extractLsb' 52 11 = 0 then ((v.extractLsb' 0 52).toNat : ℚ) * 2 ^ (-1074 : ℤ)
    else (1 + ((v.extractLsb' 0 52).toNat : ℚ) / 2 ^ (52 : ℤ)) * 2 ^ (((v.extractLsb' 52 11).toNat : ℤ) - 1023)) ∧
  ∀ a : BinReal, (truncate a : ℤ) = ⌊a.value⌋ ∧ (fractionPart a).value = a.value - truncate a ∧
    timesTenRepeat 0 a = a ∧
    ∀ d : Nat, ∃ b : BinReal, b.value = 10 * a.value ∧
      timesTenRepeat (d + 1) a = timesTenRepeat d (roundNearestEven b)

/-- R260 (`RNE64`): the rounding gives a binary64 significand and exponent, the nearest to the number, the even one of
two that are equally near: it drops low bits only of a number of more than 53, and then keeps 53, or down to 2 to the
-1074. -/
def Obligations.RoundNearestEven : Prop :=
  ∀ a : BinReal, ∃ k : Nat, (roundNearestEven a).exp = a.exp + k ∧ (roundNearestEven a).sig ≤ 2 ^ 53 ∧
    -1074 ≤ (roundNearestEven a).exp ∧
    (k = 0 ∨ (roundNearestEven a).exp = -1074 ∨ 2 ^ 52 * 2 ^ k ≤ a.sig) ∧
    2 * (roundNearestEven a).sig * 2 ^ k ≤ 2 * a.sig + 2 ^ k ∧
    2 * a.sig ≤ 2 * (roundNearestEven a).sig * 2 ^ k + 2 ^ k ∧
    ((2 * (roundNearestEven a).sig * 2 ^ k = 2 * a.sig + 2 ^ k ∨
      2 * a.sig = 2 * (roundNearestEven a).sig * 2 ^ k + 2 ^ k) → (roundNearestEven a).sig % 2 = 0)

/-! ### The frame serializer -/

/-- R88, R282, R283: when the transport accepts every token, PUSH_FRAME delivers the whole frame in order, as many
tokens as `HM * (1 + 3 * STRIDE)`, each data byte reversed, and ends OK; it writes no register and no byte. R281: bit
`i` of a reversed byte is bit `7 − i` of the byte. -/
def Obligations.PushFrameSendsFrame : Prop :=
  (∀ (v : Byte) (i : Nat), i < 8 → (rev8 v).getLsbD i = v.getLsbD (7 - i)) ∧
  ∀ (s : State) (rest : List Answer), s.cfgValid = true →
    s.answers = List.replicate s.frameTokens.length .accepted ++ rest →
    s.frameTokens.length = s.hm.toNat * (1 + 3 * s.stride) ∧
    ∃ t, exec .pushFrame s = .next t ∧ t.tokens = s.tokens ++ s.frameTokens ∧ t.answers = rest ∧ s.SameFb t ∧
      s.SameButDrawing t ∧ s.Ended t .ok

/-- R284: when the transport answers error to a token, the frame stops at once: the tokens before it stay delivered,
no later one is offered, and the command ends with TRANSPORT and `S_XFER`. -/
def Obligations.PushFrameStopsAtError : Prop :=
  ∀ (s : State) (before later : List Token) (tok : Token) (rest : List Answer), s.cfgValid = true →
    s.frameTokens = before ++ tok :: later → s.answers = List.replicate before.length .accepted ++ .error :: rest →
    ∃ t, exec .pushFrame s = .next t ∧ t.tokens = s.tokens ++ before ∧ t.answers = rest ∧ t.offered = none ∧
      t.sXfer = true ∧ s.SameFb t ∧ s.SameButDrawing t ∧ s.Ended t .transport

/-- R280, R285: when the transport does not answer a token, the engine waits with it offered: it stays in `EXEC` and
busy, takes no other command, and a step changes nothing; when the answers come, the frame goes on from that
token. R317: an answer that arrives joins those not taken yet, behind them, and changes nothing else. -/
def Obligations.PushFrameWaitsForAnswer : Prop :=
  (∀ (s : State) (a : Answer) (rest : List Input), s.nextInput = some (.answer a, rest) →
    step s = .next { s with answers := s.answers ++ [a], inputs := rest }) ∧
  ∀ (s : State) (before later : List Token) (tok : Token), s.cfgValid = true → s.inputs = [] →
    s.frameTokens = before ++ tok :: later → s.answers = List.replicate before.length .accepted →
    ∃ t, exec .pushFrame s = .next t ∧ t.tokens = s.tokens ++ before ∧ t.offered = some tok ∧ t.mode = .exec ∧
      t.busy = true ∧ t.result = s.result ∧ t.sticky = s.sticky ∧ s.SameFb t ∧ s.SameButDrawing t ∧
      step t = .next t ∧
      ∃ u, step { t with answers := List.replicate (later.length + 1) .accepted } = .next u ∧
        u.tokens = s.tokens ++ s.frameTokens ∧ s.SameFb u ∧ s.Ended u .ok

/-! ### Status, resets and the host's registers -/

/-- R44: the fields of `STATUS` as the host reads it. -/
def Obligations.StatusFields : Prop :=
  ∀ s : State,
    (s.statusWord.extractLsb' 0 3).toNat =
      (match s.result with
        | .ok => 0 | .oob => 1 | .unsupported => 2 | .resource => 3 | .transport => 4 | .illegal => 5) ∧
    s.statusWord.extractLsb' 3 5 = 0 ∧ s.statusWord.getLsbD 8 = s.sOob ∧ s.statusWord.getLsbD 9 = s.sUnsup ∧
    s.statusWord.getLsbD 10 = s.sRes ∧ s.statusWord.getLsbD 11 = s.sXfer ∧ s.statusWord.getLsbD 12 = s.sIllegal ∧
    s.statusWord.extractLsb' 13 3 = 0 ∧
    (s.statusWord.getLsbD 16 = true ↔ s.mode = .exec ∨ s.fifo ≠ []) ∧
    (s.statusWord.getLsbD 17 = true ↔ s.mode = .halted) ∧ s.statusWord.getLsbD 18 = s.cfgValid ∧
    s.statusWord.extractLsb' 19 13 = 0

/-- R45: a sticky bit that a step clears was cleared by a host write of 1 to it, by a soft reset or by a hard reset;
a step that changes `RESULT` is a reset or ran the engine, and one that ran the engine to a result other than OK has
set that result's sticky bit. -/
def Obligations.StickyBitsRule : Prop :=
  ∀ s t : State, step s = .next t →
    let reset := (∃ v rest, s.nextInput = some (.hostWrite 4 0x08 v, rest) ∧ v.getLsbD 0 = true) ∨
      ∃ rest, s.nextInput = some (.hardReset, rest)
    let engine := s.nextInput = none ∨ ∃ n rest, s.nextInput = some (.ticks n, rest)
    (∀ j, s.sticky.getLsbD j = true → t.sticky.getLsbD j = false →
      reset ∨ ∃ v rest, s.nextInput = some (.hostWrite 4 0x04 v, rest) ∧ v.getLsbD (8 + j) = true) ∧
    (t.result ≠ s.result → reset ∨ engine) ∧
    (engine → t.result ≠ s.result → t.sticky &&& t.result.stickyMask = t.result.stickyMask)

/-- R46, R342: a host write of 1 to `CTRL.SOFT_RESET` aborts the running command, empties the FIFO, clears `RESULT`
and the sticky bits and leaves the engine idle; it keeps the Surface registers, every framebuffer byte, the font table
and `FB_INDEX`. A write with bit 0 clear does nothing. While the host interface holds a word for `CMD` the write waits
(R355). -/
def Obligations.SoftReset : Prop :=
  (∀ (s : State) (v : Word) (rest : List Input), s.nextInput = some (.hostWrite 4 0x08 v, rest) →
    s.held = none ∧
    (v.getLsbD 0 = true → ∃ t, step s = .next t ∧ s.Aborted t ∧ t.statusWord.extractLsb' 0 18 = 0 ∧ s.SameFb t ∧
      s.SameTransport t ∧ t.params = s.params ∧ t.inputs = rest) ∧
    (v.getLsbD 0 = false → step s = .next { s with inputs := rest })) ∧
  ∀ (s : State) (v w : Word) (rest : List Input), s.held = some w → s.inputs = .hostWrite 4 0x08 v :: rest →
    ∀ t, step s = .next t → ∃ rest', t.inputs = .hostWrite 4 0x08 v :: rest'

/-- R340: a hard reset puts every piece of state at its reset value, a word that the host interface held is gone too,
and font memory is not changed. -/
def Obligations.HardReset : Prop :=
  ∀ (s : State) (rest : List Input), s.nextInput = some (.hardReset, rest) →
    ∃ t, step s = .next t ∧ t.cfgValid = false ∧ t.wm = 0 ∧ t.hm = 0 ∧ t.rot = 0 ∧ t.bg = 0 ∧ t.depth = 1 ∧
      t.mirror = 0 ∧ t.fbEpoch = s.fbEpoch + 1 ∧ (∀ i, t.readFb i = Config.fbUnspecified t.fbEpoch i) ∧
      t.fonts = List.replicate s.params.fontSlots { base := 0, w := 0, h := 0 } ∧ t.statusWord = 0 ∧
      t.fbIndex = 0 ∧ t.fifo = [] ∧ t.held = none ∧ t.mode = .idle ∧ t.current = [] ∧ t.work = none ∧
      t.offered = none ∧ t.fontMem = s.fontMem ∧ t.params = s.params ∧ t.inputs = rest

/-- R49, R75, R80: a host write to `CMD` puts its word at the end of the FIFO, or, while `CMD_FIFO_DEPTH` words are in
it, at the host interface, which holds it; nothing else changes. A write to `STATUS` clears exactly the sticky bits
written as 1 (R44, R45). A write to `FB_INDEX` sets it. Writes to an offset that is none of the four writable ones
change nothing. -/
def Obligations.HostWrites : Prop :=
  ∀ (s : State) (v : Word) (off : Nat) (rest : List Input), s.nextInput = some (.hostWrite 4 off v, rest) →
    (off = 0x00 → s.mode ≠ .halted →
      (s.fifo.length < s.params.fifoDepth → step s = .next { s with fifo := s.fifo ++ [v], inputs := rest }) ∧
      (s.params.fifoDepth ≤ s.fifo.length → step s = .next { s with held := some v, inputs := rest })) ∧
    (off = 0x04 → ∃ t, step s = .next t ∧
      (∀ j, j < 5 → t.sticky.getLsbD j = (s.sticky.getLsbD j && !v.getLsbD (8 + j))) ∧
      t = { s with sticky := t.sticky, inputs := rest }) ∧
    (off = 0x0C → step s = .next { s with fbIndex := v, inputs := rest }) ∧
    (off < 0x100 → off % 4 = 0 → off ≠ 0x00 → off ≠ 0x04 → off ≠ 0x08 → off ≠ 0x0C →
      step s = .next { s with inputs := rest })

/-- R70, R75: an access outside the window is a fault; inside it, one that is not 32 bits wide and aligned is
refused; any other is answered. -/
def Obligations.HostAccessForm : Prop :=
  ∀ (s : State) (size off : Nat) (v : Word) (inp : Input) (rest : List Input), s.nextInput = some (inp, rest) →
    inp = .hostRead size off ∨ inp = .hostWrite size off v →
    (0x100 ≤ off → step s = .fault .hostOffsetOutsideWindow) ∧
    (off < 0x100 → size ≠ 4 ∨ off % 4 ≠ 0 → step s = .refused .hostAccessForm) ∧
    (off < 0x100 → size = 4 → off % 4 = 0 → ∃ t, step s = .next t)

/-- R75, R80: what each register reads as while the engine is not busy; `FB_DATA` returns the byte `FB_INDEX` selects,
or 0 when that is not below `FB_LEN`, and `FB_INDEX` does not advance (R76). A read changes nothing but the read port
(the model's own) and the choice of free values. While it is busy, a Surface or font register reads as after some
number of the commands written so far, a free value (R350, log entry 9). -/
def Obligations.HostReads : Prop :=
  ∀ (s : State) (off : Nat) (rest : List Input), s.nextInput = some (.hostRead 4 off, rest) → off < 0x100 →
    off % 4 = 0 → s.fonts.length = s.params.fontSlots → s.params.fontSlots ≤ 16 →
    ∃ t, step s = .next t ∧ t = { s with inputs := rest, readData := t.readData, freeCtr := t.freeCtr } ∧
      (off = 0x00 ∨ off = 0x08 → t.readData = 0) ∧
      (off = 0x04 → t.readData = s.statusWord) ∧
      (off = 0x0C → t.readData = s.fbIndex) ∧
      (off = 0x2C → t.readData = BitVec.ofNat 32 s.params.fbCapacity) ∧
      (off = 0x30 → t.readData.toNat = s.params.fontSlots) ∧
      (off = 0x34 ∨ off = 0x38 ∨ off = 0x3C ∨ 0xC0 ≤ off → t.readData = 0) ∧
      (s.busy = false →
        (off = 0x10 → (s.fbIndex.toNat < s.fbLen → t.readData.toNat = (s.readFb s.fbIndex.toNat).toNat) ∧
          (s.fbLen ≤ s.fbIndex.toNat → t.readData = 0)) ∧
        s.ShowsConfig off t.readData) ∧
      (s.busy = true → off = 0x14 ∨ off = 0x18 ∨ off = 0x1C ∨ off = 0x20 ∨ off = 0x24 ∨ off = 0x28 ∨
        (0x40 ≤ off ∧ off < 0xC0) →
        ∃ u, AfterCommands (Config.streamPoint s.freeCtr) (s.current ++ (s.fifo ++ s.held.toList)) s u ∧
          u.ShowsConfig off t.readData)

/-- R49, R355: while the host interface holds a word, no access of the host reaches the block: what comes from outside
is the first thing that is none, the accesses before it keep their order, and with accesses only the engine goes on.
When the engine takes words, the held one is among them or in the FIFO after those that are left, and the host goes on
(an illegal header discards it with the others, log entry 8); until then a PUSH_FRAME that waits for its answer keeps
the host waiting. That the stall covers every access of the host, not only its writes to `CMD`, is DEDUCED, log entry
7. -/
def Obligations.HostStalls : Prop :=
  ∀ s : State,
    (s.held = none → s.nextInput = match s.inputs with | [] => none | inp :: rest => some (inp, rest)) ∧
    (∀ (w : Word) (waiting : List Input), s.held = some w → (∀ a ∈ waiting, a.FromHost) →
      (s.inputs = waiting → s.nextInput = none ∧ step s = engineStep s ∧
        (s.work = none → ∀ t, step s = .next t → t.held = none ∧ t.inputs = waiting ∧
          (s.mode ≠ .halted →
            (∀ i rest, decode (s.current ++ (s.fifo ++ [w])) = .command i rest → t.fifo = rest) ∧
            (decode (s.current ++ (s.fifo ++ [w])) = .incomplete →
              t.fifo = [] ∧ t.current = s.current ++ (s.fifo ++ [w]))))) ∧
      ∀ (inp : Input) (rest : List Input), ¬ inp.FromHost → s.inputs = waiting ++ inp :: rest →
        s.nextInput = some (inp, waiting ++ rest)) ∧
    (∀ w : Word, s.held = some w → s.mode ≠ .halted → s.work = none →
      (tick s).held = none ∧ (tick s).inputs = s.inputs ∧
        ∀ (v : Word) (fs : List Word), s.fifo = v :: fs → (∀ e, decode (s.current ++ [v]) ≠ .illegal e) →
          (tick s).fifo = fs ++ [w]) ∧
    ∀ (e : Emission) (ms : List Micro), s.nextInput = none → s.mode = .exec → s.work = some (.emit e :: ms) →
      s.answers = [] → s.offered = some (s.tokenOf e) → step s = .next s

/-- R351 (with log entry 10): what the running text command has done is its whole work (R245) without what is left,
which is always the end of it (`StepKeepsInvariant`), and nothing that any other command has done comes from font
memory. The platform's write of a font memory byte changes that byte and nothing the spec names but pixels: when no word
is queued or the byte keeps its value, nothing else. Otherwise the change is noted for the commands that are queued or
running, and, where the running command has drawn the glyph, what it has drawn is drawn again, the pixels of changed
glyphs in any colour, in their own cells only. -/
def Obligations.FontByteInput : Prop :=
  (∀ s : State, (s.work = none → s.workDone = []) ∧
    (∀ all done left, s.RunsText all → s.work = some left → all = done ++ left → s.workDone = done) ∧
    ((∀ all, ¬ s.RunsText all) → ∀ a, ∀ m ∈ s.workDone, ¬ m.DrawnFrom a)) ∧
  ∀ (s : State) (a : Nat) (v : Byte) (rest : List Input), s.nextInput = some (.fontByte a v, rest) →
    (s.fontMem.length ≤ a ∨ s.fontMem.getD a 0 = v → step s = .next { s with inputs := rest }) ∧
    (a < s.fontMem.length → s.fontMem.getD a 0 ≠ v →
      let queued := (s.current ++ (s.fifo ++ s.held.toList)).length
      let noted := { s with
        fontMem := s.fontMem.set a v
        fontChanges := { addr := a, queued := queued } :: s.fontChanges
        inputs := rest }
      (queued = 0 → step s = .next { s with fontMem := s.fontMem.set a v, inputs := rest }) ∧
      (queued ≠ 0 → (∀ m ∈ s.workDone, ¬ m.DrawnFrom a) → step s = .next noted) ∧
      (queued ≠ 0 → (∃ m ∈ s.workDone, m.DrawnFrom a) → ∃ t pss, step s = .next t ∧
        noted.PiecesDraw s.workDone pss ∧ (∀ j, t.readFb j = (s.paint pss.flatten).readFb j) ∧
        (∀ j, s.fbLen ≤ j → t.readFb j = s.readFb j) ∧
        (t.dropped = true ↔
          .dropChar ∈ s.workDone ∨ ∃ q ∈ pss.flatten, s.pixelOutcome q.1 q.2.1 = .dropped) ∧
        t = { noted with fb := t.fb, dropped := t.dropped, freeCtr := t.freeCtr }))
end

