-- ==== Sys2Proof/Laws/State.lean ====
section
/-! SUPPORT. For each update of the state, what each field is after it: one lemma a field, true by definition. -/

namespace Sys2Proof.Machine

variable (s : State)

/-! ### `writeFb` -/

@[simp] theorem writeFb_params (i : Nat) (v : Byte) : (s.writeFb i v).params = s.params := rfl
@[simp] theorem writeFb_wm (i : Nat) (v : Byte) : (s.writeFb i v).wm = s.wm := rfl
@[simp] theorem writeFb_hm (i : Nat) (v : Byte) : (s.writeFb i v).hm = s.hm := rfl
@[simp] theorem writeFb_rot (i : Nat) (v : Byte) : (s.writeFb i v).rot = s.rot := rfl
@[simp] theorem writeFb_mirror (i : Nat) (v : Byte) : (s.writeFb i v).mirror = s.mirror := rfl
@[simp] theorem writeFb_depth (i : Nat) (v : Byte) : (s.writeFb i v).depth = s.depth := rfl
@[simp] theorem writeFb_bg (i : Nat) (v : Byte) : (s.writeFb i v).bg = s.bg := rfl
@[simp] theorem writeFb_cfgValid (i : Nat) (v : Byte) : (s.writeFb i v).cfgValid = s.cfgValid := rfl
@[simp] theorem writeFb_fb (i : Nat) (v : Byte) : (s.writeFb i v).fb = Memory.insert s.fb i v := rfl
@[simp] theorem writeFb_fbEpoch (i : Nat) (v : Byte) : (s.writeFb i v).fbEpoch = s.fbEpoch := rfl
@[simp] theorem writeFb_fontMem (i : Nat) (v : Byte) : (s.writeFb i v).fontMem = s.fontMem := rfl
@[simp] theorem writeFb_fonts (i : Nat) (v : Byte) : (s.writeFb i v).fonts = s.fonts := rfl
@[simp] theorem writeFb_result (i : Nat) (v : Byte) : (s.writeFb i v).result = s.result := rfl
@[simp] theorem writeFb_sticky (i : Nat) (v : Byte) : (s.writeFb i v).sticky = s.sticky := rfl
@[simp] theorem writeFb_fbIndex (i : Nat) (v : Byte) : (s.writeFb i v).fbIndex = s.fbIndex := rfl
@[simp] theorem writeFb_mode (i : Nat) (v : Byte) : (s.writeFb i v).mode = s.mode := rfl
@[simp] theorem writeFb_fifo (i : Nat) (v : Byte) : (s.writeFb i v).fifo = s.fifo := rfl
@[simp] theorem writeFb_held (i : Nat) (v : Byte) : (s.writeFb i v).held = s.held := rfl
@[simp] theorem writeFb_current (i : Nat) (v : Byte) : (s.writeFb i v).current = s.current := rfl
@[simp] theorem writeFb_work (i : Nat) (v : Byte) : (s.writeFb i v).work = s.work := rfl
@[simp] theorem writeFb_dropped (i : Nat) (v : Byte) : (s.writeFb i v).dropped = s.dropped := rfl
@[simp] theorem writeFb_offered (i : Nat) (v : Byte) : (s.writeFb i v).offered = s.offered := rfl
@[simp] theorem writeFb_tokens (i : Nat) (v : Byte) : (s.writeFb i v).tokens = s.tokens := rfl
@[simp] theorem writeFb_answers (i : Nat) (v : Byte) : (s.writeFb i v).answers = s.answers := rfl
@[simp] theorem writeFb_readData (i : Nat) (v : Byte) : (s.writeFb i v).readData = s.readData := rfl
@[simp] theorem writeFb_freeCtr (i : Nat) (v : Byte) : (s.writeFb i v).freeCtr = s.freeCtr := rfl
@[simp] theorem writeFb_fontChanges (i : Nat) (v : Byte) : (s.writeFb i v).fontChanges = s.fontChanges := rfl
@[simp] theorem writeFb_inputs (i : Nat) (v : Byte) : (s.writeFb i v).inputs = s.inputs := rfl

/-! ### `forgetFb` -/

@[simp] theorem forgetFb_params : (s.forgetFb).params = s.params := rfl
@[simp] theorem forgetFb_wm : (s.forgetFb).wm = s.wm := rfl
@[simp] theorem forgetFb_hm : (s.forgetFb).hm = s.hm := rfl
@[simp] theorem forgetFb_rot : (s.forgetFb).rot = s.rot := rfl
@[simp] theorem forgetFb_mirror : (s.forgetFb).mirror = s.mirror := rfl
@[simp] theorem forgetFb_depth : (s.forgetFb).depth = s.depth := rfl
@[simp] theorem forgetFb_bg : (s.forgetFb).bg = s.bg := rfl
@[simp] theorem forgetFb_cfgValid : (s.forgetFb).cfgValid = s.cfgValid := rfl
@[simp] theorem forgetFb_fb : (s.forgetFb).fb = [] := rfl
@[simp] theorem forgetFb_fbEpoch : (s.forgetFb).fbEpoch = s.fbEpoch + 1 := rfl
@[simp] theorem forgetFb_fontMem : (s.forgetFb).fontMem = s.fontMem := rfl
@[simp] theorem forgetFb_fonts : (s.forgetFb).fonts = s.fonts := rfl
@[simp] theorem forgetFb_result : (s.forgetFb).result = s.result := rfl
@[simp] theorem forgetFb_sticky : (s.forgetFb).sticky = s.sticky := rfl
@[simp] theorem forgetFb_fbIndex : (s.forgetFb).fbIndex = s.fbIndex := rfl
@[simp] theorem forgetFb_mode : (s.forgetFb).mode = s.mode := rfl
@[simp] theorem forgetFb_fifo : (s.forgetFb).fifo = s.fifo := rfl
@[simp] theorem forgetFb_held : (s.forgetFb).held = s.held := rfl
@[simp] theorem forgetFb_current : (s.forgetFb).current = s.current := rfl
@[simp] theorem forgetFb_work : (s.forgetFb).work = s.work := rfl
@[simp] theorem forgetFb_dropped : (s.forgetFb).dropped = s.dropped := rfl
@[simp] theorem forgetFb_offered : (s.forgetFb).offered = s.offered := rfl
@[simp] theorem forgetFb_tokens : (s.forgetFb).tokens = s.tokens := rfl
@[simp] theorem forgetFb_answers : (s.forgetFb).answers = s.answers := rfl
@[simp] theorem forgetFb_readData : (s.forgetFb).readData = s.readData := rfl
@[simp] theorem forgetFb_freeCtr : (s.forgetFb).freeCtr = s.freeCtr := rfl
@[simp] theorem forgetFb_fontChanges : (s.forgetFb).fontChanges = s.fontChanges := rfl
@[simp] theorem forgetFb_inputs : (s.forgetFb).inputs = s.inputs := rfl

/-! ### `setResult` -/

@[simp] theorem setResult_params (c : Result) : (s.setResult c).params = s.params := rfl
@[simp] theorem setResult_wm (c : Result) : (s.setResult c).wm = s.wm := rfl
@[simp] theorem setResult_hm (c : Result) : (s.setResult c).hm = s.hm := rfl
@[simp] theorem setResult_rot (c : Result) : (s.setResult c).rot = s.rot := rfl
@[simp] theorem setResult_mirror (c : Result) : (s.setResult c).mirror = s.mirror := rfl
@[simp] theorem setResult_depth (c : Result) : (s.setResult c).depth = s.depth := rfl
@[simp] theorem setResult_bg (c : Result) : (s.setResult c).bg = s.bg := rfl
@[simp] theorem setResult_cfgValid (c : Result) : (s.setResult c).cfgValid = s.cfgValid := rfl
@[simp] theorem setResult_fb (c : Result) : (s.setResult c).fb = s.fb := rfl
@[simp] theorem setResult_fbEpoch (c : Result) : (s.setResult c).fbEpoch = s.fbEpoch := rfl
@[simp] theorem setResult_fontMem (c : Result) : (s.setResult c).fontMem = s.fontMem := rfl
@[simp] theorem setResult_fonts (c : Result) : (s.setResult c).fonts = s.fonts := rfl
@[simp] theorem setResult_result (c : Result) : (s.setResult c).result = c := rfl
@[simp] theorem setResult_sticky (c : Result) : (s.setResult c).sticky = s.sticky ||| c.stickyMask := rfl
@[simp] theorem setResult_fbIndex (c : Result) : (s.setResult c).fbIndex = s.fbIndex := rfl
@[simp] theorem setResult_mode (c : Result) : (s.setResult c).mode = s.mode := rfl
@[simp] theorem setResult_fifo (c : Result) : (s.setResult c).fifo = s.fifo := rfl
@[simp] theorem setResult_held (c : Result) : (s.setResult c).held = s.held := rfl
@[simp] theorem setResult_current (c : Result) : (s.setResult c).current = s.current := rfl
@[simp] theorem setResult_work (c : Result) : (s.setResult c).work = s.work := rfl
@[simp] theorem setResult_dropped (c : Result) : (s.setResult c).dropped = s.dropped := rfl
@[simp] theorem setResult_offered (c : Result) : (s.setResult c).offered = s.offered := rfl
@[simp] theorem setResult_tokens (c : Result) : (s.setResult c).tokens = s.tokens := rfl
@[simp] theorem setResult_answers (c : Result) : (s.setResult c).answers = s.answers := rfl
@[simp] theorem setResult_readData (c : Result) : (s.setResult c).readData = s.readData := rfl
@[simp] theorem setResult_freeCtr (c : Result) : (s.setResult c).freeCtr = s.freeCtr := rfl
@[simp] theorem setResult_fontChanges (c : Result) : (s.setResult c).fontChanges = s.fontChanges := rfl
@[simp] theorem setResult_inputs (c : Result) : (s.setResult c).inputs = s.inputs := rfl

/-! ### `complete` -/

@[simp] theorem complete_params (c : Result) : (s.complete c).params = s.params := rfl
@[simp] theorem complete_wm (c : Result) : (s.complete c).wm = s.wm := rfl
@[simp] theorem complete_hm (c : Result) : (s.complete c).hm = s.hm := rfl
@[simp] theorem complete_rot (c : Result) : (s.complete c).rot = s.rot := rfl
@[simp] theorem complete_mirror (c : Result) : (s.complete c).mirror = s.mirror := rfl
@[simp] theorem complete_depth (c : Result) : (s.complete c).depth = s.depth := rfl
@[simp] theorem complete_bg (c : Result) : (s.complete c).bg = s.bg := rfl
@[simp] theorem complete_cfgValid (c : Result) : (s.complete c).cfgValid = s.cfgValid := rfl
@[simp] theorem complete_fb (c : Result) : (s.complete c).fb = s.fb := rfl
@[simp] theorem complete_fbEpoch (c : Result) : (s.complete c).fbEpoch = s.fbEpoch := rfl
@[simp] theorem complete_fontMem (c : Result) : (s.complete c).fontMem = s.fontMem := rfl
@[simp] theorem complete_fonts (c : Result) : (s.complete c).fonts = s.fonts := rfl
@[simp] theorem complete_result (c : Result) : (s.complete c).result = c := rfl
@[simp] theorem complete_sticky (c : Result) : (s.complete c).sticky = s.sticky ||| c.stickyMask := rfl
@[simp] theorem complete_fbIndex (c : Result) : (s.complete c).fbIndex = s.fbIndex := rfl
@[simp] theorem complete_mode (c : Result) : (s.complete c).mode = .idle := rfl
@[simp] theorem complete_fifo (c : Result) : (s.complete c).fifo = s.fifo := rfl
@[simp] theorem complete_held (c : Result) : (s.complete c).held = s.held := rfl
@[simp] theorem complete_current (c : Result) : (s.complete c).current = [] := rfl
@[simp] theorem complete_work (c : Result) : (s.complete c).work = none := rfl
@[simp] theorem complete_dropped (c : Result) : (s.complete c).dropped = false := rfl
@[simp] theorem complete_offered (c : Result) : (s.complete c).offered = none := rfl
@[simp] theorem complete_tokens (c : Result) : (s.complete c).tokens = s.tokens := rfl
@[simp] theorem complete_answers (c : Result) : (s.complete c).answers = s.answers := rfl
@[simp] theorem complete_readData (c : Result) : (s.complete c).readData = s.readData := rfl
@[simp] theorem complete_freeCtr (c : Result) : (s.complete c).freeCtr = s.freeCtr := rfl
@[simp] theorem complete_fontChanges (c : Result) : (s.complete c).fontChanges = changesAfter s.current.length s.fontChanges := rfl
@[simp] theorem complete_inputs (c : Result) : (s.complete c).inputs = s.inputs := rfl

/-! ### `halt` -/

@[simp] theorem halt_params : (s.halt).params = s.params := rfl
@[simp] theorem halt_wm : (s.halt).wm = s.wm := rfl
@[simp] theorem halt_hm : (s.halt).hm = s.hm := rfl
@[simp] theorem halt_rot : (s.halt).rot = s.rot := rfl
@[simp] theorem halt_mirror : (s.halt).mirror = s.mirror := rfl
@[simp] theorem halt_depth : (s.halt).depth = s.depth := rfl
@[simp] theorem halt_bg : (s.halt).bg = s.bg := rfl
@[simp] theorem halt_cfgValid : (s.halt).cfgValid = s.cfgValid := rfl
@[simp] theorem halt_fb : (s.halt).fb = s.fb := rfl
@[simp] theorem halt_fbEpoch : (s.halt).fbEpoch = s.fbEpoch := rfl
@[simp] theorem halt_fontMem : (s.halt).fontMem = s.fontMem := rfl
@[simp] theorem halt_fonts : (s.halt).fonts = s.fonts := rfl
@[simp] theorem halt_result : (s.halt).result = .illegal := rfl
@[simp] theorem halt_sticky : (s.halt).sticky = s.sticky ||| 16 := rfl
@[simp] theorem halt_fbIndex : (s.halt).fbIndex = s.fbIndex := rfl
@[simp] theorem halt_mode : (s.halt).mode = .halted := rfl
@[simp] theorem halt_fifo : (s.halt).fifo = [] := rfl
@[simp] theorem halt_held : (s.halt).held = none := rfl
@[simp] theorem halt_current : (s.halt).current = [] := rfl
@[simp] theorem halt_work : (s.halt).work = none := rfl
@[simp] theorem halt_dropped : (s.halt).dropped = false := rfl
@[simp] theorem halt_offered : (s.halt).offered = none := rfl
@[simp] theorem halt_tokens : (s.halt).tokens = s.tokens := rfl
@[simp] theorem halt_answers : (s.halt).answers = s.answers := rfl
@[simp] theorem halt_readData : (s.halt).readData = s.readData := rfl
@[simp] theorem halt_freeCtr : (s.halt).freeCtr = s.freeCtr := rfl
@[simp] theorem halt_fontChanges : (s.halt).fontChanges = [] := rfl
@[simp] theorem halt_inputs : (s.halt).inputs = s.inputs := rfl

/-! ### `begin` -/

@[simp] theorem begin_params : (s.begin).params = s.params := rfl
@[simp] theorem begin_wm : (s.begin).wm = s.wm := rfl
@[simp] theorem begin_hm : (s.begin).hm = s.hm := rfl
@[simp] theorem begin_rot : (s.begin).rot = s.rot := rfl
@[simp] theorem begin_mirror : (s.begin).mirror = s.mirror := rfl
@[simp] theorem begin_depth : (s.begin).depth = s.depth := rfl
@[simp] theorem begin_bg : (s.begin).bg = s.bg := rfl
@[simp] theorem begin_cfgValid : (s.begin).cfgValid = s.cfgValid := rfl
@[simp] theorem begin_fb : (s.begin).fb = s.fb := rfl
@[simp] theorem begin_fbEpoch : (s.begin).fbEpoch = s.fbEpoch := rfl
@[simp] theorem begin_fontMem : (s.begin).fontMem = s.fontMem := rfl
@[simp] theorem begin_fonts : (s.begin).fonts = s.fonts := rfl
@[simp] theorem begin_result : (s.begin).result = s.result := rfl
@[simp] theorem begin_sticky : (s.begin).sticky = s.sticky := rfl
@[simp] theorem begin_fbIndex : (s.begin).fbIndex = s.fbIndex := rfl
@[simp] theorem begin_mode : (s.begin).mode = .exec := rfl
@[simp] theorem begin_fifo : (s.begin).fifo = s.fifo := rfl
@[simp] theorem begin_held : (s.begin).held = s.held := rfl
@[simp] theorem begin_current : (s.begin).current = s.current := rfl
@[simp] theorem begin_work : (s.begin).work = none := rfl
@[simp] theorem begin_dropped : (s.begin).dropped = false := rfl
@[simp] theorem begin_offered : (s.begin).offered = none := rfl
@[simp] theorem begin_tokens : (s.begin).tokens = s.tokens := rfl
@[simp] theorem begin_answers : (s.begin).answers = s.answers := rfl
@[simp] theorem begin_readData : (s.begin).readData = s.readData := rfl
@[simp] theorem begin_freeCtr : (s.begin).freeCtr = s.freeCtr := rfl
@[simp] theorem begin_fontChanges : (s.begin).fontChanges = s.fontChanges := rfl
@[simp] theorem begin_inputs : (s.begin).inputs = s.inputs := rfl

/-! ### `takeCommand` -/

@[simp] theorem takeCommand_params (ws rest : List Word) : (s.takeCommand ws rest).params = s.params := rfl
@[simp] theorem takeCommand_wm (ws rest : List Word) : (s.takeCommand ws rest).wm = s.wm := rfl
@[simp] theorem takeCommand_hm (ws rest : List Word) : (s.takeCommand ws rest).hm = s.hm := rfl
@[simp] theorem takeCommand_rot (ws rest : List Word) : (s.takeCommand ws rest).rot = s.rot := rfl
@[simp] theorem takeCommand_mirror (ws rest : List Word) : (s.takeCommand ws rest).mirror = s.mirror := rfl
@[simp] theorem takeCommand_depth (ws rest : List Word) : (s.takeCommand ws rest).depth = s.depth := rfl
@[simp] theorem takeCommand_bg (ws rest : List Word) : (s.takeCommand ws rest).bg = s.bg := rfl
@[simp] theorem takeCommand_cfgValid (ws rest : List Word) : (s.takeCommand ws rest).cfgValid = s.cfgValid := rfl
@[simp] theorem takeCommand_fb (ws rest : List Word) : (s.takeCommand ws rest).fb = s.fb := rfl
@[simp] theorem takeCommand_fbEpoch (ws rest : List Word) : (s.takeCommand ws rest).fbEpoch = s.fbEpoch := rfl
@[simp] theorem takeCommand_fontMem (ws rest : List Word) : (s.takeCommand ws rest).fontMem = s.fontMem := rfl
@[simp] theorem takeCommand_fonts (ws rest : List Word) : (s.takeCommand ws rest).fonts = s.fonts := rfl
@[simp] theorem takeCommand_result (ws rest : List Word) : (s.takeCommand ws rest).result = s.result := rfl
@[simp] theorem takeCommand_sticky (ws rest : List Word) : (s.takeCommand ws rest).sticky = s.sticky := rfl
@[simp] theorem takeCommand_fbIndex (ws rest : List Word) : (s.takeCommand ws rest).fbIndex = s.fbIndex := rfl
@[simp] theorem takeCommand_mode (ws rest : List Word) : (s.takeCommand ws rest).mode = .exec := rfl
@[simp] theorem takeCommand_fifo (ws rest : List Word) : (s.takeCommand ws rest).fifo = rest := rfl
@[simp] theorem takeCommand_held (ws rest : List Word) : (s.takeCommand ws rest).held = none := rfl
@[simp] theorem takeCommand_current (ws rest : List Word) : (s.takeCommand ws rest).current = ws := rfl
@[simp] theorem takeCommand_work (ws rest : List Word) : (s.takeCommand ws rest).work = s.work := rfl
@[simp] theorem takeCommand_dropped (ws rest : List Word) : (s.takeCommand ws rest).dropped = s.dropped := rfl
@[simp] theorem takeCommand_offered (ws rest : List Word) : (s.takeCommand ws rest).offered = s.offered := rfl
@[simp] theorem takeCommand_tokens (ws rest : List Word) : (s.takeCommand ws rest).tokens = s.tokens := rfl
@[simp] theorem takeCommand_answers (ws rest : List Word) : (s.takeCommand ws rest).answers = s.answers := rfl
@[simp] theorem takeCommand_readData (ws rest : List Word) : (s.takeCommand ws rest).readData = s.readData := rfl
@[simp] theorem takeCommand_freeCtr (ws rest : List Word) : (s.takeCommand ws rest).freeCtr = s.freeCtr := rfl
@[simp] theorem takeCommand_fontChanges (ws rest : List Word) : (s.takeCommand ws rest).fontChanges = s.fontChanges := rfl
@[simp] theorem takeCommand_inputs (ws rest : List Word) : (s.takeCommand ws rest).inputs = s.inputs := rfl

end Sys2Proof.Machine
end

