-- ==== Sys2Proof/Laws/Memory.lean ====
section
/-! SUPPORT. The framebuffer's list: read after write, and the canonical form. -/

namespace Sys2Proof.Machine

@[simp] theorem lookup_nil (i : Nat) : Memory.lookup [] i = none := rfl

/-- A write reads back. -/
@[simp] theorem lookup_insert_self (m : Memory) (i : Nat) (v : Byte) :
    Memory.lookup (Memory.insert m i v) i = some v := by
  induction m with
  | nil => simp [Memory.insert, Memory.lookup]
  | cons c m ih =>
    obtain ⟨a, u⟩ := c
    simp only [Memory.insert]
    split
    · simp [Memory.lookup]
    · split
      · simp [Memory.lookup]
      · rename_i h1 h2
        simp [Memory.lookup, Ne.symm h2, ih]

/-- A write leaves every other index alone. -/
theorem lookup_insert_ne (m : Memory) {i j : Nat} (v : Byte) (h : j ≠ i) :
    Memory.lookup (Memory.insert m i v) j = Memory.lookup m j := by
  induction m with
  | nil => simp [Memory.insert, Memory.lookup, Ne.symm h]
  | cons c m ih =>
    obtain ⟨a, u⟩ := c
    simp only [Memory.insert]
    split
    · simp [Memory.lookup, Ne.symm h]
    · split
      · rename_i h1 h2; subst h2; simp [Memory.lookup, Ne.symm h]
      · simp [Memory.lookup, ih]

/-- The indices listed after a write are those before and the index written. -/
theorem mem_keys_insert (m : Memory) (i : Nat) (v : Byte) (k : Nat) :
    k ∈ (Memory.insert m i v).map Prod.fst ↔ k = i ∨ k ∈ m.map Prod.fst := by
  induction m with
  | nil => simp [Memory.insert]
  | cons c m ih =>
    obtain ⟨a, u⟩ := c
    simp only [Memory.insert]
    split
    · simp
    · split
      · rename_i h1 h2; subst h2; simp
      · simp only [List.map_cons, List.mem_cons, ih]; tauto

/-- A write keeps the canonical form. -/
theorem insert_wf {m : Memory} (h : Memory.wf m) (i : Nat) (v : Byte) : Memory.wf (Memory.insert m i v) := by
  induction m with
  | nil => simp [Memory.wf, Memory.insert]
  | cons c m ih =>
    obtain ⟨a, u⟩ := c
    simp only [Memory.wf, List.map_cons, List.pairwise_cons] at h ih
    simp only [Memory.insert]
    split
    · rename_i h1
      simp only [Memory.wf, List.map_cons, List.pairwise_cons, List.mem_cons]
      refine ⟨?_, h.1, h.2⟩
      rintro k (rfl | hk)
      · exact h1
      · exact lt_trans h1 (h.1 k hk)
    · split
      · rename_i h1 h2
        subst h2
        simpa only [Memory.wf, List.map_cons, List.pairwise_cons] using h
      · rename_i h1 h2
        simp only [Memory.wf, List.map_cons, List.pairwise_cons]
        refine ⟨fun k hk => ?_, ih h.2⟩
        rcases (mem_keys_insert m i v k).1 hk with rfl | hk
        · omega
        · exact h.1 k hk

/-- In the canonical form an index and its byte are listed exactly when the byte is what the index looks up. -/
theorem lookup_eq_some_iff {m : Memory} (h : Memory.wf m) (i : Nat) (v : Byte) :
    Memory.lookup m i = some v ↔ (i, v) ∈ m := by
  induction m with
  | nil => simp
  | cons c m ih =>
    obtain ⟨a, u⟩ := c
    simp only [Memory.wf, List.map_cons, List.pairwise_cons] at h
    simp only [Memory.lookup, List.mem_cons, Prod.mk.injEq]
    by_cases hai : a = i
    · subst hai
      simp only [if_true, Option.some.injEq, true_and]
      refine ⟨fun e => Or.inl e.symm, ?_⟩
      rintro (e | e)
      · exact e.symm
      · exact absurd (h.1 a (List.mem_map_of_mem (f := Prod.fst) e)) (lt_irrefl a)
    · rw [if_neg hai, ih h.2]
      exact ⟨Or.inr, fun e => e.resolve_left fun e => hai e.1.symm⟩

/-- Equal memories are equal lists: two canonical lists that look up the same are the same. -/
theorem memory_ext {m n : Memory} (hm : Memory.wf m) (hn : Memory.wf n)
    (h : ∀ i, Memory.lookup m i = Memory.lookup n i) : m = n := by
  have hp : ∀ {l : Memory}, Memory.wf l → l.Pairwise (fun a b : Host.Cell => a.1 < b.1) :=
    fun hl => List.pairwise_map.1 hl
  have nodup : ∀ {l : Memory}, Memory.wf l → l.Nodup := fun hl =>
    (hp hl).imp fun hab e => by subst e; exact lt_irrefl _ hab
  refine List.Perm.eq_of_pairwise (le := fun a b : Host.Cell => a.1 < b.1) ?_ (hp hm) (hp hn) ?_
  · intro a b _ _ h1 h2
    exact absurd (lt_trans h1 h2) (lt_irrefl _)
  · refine (List.perm_ext_iff_of_nodup (nodup hm) (nodup hn)).2 fun c => ?_
    obtain ⟨i, v⟩ := c
    rw [← lookup_eq_some_iff hm, ← lookup_eq_some_iff hn, h]

/-! ### Bytes of the state -/

/-- A byte reads as last written (R12). -/
@[simp] theorem readFb_writeFb_self (s : State) (i : Nat) (v : Byte) : (s.writeFb i v).readFb i = v := by
  simp [State.readFb, State.writeFb]

/-- Writing one byte leaves every other byte (R12). -/
theorem readFb_writeFb_ne (s : State) {i j : Nat} (v : Byte) (h : j ≠ i) :
    (s.writeFb i v).readFb j = s.readFb j := by
  simp [State.readFb, State.writeFb, lookup_insert_ne _ _ h]

/-- Reading a byte depends on the buffer and its epoch only. -/
theorem readFb_congr {s t : State} (h1 : t.fb = s.fb) (h2 : t.fbEpoch = s.fbEpoch) (i : Nat) :
    t.readFb i = s.readFb i := by
  simp [State.readFb, h1, h2]

/-- Writing bytes touches only the framebuffer. -/
theorem writeBytes_eq (s : State) (i : Nat) (vs : List Byte) :
    s.writeBytes i vs = { s with fb := (s.writeBytes i vs).fb } := by
  induction vs generalizing s i with
  | nil => rfl
  | cons v vs ih => exact ih (s.writeFb i v) (i + 1)

/-- Bytes written in one go read back, and every other byte is left (R12). -/
theorem readFb_writeBytes (s : State) (i : Nat) (vs : List Byte) (j : Nat) :
    (s.writeBytes i vs).readFb j = if i ≤ j ∧ j < i + vs.length then vs.getD (j - i) 0 else s.readFb j := by
  induction vs generalizing s i with
  | nil =>
    have : ¬ (i ≤ j ∧ j < i + ([] : List Byte).length) := by simp
    rw [if_neg this]; rfl
  | cons v vs ih =>
    change ((s.writeFb i v).writeBytes (i + 1) vs).readFb j = _
    rw [ih]
    simp only [List.length_cons]
    rcases lt_trichotomy j i with h | rfl | h
    · rw [if_neg (by omega), if_neg (by omega), readFb_writeFb_ne _ _ (by omega)]
    · rw [if_neg (by omega), if_pos (by omega), readFb_writeFb_self]; simp
    · obtain ⟨k, rfl⟩ : ∃ k, j = i + 1 + k := ⟨j - (i + 1), by omega⟩
      rw [readFb_writeFb_ne _ _ (by omega), show i + 1 + k - i = k + 1 by omega,
        show i + 1 + k - (i + 1) = k by omega, List.getD_cons_succ]
      exact if_congr (by omega) rfl rfl

/-- Bytes written in one go keep the canonical form, and list no index but their own. -/
theorem writeBytes_memory (s : State) (i : Nat) (vs : List Byte) {n : Nat} (hw : Memory.wf s.fb)
    (hb : ∀ p ∈ s.fb, p.1 < n) (hi : i + vs.length ≤ n) :
    Memory.wf (s.writeBytes i vs).fb ∧ ∀ p ∈ (s.writeBytes i vs).fb, p.1 < n := by
  induction vs generalizing s i with
  | nil => exact ⟨hw, hb⟩
  | cons v vs ih =>
    rw [List.length_cons] at hi
    refine ih (s.writeFb i v) (i + 1) (insert_wf hw _ _) (fun p hp => ?_) (by omega)
    rcases (mem_keys_insert s.fb i v p.1).1 (List.mem_map_of_mem hp) with h | h
    · omega
    · obtain ⟨q, hq, he⟩ := List.mem_map.1 h
      rw [← he]; exact hb q hq

/-- A framebuffer that has become unspecified reads as free values (R42). -/
@[simp] theorem readFb_forgetFb (s : State) (i : Nat) :
    s.forgetFb.readFb i = Config.fbUnspecified (s.fbEpoch + 1) i := rfl

end Sys2Proof.Machine
end

