-- ==== Sys2Proof/Laws/Pixel.lean ====
section
/-! SUPPORT. The pixel-write primitive: what it depends on, everything it can do, and that a packed field reads
back. -/

namespace Sys2Proof.Machine

variable {s t u : State}

/-! ### What drawing never changes -/

theorem sameButDrawing_refl (s : State) : s.SameButDrawing s := by
  simp [State.SameButDrawing, State.SameSurface, State.SameFonts, State.SameOutside]

theorem sameButDrawing_trans (h1 : s.SameButDrawing t) (h2 : t.SameButDrawing u) : s.SameButDrawing u := by
  simp only [State.SameButDrawing, State.SameSurface, State.SameFonts, State.SameOutside] at *
  simp only [h1, h2, and_self]

theorem sameButDrawing_writeFb (s : State) (i : Nat) (v : Byte) : s.SameButDrawing (s.writeFb i v) := by
  simp [State.SameButDrawing, State.SameSurface, State.SameFonts, State.SameOutside]

theorem sameButDrawing_begin (s : State) : s.SameButDrawing s.begin := by
  simp [State.SameButDrawing, State.SameSurface, State.SameFonts, State.SameOutside]

theorem sameButDrawing_complete (s : State) (c : Result) : s.SameButDrawing (s.complete c) := by
  simp [State.SameButDrawing, State.SameSurface, State.SameFonts, State.SameOutside]

theorem sameButDrawing_pack (s : State) (d : Depth) (i X : Nat) (c : Half) : s.SameButDrawing (s.pack d i X c) := by
  cases d
  case sixteen => exact sameButDrawing_trans (sameButDrawing_writeFb _ _ _) (sameButDrawing_writeFb _ _ _)
  all_goals exact sameButDrawing_writeFb _ _ _

/-- `WritePixel` changes the framebuffer and the `dropped` flag only (R180). -/
theorem sameButDrawing_writePixel (s : State) (x y : Int) (c : Half) : s.SameButDrawing (s.writePixel x y c) := by
  unfold State.writePixel
  split
  · exact sameButDrawing_pack _ _ _ _ _
  · simp [State.SameButDrawing, State.SameSurface, State.SameFonts, State.SameOutside]
  · exact sameButDrawing_refl s

/-! ### The geometry depends on the Surface registers only -/

theorem sameSurface_width (h : s.SameSurface t) : t.width = s.width := by
  obtain ⟨h1, h2, h3, _⟩ := h
  simp only [State.width, h1, h2, h3]

theorem sameSurface_height (h : s.SameSurface t) : t.height = s.height := by
  obtain ⟨h1, h2, h3, _⟩ := h
  simp only [State.height, h1, h2, h3]

theorem sameSurface_stride (h : s.SameSurface t) : t.stride = s.stride := by
  obtain ⟨h1, _, _, _, h5, _⟩ := h
  simp only [State.stride, h1, h5]

theorem sameSurface_fbLen (h : s.SameSurface t) : t.fbLen = s.fbLen := by
  simp only [State.fbLen, sameSurface_stride h, h.2.1]

/-- The checks of `WritePixel` give the same answer whatever has been drawn (R180). -/
theorem sameSurface_pixelTarget (h : s.SameSurface t) (x y : Int) : t.pixelTarget x y = s.pixelTarget x y := by
  simp only [State.pixelTarget, sameSurface_width h, sameSurface_height h, sameSurface_stride h,
    sameSurface_fbLen h, h.1, h.2.1, h.2.2.1, h.2.2.2.1, h.2.2.2.2.1]

theorem sameSurface_pixelOutcome (h : s.SameSurface t) (x y : Int) : t.pixelOutcome x y = s.pixelOutcome x y := by
  simp only [State.pixelOutcome, sameSurface_pixelTarget h]

/-! ### Everything `WritePixel` can do -/

/-- A pixel that is written lies wholly inside the buffer, at the byte index of a physical pixel (R182, R183). -/
theorem pixelTarget_at {x y : Int} {d : Depth} {i X : Nat} (h : s.pixelTarget x y = .place d i X) :
    depthOf s.depth.toNat = some d ∧
      ∃ X' Y', transform s.rot s.mirror s.wm s.hm x y = some (X', Y') ∧ 0 ≤ X' ∧ 0 ≤ Y' ∧ X' ≤ s.wm.toNat ∧
        Y' ≤ s.hm.toNat ∧ X = X'.toNat ∧ i = (byteIndex d s.stride X'.toNat Y'.toNat).1 ∧
        i + (byteIndex d s.stride X'.toNat Y'.toNat).2 ≤ s.fbLen := by
  unfold State.pixelTarget at h
  split at h
  · cases h
  split at h
  · cases h
  split at h
  · cases h
  rename_i X' Y' ht
  split at h
  · cases h
  rename_i hb
  split at h
  · cases h
  rename_i d' hd
  dsimp only at h
  split at h
  · cases h
  rename_i hg
  simp only [PixelTarget.place.injEq] at h
  obtain ⟨rfl, rfl, rfl⟩ := h
  refine ⟨hd, X', Y', ht, ?_⟩
  omega

/-- `WritePixel` packs the colour where the checks say, or drops, or skips: nothing else (R180). -/
theorem writePixel_cases (s : State) (x y : Int) (c : Half) :
    (∃ d i X, s.pixelTarget x y = .place d i X ∧ s.pixelOutcome x y = .written ∧ s.writePixel x y c = s.pack d i X c) ∨
      (s.pixelTarget x y = .dropped ∧ s.pixelOutcome x y = .dropped ∧
        s.writePixel x y c = { s with dropped := true }) ∨
      (s.pixelTarget x y = .skipped ∧ s.pixelOutcome x y = .skipped ∧ s.writePixel x y c = s) := by
  unfold State.writePixel State.pixelOutcome
  cases h : s.pixelTarget x y <;> simp

/-- How many bytes a pixel takes (R183). -/
theorem byteIndex_count (d : Depth) (st X Y : Nat) : (byteIndex d st X Y).2 = if d = .sixteen then 2 else 1 := by
  cases d <;> rfl

/-- `Pack` leaves every byte but its own (R79). -/
theorem readFb_pack_ne (s : State) (d : Depth) {i j : Nat} (X : Nat) (c : Half)
    (h : j < i ∨ i + (if d = .sixteen then 2 else 1) ≤ j) : (s.pack d i X c).readFb j = s.readFb j := by
  cases d
  case sixteen =>
    simp only [if_true] at h
    simp only [State.pack]
    rw [readFb_writeFb_ne _ _ (by omega), readFb_writeFb_ne _ _ (by omega)]
  all_goals
    simp only [reduceCtorEq, if_false] at h
    simp only [State.pack]
    rw [readFb_writeFb_ne _ _ (by omega)]

theorem pack_dropped (s : State) (d : Depth) (i X : Nat) (c : Half) : (s.pack d i X c).dropped = s.dropped := by
  cases d <;> rfl

/-- `WritePixel` drops exactly when its outcome says so (R304). -/
theorem writePixel_dropped (s : State) (x y : Int) (c : Half) :
    (s.writePixel x y c).dropped = (s.dropped || decide (s.pixelOutcome x y = .dropped)) := by
  rcases writePixel_cases s x y c with ⟨d, i, X, _, h2, h3⟩ | ⟨_, h2, h3⟩ | ⟨_, h2, h3⟩
  · simp [h2, h3, pack_dropped]
  · simp [h2, h3]
  · simp [h2, h3]

/-- No byte at or above `FB_LEN` is written by `WritePixel` (R82, R182). -/
theorem readFb_writePixel_outside (s : State) (x y : Int) (c : Half) {j : Nat} (h : s.fbLen ≤ j) :
    (s.writePixel x y c).readFb j = s.readFb j := by
  rcases writePixel_cases s x y c with ⟨d, i, X, h1, _, h3⟩ | ⟨_, _, h3⟩ | ⟨_, _, h3⟩
  · obtain ⟨_, X', Y', _, _, _, _, _, _, _, hi⟩ := pixelTarget_at h1
    rw [byteIndex_count] at hi
    rw [h3, readFb_pack_ne _ _ _ _ (Or.inr (by omega))]
  · rw [h3]; rfl
  · rw [h3]

/-- `WritePixel` keeps the canonical form, and lists no byte outside the buffer (R82). -/
theorem writePixel_memory (s : State) (x y : Int) (c : Half) (hw : Memory.wf s.fb) (hb : ∀ p ∈ s.fb, p.1 < s.fbLen) :
    Memory.wf (s.writePixel x y c).fb ∧ ∀ p ∈ (s.writePixel x y c).fb, p.1 < s.fbLen := by
  have ins : ∀ (m : Memory) (i : Nat) (v : Byte), i < s.fbLen → (Memory.wf m ∧ ∀ p ∈ m, p.1 < s.fbLen) →
      Memory.wf (Memory.insert m i v) ∧ ∀ p ∈ Memory.insert m i v, p.1 < s.fbLen := by
    rintro m i v hi ⟨h1, h2⟩
    refine ⟨insert_wf h1 i v, fun p hp => ?_⟩
    rcases (mem_keys_insert m i v p.1).1 (List.mem_map_of_mem (f := Prod.fst) hp) with h | h
    · omega
    · obtain ⟨q, hq, e⟩ := List.mem_map.1 h
      exact e ▸ h2 q hq
  rcases writePixel_cases s x y c with ⟨d, i, X, h1, _, h3⟩ | ⟨_, _, h3⟩ | ⟨_, _, h3⟩
  · obtain ⟨_, X', Y', _, _, _, _, _, _, _, hi⟩ := pixelTarget_at h1
    rw [byteIndex_count] at hi
    rw [h3]
    cases d
    case sixteen =>
      simp only [if_true] at hi
      exact ins _ _ _ (by omega) (ins _ _ _ (by omega) ⟨hw, hb⟩)
    all_goals
      simp only [reduceCtorEq, if_false] at hi
      exact ins _ _ _ (by omega) ⟨hw, hb⟩
  · rw [h3]; exact ⟨hw, hb⟩
  · rw [h3]; exact ⟨hw, hb⟩

/-! ### A packed field reads back, and its neighbours are kept -/

/-- The bits of a byte after a 1-bit pixel (R184). -/
theorem packOne_bit (old : Byte) (X : Nat) (c : Half) {j : Nat} (hj : j < 8) :
    (packOne old X c).getLsbD j = if j = 7 - X % 8 then c.getLsbD 0 else old.getLsbD j := by
  have m : ∀ k j : Fin 8, (0x80#8 >>> k.val).getLsbD j.val = decide (j.val = 7 - k.val) := by decide
  have hm : (0x80#8 >>> (X % 8)).getLsbD j = decide (j = 7 - X % 8) := m ⟨X % 8, Nat.mod_lt _ (by norm_num)⟩ ⟨j, hj⟩
  simp only [packOne]
  cases hc : c.getLsbD 0
  · simp only [Bool.false_eq_true, if_false, BitVec.getLsbD_and, BitVec.getLsbD_not, hj, hm]
    by_cases h : j = 7 - X % 8 <;> simp only [h] <;> simp
  · simp only [if_true, BitVec.getLsbD_or, hm]
    by_cases h : j = 7 - X % 8 <;> simp only [h] <;> simp

/-- The bits of a byte after a 2-bit pixel (R185). -/
theorem packTwo_bit (old : Byte) (X : Nat) (c : Half) {j : Nat} (hj : j < 8) :
    (packTwo old X c).getLsbD j =
      if 6 - 2 * (X % 4) ≤ j ∧ j < 8 - 2 * (X % 4) then c.getLsbD (j - (6 - 2 * (X % 4))) else old.getLsbD j := by
  have m : ∀ k : Fin 4, ∀ j : Fin 8, (0x3#8 <<< (6 - 2 * k.val)).getLsbD j.val =
      decide (6 - 2 * k.val ≤ j.val ∧ j.val < 8 - 2 * k.val) := by decide
  have hk : X % 4 < 4 := Nat.mod_lt _ (by norm_num)
  have hm := m ⟨X % 4, hk⟩ ⟨j, hj⟩
  simp only at hm
  simp only [packTwo, BitVec.getLsbD_or, BitVec.getLsbD_and, BitVec.getLsbD_not, hm, hj, BitVec.getLsbD_shiftLeft,
    BitVec.getLsbD_setWidth, BitVec.getLsbD_extractLsb', Nat.zero_add]
  by_cases h : 6 - 2 * (X % 4) ≤ j ∧ j < 8 - 2 * (X % 4)
  · rw [if_pos h]
    have h1 : ¬ j < 6 - 2 * (X % 4) := by omega
    have h2 : j - (6 - 2 * (X % 4)) < 2 := by omega
    have h3 : j - (6 - 2 * (X % 4)) < 8 := by omega
    simp [h, h1, h2, h3]
  · rw [if_neg h, decide_eq_false h]
    rcases Nat.lt_or_ge j (6 - 2 * (X % 4)) with h1 | h1
    · simp [h1]
    · have h2 : ¬ j - (6 - 2 * (X % 4)) < 2 := by omega
      simp [h2]

/-- The bits of a byte after a 4-bit pixel (R186). -/
theorem packFour_bit (old : Byte) (X : Nat) (c : Half) {j : Nat} (hj : j < 8) :
    (packFour old X c).getLsbD j =
      if (j < 4 ↔ X % 2 = 1) then c.getLsbD (j % 4) else old.getLsbD j := by
  have m0 : ∀ j : Fin 8, (0xF#8).getLsbD j.val = decide (j.val < 4) := by decide
  have m4 : ∀ j : Fin 8, (0xF#8 <<< 4).getLsbD j.val = decide (4 ≤ j.val) := by decide
  have h0 := m0 ⟨j, hj⟩
  have h4 := m4 ⟨j, hj⟩
  simp only at h0 h4
  simp only [packFour]
  rcases Nat.mod_two_eq_zero_or_one X with hX | hX
  · simp only [hX, if_true, BitVec.getLsbD_or, BitVec.getLsbD_and, BitVec.getLsbD_not, h4, hj,
      BitVec.getLsbD_shiftLeft, BitVec.getLsbD_setWidth, BitVec.getLsbD_extractLsb', Nat.zero_add]
    by_cases h : j < 4
    · simp [h, show ¬ 4 ≤ j by omega]
    · have e : j % 4 = j - 4 := by omega
      simp [h, show 4 ≤ j by omega, e, show j - 4 < 4 by omega, show j - 4 < 8 by omega]
  · simp only [hX, BitVec.getLsbD_or, BitVec.getLsbD_and, BitVec.getLsbD_not, hj, BitVec.getLsbD_shiftLeft,
      BitVec.getLsbD_setWidth, BitVec.getLsbD_extractLsb', Nat.zero_add, one_ne_zero, if_false, Nat.sub_zero]
    by_cases h : j < 4
    · have e : j % 4 = j := by omega
      simp [h, h0, e, show j < 8 by omega]
    · simp [h, h0]

/-- The bits of the field read back at 1 bit per pixel (R188). -/
theorem fieldOne_bit (b : Byte) (X : Nat) {j : Nat} (hj : j < 16) :
    (fieldOne b X).getLsbD j = (decide (j < 1) && b.getLsbD (7 - X % 8 + j)) := by
  have m : ∀ j : Fin 16, (0x1#8).getLsbD j.val = decide (j.val < 1) := by decide
  have hm := m ⟨j, hj⟩
  simp only at hm
  simp only [fieldOne, BitVec.getLsbD_setWidth, BitVec.getLsbD_and, BitVec.getLsbD_ushiftRight, hm, hj, decide_true,
    Bool.true_and]
  rw [Bool.and_comm]

/-- The bits of the field read back at 2 bits per pixel (R188). -/
theorem fieldTwo_bit (b : Byte) (X : Nat) {j : Nat} (hj : j < 16) :
    (fieldTwo b X).getLsbD j = (decide (j < 2) && b.getLsbD (6 - 2 * (X % 4) + j)) := by
  have m : ∀ j : Fin 16, (0x3#8).getLsbD j.val = decide (j.val < 2) := by decide
  have hm := m ⟨j, hj⟩
  simp only at hm
  simp only [fieldTwo, BitVec.getLsbD_setWidth, BitVec.getLsbD_and, BitVec.getLsbD_ushiftRight, hm, hj, decide_true,
    Bool.true_and]
  rw [Bool.and_comm]

/-- The bits of the field read back at 4 bits per pixel (R188). -/
theorem fieldFour_bit (b : Byte) (X : Nat) {j : Nat} (hj : j < 16) :
    (fieldFour b X).getLsbD j = (decide (j < 4) && b.getLsbD ((if X % 2 = 0 then 4 else 0) + j)) := by
  have m : ∀ j : Fin 16, (0xF#8).getLsbD j.val = decide (j.val < 4) := by decide
  have hm := m ⟨j, hj⟩
  simp only at hm
  simp only [fieldFour, BitVec.getLsbD_setWidth, BitVec.getLsbD_and, BitVec.getLsbD_ushiftRight, hm, hj, decide_true,
    Bool.true_and]
  rw [Bool.and_comm]

/-! ### Where a pixel lies, and what reads back -/

/-- A legal depth is its number of bits. -/
theorem depthOf_bits {n : Nat} {d : Depth} (h : depthOf n = some d) : n = d.bits := by
  unfold depthOf at h
  repeat' split at h
  all_goals cases h
  all_goals assumption

theorem rot_cases {s : State} (h : s.rot = 0 ∨ s.rot = 90 ∨ s.rot = 180 ∨ s.rot = 270) :
    (rotOf s.rot = some .deg0 ∧ s.width = s.wm.toNat ∧ s.height = s.hm.toNat) ∨
    (rotOf s.rot = some .deg90 ∧ s.width = s.hm.toNat ∧ s.height = s.wm.toNat) ∨
    (rotOf s.rot = some .deg180 ∧ s.width = s.wm.toNat ∧ s.height = s.hm.toNat) ∨
    (rotOf s.rot = some .deg270 ∧ s.width = s.hm.toNat ∧ s.height = s.wm.toNat) := by
  rcases h with h | h | h | h
  · left; simp only [State.width, State.height, h]; exact ⟨rfl, rfl, rfl⟩
  · right; left; simp only [State.width, State.height, h]; exact ⟨rfl, rfl, rfl⟩
  · right; right; left; simp only [State.width, State.height, h]; exact ⟨rfl, rfl, rfl⟩
  · right; right; right; simp only [State.width, State.height, h]; exact ⟨rfl, rfl, rfl⟩

theorem readFb_pack_one (s : State) (i X : Nat) (c : Half) :
    (s.pack .one i X c).readFb i = packOne (s.readFb i) X c := readFb_writeFb_self _ _ _

theorem readFb_pack_two (s : State) (i X : Nat) (c : Half) :
    (s.pack .two i X c).readFb i = packTwo (s.readFb i) X c := readFb_writeFb_self _ _ _

theorem readFb_pack_four (s : State) (i X : Nat) (c : Half) :
    (s.pack .four i X c).readFb i = packFour (s.readFb i) X c := readFb_writeFb_self _ _ _

theorem readFb_pack_hi (s : State) (i X : Nat) (c : Half) :
    (s.pack .sixteen i X c).readFb i = highByte c := by
  simp only [State.pack]; rw [readFb_writeFb_ne _ _ (by omega), readFb_writeFb_self]

theorem readFb_pack_lo (s : State) (i X : Nat) (c : Half) :
    (s.pack .sixteen i X c).readFb (i + 1) = lowByte c := readFb_writeFb_self _ _ _

/-- Bytes of a row at each depth (R38). -/
theorem stride_of_depth {s : State} {d : Depth} (h : depthOf s.depth.toNat = some d) :
    s.stride = (s.wm.toNat * d.bits + 7) / 8 := by
  simp [State.stride, strideOf, ceilDiv, depthOf_bits h]

theorem row_fits {Y hm st : Nat} (h : Y + 1 ≤ hm) : Y * st + st ≤ st * hm := by
  calc Y * st + st = (Y + 1) * st := by ring
    _ ≤ hm * st := Nat.mul_le_mul_right _ h
    _ = st * hm := by ring

theorem index_fits {s : State} {d : Depth} (h : depthOf s.depth.toNat = some d) {X Y : Nat} (hX : X < s.wm.toNat)
    (hY : Y < s.hm.toNat) : (byteIndex d s.stride X Y).1 + (byteIndex d s.stride X Y).2 ≤ s.fbLen := by
  have h1 := row_fits (st := s.stride) (show Y + 1 ≤ s.hm.toNat from hY)
  have h2 := stride_of_depth h
  simp only [State.fbLen]
  cases d <;> simp only [byteIndex, Depth.bits] at h2 ⊢ <;> omega

/-- A pixel that passes the bounds checks is placed at its byte index, or dropped by the memory guard (R180). -/
theorem pixelTarget_of_checks {s : State} {d : Depth} {x y X Y : Int} (hd : depthOf s.depth.toNat = some d) (h1 : 0 ≤ x)
    (h2 : x ≤ s.width) (h3 : 0 ≤ y) (h4 : y ≤ s.height) (ht : transform s.rot s.mirror s.wm s.hm x y = some (X, Y))
    (h5 : 0 ≤ X) (h6 : X ≤ s.wm.toNat) (h7 : 0 ≤ Y) (h8 : Y ≤ s.hm.toNat) :
    s.pixelTarget x y =
      if (byteIndex d s.stride X.toNat Y.toNat).1 + (byteIndex d s.stride X.toNat Y.toNat).2 > s.fbLen then .dropped
      else .place d (byteIndex d s.stride X.toNat Y.toNat).1 X.toNat := by
  rw [State.pixelTarget, if_neg (by omega), if_neg (by omega)]
  simp only [ht, hd]
  rw [if_neg (by omega)]

theorem outcome_of_dropped {s : State} {x y : Int} (h : s.pixelTarget x y = .dropped) (c : Half) :
    s.pixelOutcome x y = .dropped ∧ s.SameFb (s.writePixel x y c) ∧ (s.writePixel x y c).dropped = true := by
  have e : s.writePixel x y c = { s with dropped := true } := by simp only [State.writePixel, h]
  exact ⟨by simp only [State.pixelOutcome, h], by rw [e]; intro i; rfl, by rw [e]⟩

theorem logical_of_physical {s : State} {x y X Y : Int} (ht : transform s.rot s.mirror s.wm s.hm x y = some (X, Y))
    (h5 : 0 ≤ X) (h6 : X < s.wm.toNat) (h7 : 0 ≤ Y) (h8 : Y < s.hm.toNat) :
    0 ≤ x ∧ x < s.width ∧ 0 ≤ y ∧ y < s.height := by
  unfold transform at ht
  unfold State.width State.height
  cases hr : rotOf s.rot with
  | none => simp only [hr, reduceCtorEq] at ht
  | some r =>
    simp only [hr] at ht ⊢
    have ht := Option.some.inj ht
    generalize mirrorOf s.mirror = m at ht
    cases r <;> cases m <;> obtain ⟨h, h'⟩ := Prod.mk.inj ht <;>
      simp only [rotateStep] at h h' ⊢ <;> omega

theorem target_inside {s : State} {d : Depth} {x y X Y : Int} (hd : depthOf s.depth.toNat = some d)
    (ht : transform s.rot s.mirror s.wm s.hm x y = some (X, Y))
    (h5 : 0 ≤ X) (h6 : X < s.wm.toNat) (h7 : 0 ≤ Y) (h8 : Y < s.hm.toNat) :
    s.pixelTarget x y = .place d (byteIndex d s.stride X.toNat Y.toNat).1 X.toNat := by
  have hl := logical_of_physical ht h5 h6 h7 h8
  rw [pixelTarget_of_checks hd (by omega) (by omega) (by omega) (by omega) ht (by omega) (by omega) (by omega) (by omega),
    if_neg]
  have := index_fits hd (X := X.toNat) (Y := Y.toNat) (by omega) (by omega)
  omega

theorem mod_bits (c : Half) (k j : Nat) (hj : j < 16) :
    (BitVec.ofNat 16 (c.toNat % 2 ^ k)).getLsbD j = (decide (j < k) && c.getLsbD j) := by
  rw [BitVec.getLsbD_ofNat]
  simp only [hj, decide_true, Bool.true_and, Nat.testBit_mod_two_pow]
  rfl

theorem getPixel_pack_self (s : State) (d : Depth) (X : Nat) (c : Half) (Y : Nat) :
    (s.pack d (byteIndex d s.stride X Y).1 X c).getPixel d X Y = BitVec.ofNat 16 (c.toNat % 2 ^ d.bits) := by
  have hs := sameSurface_stride (sameButDrawing_pack s d (byteIndex d s.stride X Y).1 X c).1
  apply BitVec.eq_of_getLsbD_eq
  intro j hj
  rw [mod_bits _ _ _ hj]
  simp only [State.getPixel, hs]
  cases d with
  | one =>
    simp only [readFb_pack_one, fieldOne_bit _ _ hj, Depth.bits]
    by_cases h : j < 1
    · have : X % 8 < 8 := Nat.mod_lt _ (by norm_num)
      rw [packOne_bit _ _ _ (by omega), if_pos (by omega)]
      simp [h]; congr 1; omega
    · simp [h]
  | two =>
    simp only [readFb_pack_two, fieldTwo_bit _ _ hj, Depth.bits]
    by_cases h : j < 2
    · have : X % 4 < 4 := Nat.mod_lt _ (by norm_num)
      rw [packTwo_bit _ _ _ (by omega), if_pos (by omega)]
      congr 2; omega
    · simp [h]
  | four =>
    simp only [readFb_pack_four, fieldFour_bit _ _ hj, Depth.bits]
    by_cases h : j < 4
    · rcases Nat.mod_two_eq_zero_or_one X with h' | h' <;> simp only [h', if_true, if_false, one_ne_zero]
      · rw [packFour_bit _ _ _ (by omega), if_pos (by omega)]; congr 2; omega
      · rw [packFour_bit _ _ _ (by omega), if_pos (by omega)]; congr 2; omega
    · simp [h]
  | sixteen =>
    simp only [readFb_pack_hi, readFb_pack_lo, Depth.bits, hj, decide_true, Bool.true_and]
    rw [show (highByte c ++ lowByte c : Half) = (highByte c ++ lowByte c : BitVec (8 + 8)) from rfl,
      BitVec.getLsbD_append]
    simp only [highByte, lowByte, BitVec.getLsbD_extractLsb']
    split
    · simp_all
    · simp only [show j - 8 < 8 by omega, decide_true, Bool.true_and]; congr 1; omega

/-- Two different pixels of the rectangle share no bits. -/
theorem getPixel_pack_ne (s : State) (d : Depth) {i X X' Y' : Nat} (c : Half)
    (hne : match d with
      | .one => (byteIndex .one s.stride X' Y').1 ≠ i ∨ X % 8 ≠ X' % 8
      | .two => (byteIndex .two s.stride X' Y').1 ≠ i ∨ X % 4 ≠ X' % 4
      | .four => (byteIndex .four s.stride X' Y').1 ≠ i ∨ X % 2 ≠ X' % 2
      | .sixteen => (byteIndex .sixteen s.stride X' Y').1 ≠ i ∧ (byteIndex .sixteen s.stride X' Y').1 ≠ i + 1 ∧
          (byteIndex .sixteen s.stride X' Y').1 + 1 ≠ i) :
    (s.pack d i X c).getPixel d X' Y' = s.getPixel d X' Y' := by
  have hs := sameSurface_stride (sameButDrawing_pack s d i X c).1
  cases d with
  | one =>
    simp only [State.getPixel, hs] at hne ⊢
    generalize (byteIndex .one s.stride X' Y').1 = k at hne ⊢
    by_cases hk : k = i
    · subst hk
      apply BitVec.eq_of_getLsbD_eq
      intro j hj
      simp only [readFb_pack_one, fieldOne_bit _ _ hj]
      by_cases h : j < 1
      · have : X % 8 < 8 := Nat.mod_lt _ (by norm_num)
        have : X' % 8 < 8 := Nat.mod_lt _ (by norm_num)
        rw [packOne_bit _ _ _ (by omega), if_neg (by omega)]
      · simp [h]
    · rw [readFb_pack_ne _ _ _ _ (by simp; omega)]
  | two =>
    simp only [State.getPixel, hs] at hne ⊢
    generalize (byteIndex .two s.stride X' Y').1 = k at hne ⊢
    by_cases hk : k = i
    · subst hk
      apply BitVec.eq_of_getLsbD_eq
      intro j hj
      simp only [readFb_pack_two, fieldTwo_bit _ _ hj]
      by_cases h : j < 2
      · have : X % 4 < 4 := Nat.mod_lt _ (by norm_num)
        have : X' % 4 < 4 := Nat.mod_lt _ (by norm_num)
        rw [packTwo_bit _ _ _ (by omega), if_neg (by omega)]
      · simp [h]
    · rw [readFb_pack_ne _ _ _ _ (by simp; omega)]
  | four =>
    simp only [State.getPixel, hs] at hne ⊢
    generalize (byteIndex .four s.stride X' Y').1 = k at hne ⊢
    by_cases hk : k = i
    · subst hk
      apply BitVec.eq_of_getLsbD_eq
      intro j hj
      simp only [readFb_pack_four, fieldFour_bit _ _ hj]
      by_cases h : j < 4
      · rcases Nat.mod_two_eq_zero_or_one X with h1 | h1 <;> rcases Nat.mod_two_eq_zero_or_one X' with h2 | h2 <;>
          simp only [h2, if_true, if_false, one_ne_zero]
        · omega
        · rw [packFour_bit _ _ _ (by omega), if_neg (by omega)]
        · rw [packFour_bit _ _ _ (by omega), if_neg (by omega)]
        · omega
      · simp [h]
    · rw [readFb_pack_ne _ _ _ _ (by simp; omega)]
  | sixteen =>
    simp only [State.getPixel, hs] at hne ⊢
    generalize (byteIndex .sixteen s.stride X' Y').1 = k at hne ⊢
    rw [readFb_pack_ne _ _ _ _ (by simp; omega), readFb_pack_ne _ _ _ _ (by simp; omega)]

theorem rows_apart {Y Y' st a b : Nat} (h : a + Y * st = b + Y' * st) (ha : a < st) (hb : b < st) : Y = Y' ∧ a = b := by
  have h1 : (a + Y * st) / st = Y := by
    rw [Nat.add_mul_div_right _ _ (by omega), Nat.div_eq_of_lt ha, Nat.zero_add]
  have h2 : (b + Y' * st) / st = Y' := by
    rw [Nat.add_mul_div_right _ _ (by omega), Nat.div_eq_of_lt hb, Nat.zero_add]
  have : Y = Y' := by rw [← h1, h, h2]
  subst this
  exact ⟨rfl, by omega⟩

end Sys2Proof.Machine
end

