-- ==== Sys2Proof/Laws/Work.lean ====
section
/-! SUPPORT. Running a command's work: everything one piece can do, everything a run can do, and the runs of pixels,
of bytes and of tokens. -/

namespace Sys2Proof.Machine

variable {s t : State}

/-! ### One pixel touches only the framebuffer and the `dropped` flag -/

theorem writePixel_eq (s : State) (x y : Int) (c : Half) :
    s.writePixel x y c = { s with fb := (s.writePixel x y c).fb, dropped := (s.writePixel x y c).dropped } := by
  rcases writePixel_cases s x y c with ⟨d, i, X, _, _, h⟩ | ⟨_, _, h⟩ | ⟨_, _, h⟩
  · rw [h]; cases d <;> rfl
  · rw [h]
  · rw [h]

/-- What `WritePixel` does to the bytes depends on the bytes and the geometry only. -/
theorem writePixel_fb_congr (h1 : t.fb = s.fb) (h2 : t.fbEpoch = s.fbEpoch) (h3 : s.SameSurface t) (x y : Int)
    (c : Half) : (t.writePixel x y c).fb = (s.writePixel x y c).fb := by
  have hr : ∀ i, t.readFb i = s.readFb i := readFb_congr h1 h2
  unfold State.writePixel
  rw [sameSurface_pixelTarget h3]
  cases s.pixelTarget x y with
  | place d i X => cases d <;> simp [State.pack, h1, hr]
  | dropped => exact h1
  | skipped => exact h1

/-! ### Runs of pixels -/

theorem paint_nil (s : State) : s.paint [] = s := rfl

theorem paint_cons (s : State) (p : Int × Int × Half) (ps : List (Int × Int × Half)) :
    s.paint (p :: ps) = (s.writePixel p.1 p.2.1 p.2.2).paint ps := rfl

/-- Painting touches only the framebuffer and the `dropped` flag. -/
theorem paint_eq (s : State) (ps : List (Int × Int × Half)) :
    ∃ m b, s.paint ps = { s with fb := m, dropped := b } := by
  induction ps generalizing s with
  | nil => exact ⟨s.fb, s.dropped, rfl⟩
  | cons p ps ih =>
    obtain ⟨m, b, h⟩ := ih (s.writePixel p.1 p.2.1 p.2.2)
    rw [paint_cons, h, writePixel_eq]
    exact ⟨m, b, rfl⟩

theorem sameButDrawing_paint (s : State) (ps : List (Int × Int × Half)) : s.SameButDrawing (s.paint ps) := by
  obtain ⟨m, b, h⟩ := paint_eq s ps
  rw [h]
  simp [State.SameButDrawing, State.SameSurface, State.SameFonts, State.SameOutside]

/-- A painting drops exactly when one of its pixels does, whatever was drawn before it (R304). -/
theorem paint_dropped (s : State) (ps : List (Int × Int × Half)) :
    (s.paint ps).dropped = (s.dropped || decide (∃ p ∈ ps, s.pixelOutcome p.1 p.2.1 = .dropped)) := by
  induction ps generalizing s with
  | nil => simp [paint_nil]
  | cons p ps ih =>
    have hs : ∀ q : Int × Int × Half, (s.writePixel p.1 p.2.1 p.2.2).pixelOutcome q.1 q.2.1 =
        s.pixelOutcome q.1 q.2.1 := fun q => sameSurface_pixelOutcome (sameButDrawing_writePixel _ _ _ _).1 _ _
    simp only [paint_cons, ih, writePixel_dropped, hs, List.exists_mem_cons_iff, Bool.decide_or, Bool.or_assoc]

/-- What a painting does to the bytes depends on the bytes and the geometry only. -/
theorem paint_fb_congr (h1 : t.fb = s.fb) (h2 : t.fbEpoch = s.fbEpoch) (h3 : s.SameSurface t)
    (ps : List (Int × Int × Half)) : (t.paint ps).fb = (s.paint ps).fb := by
  induction ps generalizing s t with
  | nil => exact h1
  | cons p ps ih =>
    simp only [paint_cons]
    have hs := sameButDrawing_writePixel s p.1 p.2.1 p.2.2
    have ht := sameButDrawing_writePixel t p.1 p.2.1 p.2.2
    refine ih (writePixel_fb_congr h1 h2 h3 _ _ _) (by rw [ht.2.2.2, hs.2.2.2, h2]) ?_
    have e1 := hs.1
    have e2 := ht.1
    simp only [State.SameSurface] at h3 e1 e2 ⊢
    simp only [e1, e2, h3, and_self]

/-- No byte at or above `FB_LEN` is written by a painting (R82). -/
theorem readFb_paint_outside (s : State) (ps : List (Int × Int × Half)) {j : Nat} (h : s.fbLen ≤ j) :
    (s.paint ps).readFb j = s.readFb j := by
  induction ps generalizing s with
  | nil => rfl
  | cons p ps ih =>
    rw [paint_cons, ih, readFb_writePixel_outside _ _ _ _ h]
    rwa [sameSurface_fbLen (sameButDrawing_writePixel _ _ _ _).1]

/-- The work of a list of coloured pixels. -/
def pixelWork (ps : List (Int × Int × Half)) : List Micro := ps.map fun p => .pixel p.1 p.2.1 p.2.2

/-! ### Work that hands no token to the transport -/

/-- A list of work that hands no token to the transport. -/
def Local (ms : List Micro) : Prop := ∀ e, Micro.emit e ∉ ms

theorem Local.tail {m : Micro} {ms : List Micro} (h : Local (m :: ms)) : Local ms :=
  fun e he => h e (List.mem_cons_of_mem _ he)

/-- The state after one piece of work, however it ends. -/
def State.effect (s : State) (m : Micro) : State :=
  match s.perform m with
  | .done t => t
  | .reject _ t => t
  | .waiting t => t

/-- The state after a list of pieces. -/
def State.after (s : State) (ms : List Micro) : State := ms.foldl State.effect s

theorem after_cons (s : State) (m : Micro) (ms : List Micro) : s.after (m :: ms) = (s.effect m).after ms := rfl

/-- A piece that hands no token over always gets done. -/
theorem perform_local {m : Micro} (s : State) (h : ∀ e, m ≠ .emit e) : s.perform m = .done (s.effect m) := by
  cases m with
  | emit e => exact absurd rfl (h e)
  | _ => rfl

theorem Local.head {m : Micro} {ms : List Micro} (h : Local (m :: ms)) (s : State) : s.perform m = .done (s.effect m) :=
  perform_local s fun e he => h e (he ▸ List.mem_cons_self)

/-- Such work always ends its command (R300). -/
theorem runWork_after {ms : List Micro} (h : Local ms) (s : State) : s.runWork ms = (s.after ms).completeDrawn := by
  induction ms generalizing s with
  | nil => rfl
  | cons m ms ih => simp only [State.runWork, h.head s, ih h.tail, after_cons]

theorem local_pixelWork (ps : List (Int × Int × Half)) : Local (pixelWork ps) := by
  intro e he; simp [pixelWork] at he

/-- Pixels one after the other are a painting (R200). -/
theorem after_pixelWork (s : State) (ps : List (Int × Int × Half)) : s.after (pixelWork ps) = s.paint ps := by
  induction ps generalizing s with
  | nil => rfl
  | cons p ps ih => exact ih (s.writePixel p.1 p.2.1 p.2.2)

/-- A run of pixels is a painting (R200). -/
theorem runWork_pixelWork (s : State) (ps : List (Int × Int × Half)) :
    s.runWork (pixelWork ps) = (s.paint ps).completeDrawn := by
  rw [runWork_after (local_pixelWork ps), after_pixelWork]

/-- A command that writes a list of pixels (R200, R300): the bytes are those of the painting, the result says
whether a pixel was dropped, and nothing else changes. -/
theorem runPlan_pixelWork (s : State) (ps : List (Int × Int × Half)) :
    (s.runPlan (.draw (pixelWork ps))).fb = (s.paint ps).fb ∧
      s.Ended (s.runPlan (.draw (pixelWork ps))) (s.paintResult ps) ∧
      s.SameButDrawing (s.runPlan (.draw (pixelWork ps))) ∧
      s.SameTransport (s.runPlan (.draw (pixelWork ps))) := by
  have e : s.runPlan (.draw (pixelWork ps)) = (s.begin.paint ps).completeDrawn := runWork_pixelWork _ ps
  have hb : (s.begin.paint ps).dropped = decide (∃ p ∈ ps, s.pixelOutcome p.1 p.2.1 = .dropped) := by
    rw [paint_dropped]
    simp only [begin_dropped, Bool.false_or,
      fun p : Int × Int × Half => sameSurface_pixelOutcome (sameButDrawing_begin s).1 p.1 p.2.1]
  have hr : (if (s.begin.paint ps).dropped = true then Result.oob else Result.ok) = s.paintResult ps := by
    rw [hb, State.paintResult]; simp only [decide_eq_true_eq]
  rw [e]
  refine ⟨?_, ?_, ?_, ?_⟩
  · simp only [State.completeDrawn, complete_fb]
    exact paint_fb_congr (s := s) (t := s.begin) rfl rfl (sameButDrawing_begin s).1 ps
  · have hs : (s.begin.paint ps).sticky = s.sticky := by
      obtain ⟨m, b, h⟩ := paint_eq s.begin ps
      rw [h]; rfl
    simp only [State.completeDrawn, hr, State.Ended, complete_result, complete_sticky, hs, complete_mode,
      complete_current, complete_work, complete_dropped, complete_offered, and_self]
  · exact sameButDrawing_trans (sameButDrawing_trans (sameButDrawing_begin s) (sameButDrawing_paint _ ps))
      (sameButDrawing_complete _ _)
  · simp only [State.completeDrawn, State.SameTransport, complete_tokens, complete_answers]
    obtain ⟨m, b, h⟩ := paint_eq s.begin ps
    rw [h]; exact ⟨rfl, rfl⟩

/-! ### One piece of work -/

/-- Everything one piece of work can do: whatever its outcome, the Surface, the fonts, the stream and the host's
side are as before, and so are the status and the engine's place. -/
theorem perform_frame (s : State) (m : Micro) :
    ∀ s', (s.perform m = .done s' ∨ (∃ c, s.perform m = .reject c s') ∨ s.perform m = .waiting s') →
      s.SameButDrawing s' ∧ s'.result = s.result ∧ s'.sticky = s.sticky ∧ s'.mode = s.mode ∧
        s'.current = s.current ∧ s'.work = s.work ∧ s'.fontChanges = s.fontChanges := by
  have wp : ∀ (u : State) (x y : Int) (c : Half), u.SameButDrawing (u.writePixel x y c) ∧
      (u.writePixel x y c).result = u.result ∧ (u.writePixel x y c).sticky = u.sticky ∧
      (u.writePixel x y c).mode = u.mode ∧ (u.writePixel x y c).current = u.current ∧
      (u.writePixel x y c).work = u.work ∧ (u.writePixel x y c).fontChanges = u.fontChanges := by
    intro u x y c
    refine ⟨sameButDrawing_writePixel _ _ _ _, ?_⟩
    rw [writePixel_eq]; simp
  have triv : ∀ v : Bool, ∀ o : Option Token, ∀ a : List Answer, ∀ k : List Token, s.SameButDrawing
      { s with dropped := v, offered := o, answers := a, tokens := k } := fun v o a k => by
    simp [State.SameButDrawing, State.SameSurface, State.SameFonts, State.SameOutside]
  intro s' h
  cases m with
  | pixel x y c =>
    simp only [State.perform, MicroOutcome.done.injEq, reduceCtorEq, exists_false, or_false] at h
    subst h; exact wp _ _ _ _
  | cell x y glyph size addr bit fg bg =>
    simp only [State.perform, MicroOutcome.done.injEq, reduceCtorEq, exists_false, or_false] at h
    subst h
    unfold State.drawCell
    split
    · have h0 : s.SameButDrawing { s with freeCtr := s.freeCtr + 1 } := by
        simp [State.SameButDrawing, State.SameSurface, State.SameFonts, State.SameOutside]
      dsimp only
      split
      · have h1 := wp { s with freeCtr := s.freeCtr + 1 } x y ‹_›
        exact ⟨sameButDrawing_trans h0 h1.1, h1.2⟩
      · exact ⟨h0, by simp⟩
    · split
      · exact wp _ _ _ _
      · split
        · exact wp _ _ _ _
        · exact ⟨sameButDrawing_refl s, by simp⟩
  | dropChar =>
    simp only [State.perform, MicroOutcome.done.injEq, reduceCtorEq, exists_false, or_false] at h
    subst h
    exact ⟨triv true s.offered s.answers s.tokens, by simp⟩
  | fill i vs =>
    simp only [State.perform, MicroOutcome.done.injEq, reduceCtorEq, exists_false, or_false] at h
    subst h
    rw [writeBytes_eq]
    exact ⟨by simp [State.SameButDrawing, State.SameSurface, State.SameFonts, State.SameOutside], by simp⟩
  | emit e =>
    simp only [State.perform, State.emitToken] at h
    split at h
    · rcases h with h | ⟨c, h⟩ | h <;> cases h
      exact ⟨triv s.dropped _ s.answers s.tokens, by simp⟩
    · rcases h with h | ⟨c, h⟩ | h <;> cases h
      exact ⟨triv s.dropped _ _ _, by simp [State.deliver]⟩
    · rcases h with h | ⟨c, h⟩ | h <;> cases h
      exact ⟨triv s.dropped _ _ s.tokens, by simp⟩

/-- Everything a run can do: either the command ends with some result, or the engine waits for the transport at an
`Emit` with the rest of the work left. Nothing but drawing has changed (R200, R285, R300). -/
theorem runWork_cases (s : State) (ms : List Micro) :
    s.SameButDrawing (s.runWork ms) ∧
      ((∃ c, s.Ended (s.runWork ms) c) ∨
        (∃ e done rest, ms = done ++ .emit e :: rest ∧ (s.runWork ms).work = some (.emit e :: rest) ∧
          (s.runWork ms).mode = .exec ∧ (s.runWork ms).result = s.result ∧ (s.runWork ms).sticky = s.sticky ∧
          (s.runWork ms).answers = [])) := by
  induction ms generalizing s with
  | nil =>
    exact ⟨sameButDrawing_complete _ _, Or.inl ⟨if s.dropped then .oob else .ok, by
      simp [State.Ended, State.runWork, State.completeDrawn]⟩⟩
  | cons m ms ih =>
    have hf := perform_frame s m
    cases h : s.perform m with
    | done s' =>
      obtain ⟨h1, h2, h3, -⟩ := hf s' (Or.inl h)
      obtain ⟨i1, i2⟩ := ih s'
      have e : s.runWork (m :: ms) = s'.runWork ms := by simp only [State.runWork, h]
      rw [e]
      refine ⟨sameButDrawing_trans h1 i1, ?_⟩
      rcases i2 with ⟨c, hc⟩ | ⟨em, dn, rest, rfl, hw⟩
      · exact Or.inl ⟨c, by simpa only [State.Ended, h3] using hc⟩
      · exact Or.inr ⟨em, m :: dn, rest, rfl, by simpa only [h2, h3] using hw⟩
    | reject c s' =>
      obtain ⟨h1, h2, h3, -⟩ := hf s' (Or.inr (Or.inl ⟨c, h⟩))
      have e : s.runWork (m :: ms) = s'.complete c := by simp only [State.runWork, h]
      rw [e]
      exact ⟨sameButDrawing_trans h1 (sameButDrawing_complete _ _), Or.inl ⟨c, by simp [State.Ended, h3]⟩⟩
    | waiting s' =>
      obtain ⟨h1, h2, h3, -⟩ := hf s' (Or.inr (Or.inr h))
      have e : s.runWork (m :: ms) = { s' with mode := .exec, work := some (m :: ms) } := by
        simp only [State.runWork, h]
      rw [e]
      refine ⟨?_, Or.inr ?_⟩
      · simpa only [State.SameButDrawing, State.SameSurface, State.SameFonts, State.SameOutside] using h1
      · cases m with
        | emit em =>
          refine ⟨em, [], ms, rfl, rfl, rfl, h2, h3, ?_⟩
          simp only [State.perform, State.emitToken] at h
          split at h <;> cases h
          assumption
        | _ => simp [State.perform] at h

/-! ### Runs of tokens -/

theorem tokenOf_congr (h1 : t.fb = s.fb) (h2 : t.fbEpoch = s.fbEpoch) : t.tokenOf = s.tokenOf := by
  funext e
  cases e <;> simp [State.tokenOf, readFb_congr h1 h2]

theorem deliver_tokenOf (s : State) (e : Emission) (rest : List Answer) : (s.deliver e rest).tokenOf = s.tokenOf :=
  tokenOf_congr rfl rfl

theorem runWork_emit_cons {s : State} {e : Emission} {es : List Emission} {rest : List Answer}
    (h : s.answers = .accepted :: rest) : s.runWork ((e :: es).map .emit) = (s.deliver e rest).runWork (es.map .emit) := by
  simp only [List.map_cons, State.runWork, State.perform, State.emitToken, h]

/-- A run of tokens that the transport accepts one after the other (R282, R88): all are delivered, in order. -/
theorem runWork_emit_accepted (s : State) (es : List Emission) (rest : List Answer)
    (h : s.answers = List.replicate es.length .accepted ++ rest) (hd : s.dropped = false) :
    (s.runWork (es.map .emit)).tokens = s.tokens ++ es.map s.tokenOf ∧ (s.runWork (es.map .emit)).answers = rest ∧
      (s.runWork (es.map .emit)).fb = s.fb ∧ s.Ended (s.runWork (es.map .emit)) .ok := by
  induction es generalizing s with
  | nil =>
    simp only [List.length_nil, List.replicate_zero, List.nil_append] at h
    simp [State.runWork, State.completeDrawn, hd, h, State.Ended]
  | cons e es ih =>
    have ha : s.answers = .accepted :: (List.replicate es.length .accepted ++ rest) := by
      rw [h, List.length_cons, List.replicate_succ, List.cons_append]
    obtain ⟨h1, h2, h3, h4⟩ := ih (s.deliver e _) rfl hd
    rw [runWork_emit_cons ha]
    refine ⟨?_, h2, h3, h4⟩
    rw [h1, deliver_tokenOf]
    simp [State.deliver]

/-- A run of tokens that the transport breaks off with an error at one of them: those before it are delivered, no
later one is offered, and the result is TRANSPORT (R284). -/
theorem runWork_emit_error (s : State) (es : List Emission) (e : Emission) (later : List Emission)
    (rest : List Answer) (h : s.answers = List.replicate es.length .accepted ++ .error :: rest) :
    (s.runWork ((es ++ e :: later).map .emit)).tokens = s.tokens ++ es.map s.tokenOf ∧
      (s.runWork ((es ++ e :: later).map .emit)).answers = rest ∧
      (s.runWork ((es ++ e :: later).map .emit)).fb = s.fb ∧
      s.Ended (s.runWork ((es ++ e :: later).map .emit)) .transport := by
  induction es generalizing s with
  | nil =>
    simp only [List.length_nil, List.replicate_zero, List.nil_append] at h
    simp [State.runWork, State.perform, State.emitToken, h, State.Ended]
  | cons e' es ih =>
    have ha : s.answers = .accepted :: (List.replicate es.length .accepted ++ .error :: rest) := by
      rw [h, List.length_cons, List.replicate_succ, List.cons_append]
    obtain ⟨h1, h2, h3, h4⟩ := ih (s.deliver e' _) rfl
    rw [List.cons_append, runWork_emit_cons ha]
    refine ⟨?_, h2, h3, h4⟩
    rw [h1, deliver_tokenOf]
    simp [State.deliver]

/-- A run of tokens that the transport stops answering: those before are delivered, the next is offered and the
engine waits with the rest of the frame left (R280, R285). -/
theorem runWork_emit_waiting (s : State) (es : List Emission) (e : Emission) (later : List Emission)
    (h : s.answers = List.replicate es.length .accepted) :
    (s.runWork ((es ++ e :: later).map .emit)).tokens = s.tokens ++ es.map s.tokenOf ∧
      (s.runWork ((es ++ e :: later).map .emit)).answers = [] ∧
      (s.runWork ((es ++ e :: later).map .emit)).fb = s.fb ∧
      (s.runWork ((es ++ e :: later).map .emit)).offered = some (s.tokenOf e) ∧
      (s.runWork ((es ++ e :: later).map .emit)).mode = .exec ∧
      (s.runWork ((es ++ e :: later).map .emit)).work = some ((e :: later).map .emit) ∧
      (s.runWork ((es ++ e :: later).map .emit)).result = s.result ∧
      (s.runWork ((es ++ e :: later).map .emit)).sticky = s.sticky ∧
      (s.runWork ((es ++ e :: later).map .emit)).current = s.current ∧
      (s.runWork ((es ++ e :: later).map .emit)).dropped = s.dropped := by
  induction es generalizing s with
  | nil =>
    simp only [List.length_nil, List.replicate_zero] at h
    simp [State.runWork, State.perform, State.emitToken, h]
  | cons e' es ih =>
    have ha : s.answers = .accepted :: List.replicate es.length .accepted := by
      rw [h, List.length_cons, List.replicate_succ]
    obtain ⟨h1, h2, h3, h4, h5⟩ := ih (s.deliver e' _) rfl
    rw [List.cons_append, runWork_emit_cons ha]
    refine ⟨?_, h2, h3, ?_, h5⟩
    · rw [h1, deliver_tokenOf]
      simp [State.deliver]
    · rw [h4, deliver_tokenOf]

end Sys2Proof.Machine
end

