-- ==== Sys2Proof/Laws/Clear.lean ====
section
/-! SUPPORT. CLEAR: a run of byte writes, the byte it repeats at each depth, and the pixel that reads back from it. -/

namespace Sys2Proof.Machine

/-- Write runs of bytes in order. -/
def fillFb (s : State) (l : List (Nat × List Byte)) : State := l.foldl (fun u p => u.writeBytes p.1 p.2) s

/-- The work of runs of bytes. -/
def fillWork (l : List (Nat × List Byte)) : List Micro := l.map fun p => .fill p.1 p.2

theorem local_fillWork (l : List (Nat × List Byte)) : Local (fillWork l) := by
  intro e he; simp [fillWork] at he

theorem after_fillWork (s : State) (l : List (Nat × List Byte)) : s.after (fillWork l) = fillFb s l := by
  induction l generalizing s with
  | nil => rfl
  | cons p l ih => exact ih (s.writeBytes p.1 p.2)

theorem fillFb_eq (s : State) (l : List (Nat × List Byte)) : ∃ m, fillFb s l = { s with fb := m } := by
  induction l generalizing s with
  | nil => exact ⟨s.fb, rfl⟩
  | cons p l ih =>
    obtain ⟨m, h⟩ := ih (s.writeBytes p.1 p.2)
    exact ⟨m, h.trans (by rw [writeBytes_eq])⟩

/-- The same bytes again and again from index 0 on. -/
theorem readFb_fillFb_repeat (s : State) (vs : List Byte) (n j : Nat) :
    (fillFb s ((List.range n).map fun k => (vs.length * k, vs))).readFb j =
      if j < vs.length * n then vs.getD (j % vs.length) 0 else s.readFb j := by
  induction n with
  | zero => rfl
  | succ n ih =>
    rw [List.range_succ, List.map_append, fillFb, List.foldl_append]
    change ((fillFb s ((List.range n).map fun k => (vs.length * k, vs))).writeBytes (vs.length * n) vs).readFb j = _
    rw [readFb_writeBytes, ih, Nat.mul_succ]
    by_cases h1 : j < vs.length * n
    · rw [if_neg (by omega), if_pos h1, if_pos (by omega)]
    · rw [if_neg h1]
      by_cases h2 : j < vs.length * n + vs.length
      · rw [if_pos (by omega), if_pos h2]
        obtain ⟨k, rfl⟩ : ∃ k, j = vs.length * n + k := ⟨j - vs.length * n, by omega⟩
        rw [Nat.mul_add_mod, Nat.mod_eq_of_lt (by omega), Nat.add_sub_cancel_left]
      · rw [if_neg (by omega), if_neg h2]

/-- The byte CLEAR leaves at index `i` (R190). -/
def clearByte (d : Depth) (c : Half) (i : Nat) : Byte :=
  (clearBytes d c).getD (i % (clearBytes d c).length) 0

/-- CLEAR's work is a run of equal fills. -/
theorem clearWork_eq {s : State} {d : Depth} (hd : depthOf s.depth.toNat = some d) (c : Half) :
    clearWork c s = fillWork ((List.range (s.fbLen / (clearBytes d c).length)).map fun k =>
      ((clearBytes d c).length * k, clearBytes d c)) := by
  simp only [clearWork, hd, fillWork, List.map_map]
  rfl

theorem stride_even {s : State} (hd : depthOf s.depth.toNat = some .sixteen) : s.stride = s.wm.toNat * 2 := by
  have h : s.depth.toNat = 16 := by
    unfold depthOf at hd
    repeat' split at hd
    all_goals first | assumption | cases hd
  rw [State.stride, strideOf, h, ceilDiv]; omega

/-- The runs of bytes of CLEAR take up the whole buffer: at 16 bits it has an even number of bytes (R77). -/
theorem clear_whole {s : State} {d : Depth} (hd : depthOf s.depth.toNat = some d) (c : Half) :
    (clearBytes d c).length * (s.fbLen / (clearBytes d c).length) = s.fbLen := by
  cases d with
  | sixteen =>
    change 2 * (s.fbLen / 2) = s.fbLen
    rw [State.fbLen, stride_even hd, Nat.mul_right_comm]; omega
  | _ => exact (Nat.one_mul _).trans (Nat.div_one _)

theorem clearByte_sixteen_eq (c : Half) (i : Nat) :
    clearByte .sixteen c i = if i % 2 = 0 then highByte c else lowByte c := by
  unfold clearByte clearBytes
  rcases Nat.mod_two_eq_zero_or_one i with h | h <;> simp [h]

theorem clearByte_one (c : Half) (i : Nat) : clearByte .one c i = if c.toNat % 2 = 1 then 0xFF else 0x00 := by
  have e : c.getLsbD 0 = decide (c.toNat % 2 = 1) := by
    rw [BitVec.getLsbD, Nat.testBit_zero]
  simp only [clearByte, clearBytes, List.length_singleton, Nat.mod_one, List.getD_cons_zero, e, decide_eq_true_eq]

theorem clearByte_two (c : Half) (i : Nat) : clearByte .two c i = BitVec.ofNat 8 (c.toNat % 4 * 0x55) := by
  apply BitVec.eq_of_toNat_eq
  simp only [clearByte, clearBytes, List.length_singleton, Nat.mod_one, List.getD_cons_zero, BitVec.toNat_mul,
    BitVec.toNat_setWidth, BitVec.extractLsb'_toNat, BitVec.toNat_ofNat, Nat.shiftRight_zero]
  omega

theorem clearByte_four (c : Half) (i : Nat) : clearByte .four c i = BitVec.ofNat 8 (c.toNat % 16 * 0x11) := by
  apply BitVec.eq_of_toNat_eq
  simp only [clearByte, clearBytes, List.length_singleton, Nat.mod_one, List.getD_cons_zero, BitVec.toNat_mul,
    BitVec.toNat_setWidth, BitVec.extractLsb'_toNat, BitVec.toNat_ofNat, Nat.shiftRight_zero]
  omega

theorem clearByte_sixteen (c : Half) (i : Nat) : clearByte .sixteen c i =
    if i % 2 = 0 then BitVec.ofNat 8 (c.toNat / 256) else BitVec.ofNat 8 (c.toNat % 256) := by
  rw [clearByte_sixteen_eq]
  split
  · apply BitVec.eq_of_toNat_eq
    simp [highByte, BitVec.extractLsb'_toNat, Nat.shiftRight_eq_div_pow]
  · apply BitVec.eq_of_toNat_eq
    simp [lowByte, BitVec.extractLsb'_toNat]

theorem clear_field (s : State) (d : Depth) (c : Half) (X Y : Nat)
    (h : ∀ k, k < (byteIndex d s.stride X Y).2 →
      s.readFb ((byteIndex d s.stride X Y).1 + k) = clearByte d c ((byteIndex d s.stride X Y).1 + k))
    (he : d = .sixteen → s.stride % 2 = 0) :
    s.getPixel d X Y = BitVec.ofNat 16 (c.toNat % 2 ^ d.bits) := by
  apply BitVec.eq_of_getLsbD_eq
  intro j hj
  rw [mod_bits _ _ _ hj]
  have h0 := h 0 (by cases d <;> simp [byteIndex])
  simp only [State.getPixel]
  simp only [Nat.add_zero] at h0
  cases d with
  | one =>
    simp only [h0, fieldOne_bit _ _ hj, clearByte, clearBytes, List.length_singleton, Nat.mod_one, List.getD_cons_zero,
      Depth.bits]
    by_cases hk : j < 1
    · have hj0 : j = 0 := by omega
      subst hj0
      have : ∀ k : Fin 8, (0xFF#8).getLsbD (7 - k.val) = true ∧ (0x00#8).getLsbD (7 - k.val) = false := by decide
      have := this ⟨X % 8, Nat.mod_lt _ (by norm_num)⟩
      cases hc : c.getLsbD 0
      · simp only [Bool.false_eq_true, if_false]; simp
      · simp only [if_true]; simpa using this.1
    · simp [hk]
  | two =>
    simp only [h0, fieldTwo_bit _ _ hj, clearByte, clearBytes, List.length_singleton, Nat.mod_one, List.getD_cons_zero,
      Depth.bits]
    by_cases hk : j < 2
    · have m : ∀ (v : BitVec 2) (k : Fin 4) (j : Fin 2),
          (v.setWidth 8 * 0x55#8).getLsbD (6 - 2 * k.val + j.val) = v.getLsbD j.val := by decide
      have := m (c.extractLsb' 0 2) ⟨X % 4, Nat.mod_lt _ (by norm_num)⟩ ⟨j, hk⟩
      simp only at this
      rw [this, BitVec.getLsbD_extractLsb']
      simp [hk]
    · simp [hk]
  | four =>
    simp only [h0, fieldFour_bit _ _ hj, clearByte, clearBytes, List.length_singleton, Nat.mod_one, List.getD_cons_zero,
      Depth.bits]
    by_cases hk : j < 4
    · have m : ∀ (v : BitVec 4) (k : Fin 2) (j : Fin 4),
          (v.setWidth 8 * 0x11#8).getLsbD ((if k.val = 0 then 4 else 0) + j.val) = v.getLsbD j.val := by decide
      have := m (c.extractLsb' 0 4) ⟨X % 2, Nat.mod_lt _ (by norm_num)⟩ ⟨j, hk⟩
      simp only at this
      rw [this, BitVec.getLsbD_extractLsb']
      simp [hk]
    · simp [hk]
  | sixteen =>
    have h1 := h 1 (by simp [byteIndex])
    have hs := he rfl
    have hpar : (byteIndex .sixteen s.stride X Y).1 % 2 = 0 := by
      simp only [byteIndex]
      rw [Nat.add_mod, Nat.mul_mod Y, hs]; simp
    simp only [h0, h1, clearByte_sixteen_eq, hpar, if_true, show ((byteIndex .sixteen s.stride X Y).1 + 1) % 2 ≠ 0 by omega,
      if_false, Depth.bits, hj, decide_true, Bool.true_and]
    rw [show (highByte c ++ lowByte c : Half) = (highByte c ++ lowByte c : BitVec (8 + 8)) from rfl,
      BitVec.getLsbD_append]
    simp only [highByte, lowByte, BitVec.getLsbD_extractLsb']
    split
    · simp_all
    · simp only [show j - 8 < 8 by omega, decide_true, Bool.true_and]; congr 1; omega

end Sys2Proof.Machine
end

