-- ==== Sys2Proof/Laws/Decode.lean ====
section
/-! SUPPORT. Fields and words: each field of an encoded word reads back, a header is accepted exactly when its row's
mask matches, and a payload reads back. -/

namespace Sys2Proof

/-! ### Opcodes -/

@[simp] theorem ofCode_code (op : Op) : Op.ofCode op.code = some op := by cases op <;> decide

theorem code_of_ofCode {b : Byte} {op : Op} (h : Op.ofCode b = some op) : op.code = b := by
  simpa using List.find?_some h

theorem ofCode_eq_none_iff {b : Byte} : Op.ofCode b = none ↔ ∀ op : Op, op.code ≠ b := by
  have : ∀ op : Op, op ∈ Op.all := fun op => by cases op <;> decide
  simp only [Op.ofCode, List.find?_eq_none, beq_iff_eq]
  exact ⟨fun h op => h op (this op), fun h op _ => h op⟩

/-! ### Bits of the words the encoder writes -/

theorem getLsbD_append32 {a b : Nat} (x : BitVec a) (y : BitVec b) (w : Word) (h : w.toNat = (x ++ y).toNat)
    (i : Nat) : w.getLsbD i = if i < b then y.getLsbD i else x.getLsbD (i - b) := by
  have e : w.getLsbD i = (x ++ y).getLsbD i := by simp only [BitVec.getLsbD, h]
  rw [e, BitVec.getLsbD_append]

theorem headerWord_bit (op : Op) (mod : Byte) (a16 : Half) (i : Nat) :
    (headerWord op mod a16).getLsbD i =
      if i < 8 then op.code.getLsbD i else if i < 16 then mod.getLsbD (i - 8) else a16.getLsbD (i - 16) := by
  rw [getLsbD_append32 (a16 ++ mod) op.code (headerWord op mod a16) rfl, BitVec.getLsbD_append]
  repeat' split
  all_goals first | rfl | omega

theorem pairWord_bit (x y : Half) (i : Nat) :
    (pairWord x y).getLsbD i = if i < 16 then x.getLsbD i else y.getLsbD (i - 16) :=
  getLsbD_append32 y x _ rfl i

theorem lowWord_bit (v : Half) (i : Nat) : (lowWord v).getLsbD i = if i < 16 then v.getLsbD i else false := by
  rw [getLsbD_append32 (0 : Half) v (lowWord v) rfl]
  simp

theorem backgroundWord_bit (bg : Half) (v : Byte) (i : Nat) :
    (backgroundWord bg v).getLsbD i =
      if i < 8 then v.getLsbD i else if i < 16 then false else bg.getLsbD (i - 16) := by
  rw [getLsbD_append32 (bg ++ (0 : Byte)) v (backgroundWord bg v) rfl, BitVec.getLsbD_append]
  repeat' split
  all_goals first | rfl | omega | simp

theorem payloadWord_bit (a b c d : Byte) (i : Nat) :
    (payloadWord a b c d).getLsbD i =
      if i < 8 then a.getLsbD i else if i < 16 then b.getLsbD (i - 8)
      else if i < 24 then c.getLsbD (i - 16) else d.getLsbD (i - 24) := by
  rw [getLsbD_append32 (d ++ c ++ b) a (payloadWord a b c d) rfl, BitVec.getLsbD_append, BitVec.getLsbD_append]
  repeat' split
  all_goals first | rfl | omega

theorem slotMod_bit (slot : BitVec 4) (i : Nat) :
    (slotMod slot).getLsbD i = if i < 4 then slot.getLsbD i else false := by
  have e : (slotMod slot).getLsbD i = ((0 : BitVec 4) ++ slot).getLsbD i := rfl
  rw [e, BitVec.getLsbD_append]
  repeat' split
  all_goals first | rfl | omega | simp

/-- A field is its bits. -/
theorem extract_eq {w k : Nat} (v : BitVec w) (lo : Nat) (f : BitVec k)
    (h : ∀ i, i < k → v.getLsbD (lo + i) = f.getLsbD i) : v.extractLsb' lo k = f := by
  apply BitVec.eq_of_getLsbD_eq
  intro i hi
  simp [hi, h i hi]

@[simp] theorem opField_headerWord (op : Op) (mod : Byte) (a16 : Half) :
    opField (headerWord op mod a16) = op.code :=
  extract_eq _ _ _ fun i hi => by rw [headerWord_bit]; simp [hi]

@[simp] theorem modField_headerWord (op : Op) (mod : Byte) (a16 : Half) : modField (headerWord op mod a16) = mod :=
  extract_eq _ _ _ fun i hi => by
    rw [headerWord_bit, if_neg (by omega), if_pos (by omega)]; congr 1; omega

@[simp] theorem a16Field_headerWord (op : Op) (mod : Byte) (a16 : Half) :
    a16Field (headerWord op mod a16) = a16 :=
  extract_eq _ _ _ fun i hi => by
    rw [headerWord_bit, if_neg (by omega), if_neg (by omega)]; congr 1; omega

@[simp] theorem slotField_headerWord (op : Op) (slot : BitVec 4) (a16 : Half) :
    slotField (headerWord op (slotMod slot) a16) = slot :=
  extract_eq _ _ _ fun i hi => by
    rw [headerWord_bit, if_neg (by omega), if_pos (by omega), slotMod_bit, if_pos (by omega)]; congr 1; omega

@[simp] theorem gwField_headerWord (op : Op) (mod gw gh : Byte) :
    gwField (headerWord op mod (gh ++ gw)) = gw :=
  extract_eq _ _ _ fun i hi => by
    have e : (gh ++ gw : Half).getLsbD (16 + i - 16) = (gh ++ gw : BitVec (8 + 8)).getLsbD i := by
      congr 1; omega
    rw [headerWord_bit, if_neg (by omega), if_neg (by omega), e, BitVec.getLsbD_append]; simp [hi]

@[simp] theorem ghField_headerWord (op : Op) (mod gw gh : Byte) :
    ghField (headerWord op mod (gh ++ gw)) = gh :=
  extract_eq _ _ _ fun i hi => by
    have e : (gh ++ gw : Half).getLsbD (24 + i - 16) = (gh ++ gw : BitVec (8 + 8)).getLsbD (8 + i) := by
      congr 1; omega
    rw [headerWord_bit, if_neg (by omega), if_neg (by omega), e, BitVec.getLsbD_append]; simp

theorem headerWord_bit8 (op : Op) (b : Bool) (a16 : Half) : (headerWord op (bitMod b) a16).getLsbD 8 = b := by
  rw [headerWord_bit]; cases b <;> rfl

@[simp] theorem pointStyleField_headerWord (op : Op) (style : PointStyle) (a16 : Half) :
    pointStyleField (headerWord op (bitMod (style == .square)) a16) = style := by
  rw [pointStyleField, headerWord_bit8]; cases style <;> rfl

@[simp] theorem lineStyleField_headerWord (op : Op) (style : LineStyle) (a16 : Half) :
    lineStyleField (headerWord op (bitMod (style == .dotted)) a16) = style := by
  rw [lineStyleField, headerWord_bit8]; cases style <;> rfl

@[simp] theorem fillField_headerWord (op : Op) (fill : Fill) (a16 : Half) :
    fillField (headerWord op (bitMod (fill == .filled)) a16) = fill := by
  rw [fillField, headerWord_bit8]; cases fill <;> rfl

@[simp] theorem loField_pairWord (x y : Half) : loField (pairWord x y) = x :=
  extract_eq _ _ _ fun i hi => by rw [pairWord_bit, if_pos (by omega)]; congr 1; omega

@[simp] theorem hiField_pairWord (x y : Half) : hiField (pairWord x y) = y :=
  extract_eq _ _ _ fun i hi => by rw [pairWord_bit, if_neg (by omega)]; congr 1; omega

@[simp] theorem loField_lowWord (v : Half) : loField (lowWord v) = v :=
  extract_eq _ _ _ fun i hi => by rw [lowWord_bit, if_pos (by omega)]; congr 1; omega

@[simp] theorem byteField_backgroundWord (bg : Half) (v : Byte) : byteField (backgroundWord bg v) = v :=
  extract_eq _ _ _ fun i hi => by rw [backgroundWord_bit, if_pos (by omega)]; congr 1; omega

@[simp] theorem hiField_backgroundWord (bg : Half) (v : Byte) : hiField (backgroundWord bg v) = bg :=
  extract_eq _ _ _ fun i hi => by
    rw [backgroundWord_bit, if_neg (by omega), if_neg (by omega)]; congr 1; omega

@[simp] theorem payloadBytes_payloadWord (a b c d : Byte) : payloadBytes (payloadWord a b c d) = [a, b, c, d] := by
  have h0 : (payloadWord a b c d).extractLsb' 0 8 = a := extract_eq _ _ _ fun i hi => by
    rw [payloadWord_bit, if_pos (by omega)]; congr 1; omega
  have h1 : (payloadWord a b c d).extractLsb' 8 8 = b := extract_eq _ _ _ fun i hi => by
    rw [payloadWord_bit, if_neg (by omega), if_pos (by omega)]; congr 1; omega
  have h2 : (payloadWord a b c d).extractLsb' 16 8 = c := extract_eq _ _ _ fun i hi => by
    rw [payloadWord_bit, if_neg (by omega), if_neg (by omega), if_pos (by omega)]; congr 1; omega
  have h3 : (payloadWord a b c d).extractLsb' 24 8 = d := extract_eq _ _ _ fun i hi => by
    rw [payloadWord_bit, if_neg (by omega), if_neg (by omega), if_neg (by omega)]; congr 1; omega
  rw [payloadBytes, h0, h1, h2, h3]

/-! ### Headers -/

/-- A header whose opcode is a row's is accepted for that row exactly when the row's reserved bits are 0 (R104). -/
theorem headerOp_eq_ok_iff {h : Word} {op : Op} :
    headerOp h = .ok op ↔ op.code = opField h ∧ h &&& op.reservedMask = 0 := by
  constructor
  · intro e
    unfold headerOp at e
    split at e
    · cases e
    · rename_i op' h'
      split at e
      · cases e; exact ⟨code_of_ofCode h', ‹_›⟩
      · cases e
  · rintro ⟨h1, h2⟩
    simp [headerOp, ← h1, h2]

/-- No bit of a header is set where its row's mask is. -/
theorem and_reserved_eq_zero {h m : Word} (e : ∀ i, i < 32 → m.getLsbD i = true → h.getLsbD i = false) :
    h &&& m = 0 := by
  apply BitVec.eq_of_getLsbD_eq
  intro i hi
  simp only [BitVec.getLsbD_and]
  cases hm : m.getLsbD i
  · simp
  · simp [e i hi hm]

/-! ### Payloads -/

/-- The characters of a payload word: its bytes up to the first zero one. -/
theorem payloadChars_payloadWord (a b c d : Byte) :
    payloadChars (payloadWord a b c d) = [a, b, c, d].takeWhile (fun c => c != 0) := by
  rw [payloadChars, payloadBytes_payloadWord]

theorem payloadChars_wellFormed (w : Word) : charsWellFormed (payloadChars w) = true := by
  rw [charsWellFormed, List.all_eq_true]
  exact fun c hc => List.mem_takeWhile_imp (p := fun c => c != 0) hc

theorem payloadChars_length (w : Word) : (payloadChars w).length ≤ 4 := by
  have := (List.takeWhile_sublist (fun c : Byte => c != 0) (l := payloadBytes w)).length_le
  simpa only [payloadChars, payloadBytes, List.length_cons, List.length_nil] using this

theorem takeWhile_wellFormed {cs ds : List Byte} (h : charsWellFormed cs = true) :
    (cs ++ 0 :: ds).takeWhile (fun c => c != 0) = cs := by
  induction cs with
  | nil => rfl
  | cons c cs ih =>
    simp only [charsWellFormed, List.all_cons, Bool.and_eq_true] at h
    rw [List.cons_append, List.takeWhile_cons, if_pos h.1, ih h.2]

/-- The words of a string read back to its characters (R112). -/
theorem payload_payloadWords (cs : List Byte) (h : charsWellFormed cs = true) (rest : List Word) :
    payload (payloadWords cs ++ rest) = some (cs, rest) := by
  induction cs using payloadWords.induct with
  | case1 a b c d cs ih =>
    have h4 : charsWellFormed [a, b, c, d] = true ∧ charsWellFormed cs = true := by
      simpa [charsWellFormed, and_assoc] using h
    have e : payloadChars (payloadWord a b c d) = [a, b, c, d] := by
      rw [payloadChars_payloadWord, List.takeWhile_eq_self_iff]
      exact fun x hx => List.all_eq_true.1 h4.1 x hx
    simp [payloadWords, payload, e, ih h4.2]
  | case2 a b c =>
    have e : payloadChars (payloadWord a b c 0) = [a, b, c] := by
      rw [payloadChars_payloadWord]; exact takeWhile_wellFormed (ds := []) h
    simp only [payloadWords, List.cons_append, List.nil_append, payload, e]
    rfl
  | case3 a b =>
    have e : payloadChars (payloadWord a b 0 0) = [a, b] := by
      rw [payloadChars_payloadWord]; exact takeWhile_wellFormed (ds := [0]) h
    simp only [payloadWords, List.cons_append, List.nil_append, payload, e]
    rfl
  | case4 a =>
    have e : payloadChars (payloadWord a 0 0 0) = [a] := by
      rw [payloadChars_payloadWord]; exact takeWhile_wellFormed (ds := [0, 0]) h
    simp only [payloadWords, List.cons_append, List.nil_append, payload, e]
    rfl
  | case5 =>
    have e : payloadChars (payloadWord 0 0 0 0) = [] := by rw [payloadChars_payloadWord]; rfl
    simp only [payloadWords, List.cons_append, List.nil_append, payload, e]
    rfl

/-- What a payload read holds: no zero byte among the characters, and the words it took are independent of what
follows (R112). -/
theorem payload_spec {ws : List Word} {cs : List Byte} {rest : List Word} (h : payload ws = some (cs, rest)) :
    charsWellFormed cs = true ∧ ∃ used, ws = used ++ rest ∧ used.length = cs.length / 4 + 1 ∧
      (∀ rest', payload (used ++ rest') = some (cs, rest')) ∧ ∀ k, k < used.length → payload (used.take k) = none := by
  induction ws generalizing cs with
  | nil => cases h
  | cons w ws ih =>
    have hall := payloadChars_wellFormed w
    have hle := payloadChars_length w
    simp only [payload] at h
    split at h
    · rename_i hlt
      simp only [Option.some.injEq, Prod.mk.injEq] at h
      obtain ⟨rfl, rfl⟩ := h
      refine ⟨hall, [w], rfl, by simp; omega, fun rest' => by simp [payload, hlt], ?_⟩
      intro k hk
      have : k = 0 := by simpa using hk
      subst this; rfl
    · rename_i hlt
      split at h
      · cases h
      · rename_i ds r hp
        simp only [Option.some.injEq, Prod.mk.injEq] at h
        obtain ⟨rfl, rfl⟩ := h
        obtain ⟨h1, used, rfl, hlen, h2, h3⟩ := ih hp
        refine ⟨?_, w :: used, rfl, ?_, fun rest' => by simp [payload, hlt, h2], ?_⟩
        · simp only [charsWellFormed, List.all_append, Bool.and_eq_true] at hall h1 ⊢
          exact ⟨hall, h1⟩
        · simp only [List.length_cons, List.length_append, hlen]; omega
        · intro k hk
          cases k with
          | zero => rfl
          | succ k =>
            have := h3 k (by simpa using hk)
            simp [payload, hlt, this]

end Sys2Proof
end

