-- ==== Sys2Proof/Laws/Engine.lean ====
section
/-! SUPPORT. Everything a command can do, said once: what its rule can come to (`planOf_cases`), and the frame of
running it. -/

namespace Sys2Proof.Machine

variable {s t : State}

/-- Every meaning is its plan, run (R300). -/
theorem exec_eq (i : Instr) (s : State) : exec i s = .next (s.runPlan (planOf i s)) := by cases i <;> rfl

/-! ### The codes an operand may carry -/

theorem rotOf_eq_none_iff {rot : Half} : rotOf rot = none ↔ rot ≠ 0 ∧ rot ≠ 90 ∧ rot ≠ 180 ∧ rot ≠ 270 := by
  unfold rotOf
  repeat' split
  all_goals simp_all

theorem depthOf_eq_none_iff {d : Byte} : depthOf d.toNat = none ↔ d ≠ 1 ∧ d ≠ 2 ∧ d ≠ 4 ∧ d ≠ 16 := by
  have e : ∀ n : Nat, n < 256 → (d = BitVec.ofNat 8 n ↔ d.toNat = n) := fun n hn => by
    rw [← BitVec.toNat_inj, BitVec.toNat_ofNat, Nat.mod_eq_of_lt (by omega)]
  have h1 := e 1 (by norm_num)
  have h2 := e 2 (by norm_num)
  have h4 := e 4 (by norm_num)
  have h16 := e 16 (by norm_num)
  unfold depthOf
  constructor
  · intro h
    repeat' split at h
    all_goals first | exact ⟨h1.not.2 ‹_›, h2.not.2 ‹_›, h4.not.2 ‹_›, h16.not.2 ‹_›⟩ | cases h
  · rintro ⟨a1, a2, a4, a16⟩
    rw [ne_eq] at a1 a2 a4 a16
    rw [if_neg (h1.not.1 a1), if_neg (h2.not.1 a2), if_neg (h4.not.1 a4), if_neg (h16.not.1 a16)]

/-! ### What a command's rule can come to -/

/-- What each configuration command changes (R140, R142, R144, R146, R148, R150). -/
def Configures (s : State) (i : Instr) (s' : State) : Prop :=
  match i with
  | .nop => s' = s
  | .surfInit bg wm hm rot =>
    s' = ({ s with wm := wm, hm := hm, rot := rot, bg := bg, mirror := 0, depth := 1, cfgValid := true }).forgetFb
  | .setRotation rot => s.cfgValid = true ∧ s' = { s with rot := rot }
  | .setMirror mcode => s.cfgValid = true ∧ s' = { s with mirror := mcode.setWidth 2 }
  | .setDepth dcode => s.cfgValid = true ∧ s' = ({ s with depth := dcode.setWidth 5 }).forgetFb
  | .setFont slot gw gh base => s' = { s with fonts := s.fonts.set slot.toNat { base := base, w := gw, h := gh } }
  | .clear _ => False
  | .setPixel _ _ _ => False
  | .drawPoint _ _ _ _ _ => False
  | .drawLine _ _ _ _ _ _ => False
  | .drawRect _ _ _ _ _ _ => False
  | .drawCircle _ _ _ _ _ => False
  | .drawChar _ _ _ _ _ _ => False
  | .drawString _ _ _ _ _ _ => False
  | .drawNumber _ _ _ _ _ _ _ => False
  | .pushFrame => False

/-- The commands that draw or push a frame. -/
def IsConfig (i : Instr) : Prop :=
  i.op = .nop ∨ i.op = .surfInit ∨ i.op = .setRotation ∨ i.op = .setMirror ∨ i.op = .setDepth ∨ i.op = .setFont

theorem local_pixelsOf (c : Half) (ps : List (Int × Int)) : Local (pixelsOf c ps) := by
  intro e he; simp [pixelsOf] at he

theorem local_glyphWork (s : State) (f : Font) (x y : Int) (ch : Byte) (fg bg : Half) :
    Local (glyphWork s f x y ch fg bg) := by
  intro e he
  unfold glyphWork at he
  dsimp only at he
  repeat' split at he
  all_goals simp [glyphRow] at he

theorem local_stringWork (s : State) (f : Font) (X Y : Int) (fg bg : Half) (cs : List Byte) :
    Local (stringWork s f X Y fg bg cs) := by
  intro e he
  simp only [stringWork, List.mem_flatMap] at he
  obtain ⟨_, _, he⟩ := he
  exact local_glyphWork _ _ _ _ _ _ _ _ he

/-- The work of a command that draws: it hands tokens to the transport only when it is PUSH_FRAME, fills bytes of
the buffer only, and only when it is CLEAR. -/
def Draws (s : State) (i : Instr) (ms : List Micro) : Prop :=
  (i ≠ .pushFrame → Local ms) ∧ (i = .pushFrame → ms = (frameEmissions s).map .emit) ∧
    ∀ k vs, Micro.fill k vs ∈ ms → k + vs.length ≤ s.fbLen

theorem draws_local {i : Instr} {ms : List Micro} (hi : i ≠ .pushFrame) (h : Local ms)
    (hf : ∀ k v, Micro.fill k v ∉ ms) : Draws s i ms :=
  ⟨fun _ => h, fun e => absurd e hi, fun k v hk => absurd hk (hf k v)⟩

theorem noFill_pixelsOf (c : Half) (ps : List (Int × Int)) (k : Nat) (v : List Byte) : Micro.fill k v ∉ pixelsOf c ps := by
  intro he; simp [pixelsOf] at he

theorem noFill_glyphWork (s : State) (f : Font) (x y : Int) (ch : Byte) (fg bg : Half) (k : Nat) (v : List Byte) :
    Micro.fill k v ∉ glyphWork s f x y ch fg bg := by
  intro he
  unfold glyphWork at he
  dsimp only at he
  repeat' split at he
  all_goals simp [glyphRow] at he

theorem noFill_stringWork (s : State) (f : Font) (X Y : Int) (fg bg : Half) (cs : List Byte) (k : Nat) (v : List Byte) :
    Micro.fill k v ∉ stringWork s f X Y fg bg cs := by
  intro he
  simp only [stringWork, List.mem_flatMap] at he
  obtain ⟨_, _, he⟩ := he
  exact noFill_glyphWork _ _ _ _ _ _ _ _ _ he

theorem needsSurface_false {p : Plan} (h : s.cfgValid = false) : s.needsSurface p = .reject .unsupported := by
  simp [State.needsSurface, h]

theorem needsSurface_true {p : Plan} (h : s.cfgValid = true) : s.needsSurface p = p := by
  simp [State.needsSurface, h]

/-- Without a Surface every command that needs one comes to a rejection (R303). -/
theorem planOf_unconfigured {i : Instr} (h : s.cfgValid = false) (hi : ¬ NeedsNoSurface i) :
    planOf i s = .reject .unsupported := by
  cases i with
  | nop => exact absurd (Or.inl rfl) hi
  | surfInit => exact absurd (Or.inr (Or.inl rfl)) hi
  | setFont => exact absurd (Or.inr (Or.inr rfl)) hi
  | _ => exact needsSurface_false h

theorem ceilDiv_eight (a : Nat) : ceilDiv a 8 = (a + 7) / 8 := rfl

/-- The configuration commands' rejections are those of `ConfigRejects`; when none applies the command writes its
registers (R141 to R150). -/
theorem planOf_config {i : Instr} (hi : IsConfig i) :
    (ConfigRejects s i ∧ planOf i s = .reject .unsupported) ∨
      (¬ ConfigRejects s i ∧ ∃ s', planOf i s = .configure s' ∧ Configures s i s') := by
  cases i with
  | nop => exact Or.inr ⟨id, s, rfl, rfl⟩
  | surfInit bg wm hm rot =>
    simp only [planOf, planSurfInit, ConfigRejects, Configures, rotOf_eq_none_iff]
    by_cases h1 : wm = 0 ∨ hm = 0
    · rw [if_pos h1]; exact Or.inl ⟨by tauto, rfl⟩
    · rw [if_neg h1]
      by_cases h2 : rot ≠ 0 ∧ rot ≠ 90 ∧ rot ≠ 180 ∧ rot ≠ 270
      · rw [if_pos h2]; exact Or.inl ⟨by tauto, rfl⟩
      · rw [if_neg h2]
        by_cases h3 : ceilDiv wm.toNat 8 * hm.toNat > s.params.fbCapacity
        · rw [if_pos h3]; rw [ceilDiv_eight] at h3; exact Or.inl ⟨by tauto, rfl⟩
        · rw [if_neg h3]; rw [ceilDiv_eight] at h3; exact Or.inr ⟨by tauto, _, rfl, rfl⟩
  | setRotation rot =>
    simp only [planOf, planSetRotation, ConfigRejects, Configures, rotOf_eq_none_iff]
    cases hc : s.cfgValid with
    | false => rw [needsSurface_false hc]; exact Or.inl ⟨Or.inl rfl, rfl⟩
    | true =>
      rw [needsSurface_true hc]
      by_cases h2 : rot ≠ 0 ∧ rot ≠ 90 ∧ rot ≠ 180 ∧ rot ≠ 270
      · rw [if_pos h2]; exact Or.inl ⟨Or.inr h2, rfl⟩
      · rw [if_neg h2]; exact Or.inr ⟨fun h => h.elim nofun h2, _, rfl, rfl, rfl⟩
  | setMirror mcode =>
    simp only [planOf, planSetMirror, ConfigRejects, Configures]
    cases hc : s.cfgValid with
    | false => rw [needsSurface_false hc]; exact Or.inl ⟨Or.inl rfl, rfl⟩
    | true =>
      rw [needsSurface_true hc]
      by_cases h2 : mcode.toNat > 3
      · rw [if_pos h2]; exact Or.inl ⟨Or.inr h2, rfl⟩
      · rw [if_neg h2]; exact Or.inr ⟨fun h => h.elim nofun h2, _, rfl, rfl, rfl⟩
  | setDepth dcode =>
    simp only [planOf, planSetDepth, ConfigRejects, Configures, depthOf_eq_none_iff]
    cases hc : s.cfgValid with
    | false => rw [needsSurface_false hc]; exact Or.inl ⟨Or.inl rfl, rfl⟩
    | true =>
      rw [needsSurface_true hc]
      by_cases h2 : dcode ≠ 1 ∧ dcode ≠ 2 ∧ dcode ≠ 4 ∧ dcode ≠ 16
      · rw [if_pos h2]; exact Or.inl ⟨Or.inr (Or.inl h2), rfl⟩
      · rw [if_neg h2]
        by_cases h3 : ceilDiv (s.wm.toNat * dcode.toNat) 8 * s.hm.toNat > s.params.fbCapacity
        · rw [if_pos h3]; exact Or.inl ⟨Or.inr (Or.inr h3), rfl⟩
        · rw [if_neg h3]; exact Or.inr ⟨fun h => h.elim nofun fun h => h.elim h2 h3, _, rfl, rfl, rfl⟩
  | setFont slot gw gh base =>
    simp only [planOf, planSetFont, ConfigRejects, Configures]
    by_cases h1 : slot.toNat ≥ s.params.fontSlots
    · rw [if_pos h1]; exact Or.inl ⟨Or.inl h1, rfl⟩
    · rw [if_neg h1]
      by_cases h2 : gw = 0 ∨ gh = 0
      · rw [if_pos h2]; exact Or.inl ⟨Or.inr h2, rfl⟩
      · rw [if_neg h2]; exact Or.inr ⟨by tauto, _, rfl, rfl⟩
  | _ => rcases hi with h | h | h | h | h | h <;> cases h

/-- The drawing commands, with a Surface: a rejection with UNSUPPORTED or RESOURCE, or work to do. -/
theorem planOf_drawing {i : Instr} (hi : ¬ IsConfig i) (hc : s.cfgValid = true) :
    planOf i s = .reject .unsupported ∨ planOf i s = .reject .resource ∨
      ∃ ms, planOf i s = .draw ms ∧ Draws s i ms := by
  cases i with
  | nop | surfInit | setRotation | setMirror | setDepth | setFont => exact absurd (by simp [IsConfig, Instr.op]) hi
  | clear color =>
    refine Or.inr (Or.inr ⟨_, needsSurface_true hc, ⟨fun _ e he => ?_, nofun, fun k v he => ?_⟩⟩)
    · unfold clearWork at he
      split at he <;> simp at he
    · unfold clearWork at he
      split at he
      · simp at he
      · simp only [List.mem_map, List.mem_range, Micro.fill.injEq] at he
        obtain ⟨j, hj, rfl, rfl⟩ := he
        rename_i d _
        refine le_trans ?_ (Nat.mul_div_le s.fbLen (clearBytes d color).length)
        rw [← Nat.mul_succ]
        exact Nat.mul_le_mul_left _ hj
  | setPixel => exact Or.inr (Or.inr ⟨_, needsSurface_true hc, draws_local nofun (fun e he => by simp at he) (by simp)⟩)
  | drawPoint =>
    exact Or.inr (Or.inr ⟨_, needsSurface_true hc, draws_local nofun (local_pixelsOf _ _) (noFill_pixelsOf _ _)⟩)
  | drawLine =>
    exact Or.inr (Or.inr ⟨_, needsSurface_true hc, draws_local nofun (fun e he => by simp [lineWork] at he)
      (by simp [lineWork])⟩)
  | drawRect =>
    exact Or.inr (Or.inr ⟨_, needsSurface_true hc, draws_local nofun (local_pixelsOf _ _) (noFill_pixelsOf _ _)⟩)
  | drawCircle =>
    exact Or.inr (Or.inr ⟨_, needsSurface_true hc, draws_local nofun (local_pixelsOf _ _) (noFill_pixelsOf _ _)⟩)
  | drawChar =>
    simp only [planOf, planDrawChar, State.needsFont, needsSurface_true hc]
    split
    · exact Or.inl rfl
    · exact Or.inr (Or.inr ⟨_, rfl, draws_local nofun (local_glyphWork _ _ _ _ _ _ _) (noFill_glyphWork _ _ _ _ _ _ _)⟩)
  | drawString =>
    simp only [planOf, planDrawString, State.needsFont, needsSurface_true hc]
    split
    · exact Or.inl rfl
    · exact Or.inr (Or.inr ⟨_, rfl, draws_local nofun (local_stringWork _ _ _ _ _ _ _) (noFill_stringWork _ _ _ _ _ _ _)⟩)
  | drawNumber =>
    simp only [planOf, planDrawNumber, State.needsFont, needsSurface_true hc]
    split
    · exact Or.inl rfl
    · split
      · exact Or.inr (Or.inl rfl)
      · exact Or.inr (Or.inr ⟨_, rfl, draws_local nofun (local_stringWork _ _ _ _ _ _ _)
          (noFill_stringWork _ _ _ _ _ _ _)⟩)
  | pushFrame =>
    refine Or.inr (Or.inr ⟨_, needsSurface_true hc, ⟨fun h => absurd rfl h, fun _ => rfl, fun k v he => ?_⟩⟩)
    simp at he

/-- Everything a command's rule can come to. -/
theorem planOf_cases (i : Instr) (s : State) :
    (∃ c, planOf i s = .reject c ∧ (c = .unsupported ∨ c = .resource)) ∨
      (∃ s', planOf i s = .configure s' ∧ IsConfig i ∧ ¬ ConfigRejects s i ∧ Configures s i s') ∨
      (∃ ms, planOf i s = .draw ms ∧ ¬ IsConfig i ∧ s.cfgValid = true ∧ Draws s i ms) := by
  by_cases hi : IsConfig i
  · rcases planOf_config (s := s) hi with ⟨_, h⟩ | ⟨hn, s', h, hc⟩
    · exact Or.inl ⟨_, h, Or.inl rfl⟩
    · exact Or.inr (Or.inl ⟨s', h, hi, hn, hc⟩)
  · cases hc : s.cfgValid with
    | false =>
      refine Or.inl ⟨_, planOf_unconfigured hc fun hn => hi ?_, Or.inl rfl⟩
      rcases hn with h | h | h
      · exact Or.inl h
      · exact Or.inr (Or.inl h)
      · exact Or.inr (Or.inr (Or.inr (Or.inr (Or.inr h))))
    | true =>
      rcases planOf_drawing hi hc with h | h | ⟨ms, h, hd⟩
      · exact Or.inl ⟨_, h, Or.inl rfl⟩
      · exact Or.inl ⟨_, h, Or.inr rfl⟩
      · exact Or.inr (Or.inr ⟨ms, h, hi, rfl, hd⟩)

/-! ### Running a plan -/

/-- A rejection changes `STATUS` only (R306). -/
theorem runPlan_reject (s : State) (c : Result) : s.OnlyStatus (s.runPlan (.reject c)) c := by
  simp [State.OnlyStatus, State.SameSurface, State.SameFonts, State.SameFb, State.SameOutside, State.SameTransport,
    State.Ended, State.runPlan, State.readFb]

/-- What running a configuration leaves (R300, R343). -/
theorem runPlan_configure (s s' : State) : s.runPlan (.configure s') =
    { s' with
      result := .ok, sticky := s'.sticky ||| 0, mode := .idle, current := [], work := none, dropped := false
      offered := none, fontChanges := changesAfter s'.current.length s'.fontChanges } := rfl

/-- Work that hands no token to the transport always ends its command, with OK or OOB, and leaves the transport
alone. -/
theorem runWork_local (u : State) {ms : List Micro} (h : Local ms) :
    (∃ c, u.Ended (u.runWork ms) c ∧ (c = .ok ∨ c = .oob)) ∧ u.SameTransport (u.runWork ms) := by
  induction ms generalizing u with
  | nil =>
    refine ⟨⟨if u.dropped then .oob else .ok, by simp [State.Ended, State.runWork, State.completeDrawn], ?_⟩, by
      simp [State.SameTransport, State.runWork, State.completeDrawn]⟩
    cases u.dropped <;> simp
  | cons m ms ih =>
    have hl : Local ms := fun e he => h e (List.mem_cons_of_mem _ he)
    have hm : ∃ u', u.perform m = .done u' ∧ u.SameTransport u' := by
      cases m with
      | pixel x y c =>
        refine ⟨_, rfl, ?_⟩
        rw [writePixel_eq]; exact ⟨rfl, rfl⟩
      | cell x y glyph size addr bit fg bg =>
        refine ⟨_, rfl, ?_⟩
        unfold State.drawCell
        dsimp only
        repeat' split
        all_goals first | (rw [writePixel_eq]; exact ⟨rfl, rfl⟩) | exact ⟨rfl, rfl⟩
      | dropChar => exact ⟨_, rfl, rfl, rfl⟩
      | fill i vs => exact ⟨_, rfl, by rw [writeBytes_eq]; exact ⟨rfl, rfl⟩⟩
      | emit e => exact absurd List.mem_cons_self (h e)
    obtain ⟨u', hu, ht⟩ := hm
    have hs := (perform_frame u m u' (Or.inl hu)).2.2.1
    have e : u.runWork (m :: ms) = u'.runWork ms := by simp only [State.runWork, hu]
    obtain ⟨⟨c, hc, hc'⟩, hi⟩ := ih u' hl
    rw [e]
    refine ⟨⟨c, by simpa only [State.Ended, hs] using hc, hc'⟩, ?_⟩
    exact ⟨hi.1.trans ht.1, hi.2.trans ht.2⟩

/-- One piece of work keeps every byte at or above `FB_LEN`, when the bytes it fills lie below (R82). -/
theorem perform_outside (u : State) (m : Micro) (hf : ∀ k vs, m = .fill k vs → k + vs.length ≤ u.fbLen) {j : Nat}
    (hj : u.fbLen ≤ j) : ∀ u', (u.perform m = .done u' ∨ (∃ c, u.perform m = .reject c u') ∨ u.perform m = .waiting u') →
      u'.readFb j = u.readFb j := by
  intro u' h
  cases m with
  | pixel x y c =>
    simp only [State.perform, MicroOutcome.done.injEq, reduceCtorEq, exists_false, or_false] at h
    subst h; exact readFb_writePixel_outside _ _ _ _ hj
  | cell x y glyph size addr bit fg bg =>
    simp only [State.perform, MicroOutcome.done.injEq, reduceCtorEq, exists_false, or_false] at h
    subst h
    unfold State.drawCell
    dsimp only
    repeat' split
    · rw [readFb_writePixel_outside _ _ _ _ (by exact hj)]; rfl
    · rfl
    · exact readFb_writePixel_outside _ _ _ _ hj
    · exact readFb_writePixel_outside _ _ _ _ hj
    · rfl
  | dropChar =>
    simp only [State.perform, MicroOutcome.done.injEq, reduceCtorEq, exists_false, or_false] at h
    subst h; rfl
  | fill i vs =>
    simp only [State.perform, MicroOutcome.done.injEq, reduceCtorEq, exists_false, or_false] at h
    subst h
    have := hf i vs rfl
    rw [readFb_writeBytes, if_neg (by omega)]
  | emit e =>
    simp only [State.perform, State.emitToken] at h
    split at h
    all_goals rcases h with h | ⟨c, h⟩ | h <;> cases h
    all_goals rfl

/-- A run of work keeps every byte at or above `FB_LEN` (R82). -/
theorem runWork_outside (u : State) (ms : List Micro) (hf : ∀ k vs, Micro.fill k vs ∈ ms → k + vs.length ≤ u.fbLen) {j : Nat}
    (hj : u.fbLen ≤ j) : (u.runWork ms).readFb j = u.readFb j := by
  induction ms generalizing u with
  | nil => rfl
  | cons m ms ih =>
    have hm := perform_outside u m (fun k v e => hf k v (e ▸ List.mem_cons_self)) hj
    cases h : u.perform m with
    | done u' =>
      have e : u.runWork (m :: ms) = u'.runWork ms := by simp only [State.runWork, h]
      have hl := sameSurface_fbLen ((perform_frame u m u' (Or.inl h)).1).1
      rw [e, ih u' (fun k v hk => hl ▸ hf k v (List.mem_cons_of_mem _ hk)) (hl ▸ hj), hm u' (Or.inl h)]
    | reject c u' =>
      have e : u.runWork (m :: ms) = u'.complete c := by simp only [State.runWork, h]
      rw [e]; exact hm u' (Or.inr (Or.inl ⟨c, h⟩))
    | waiting u' =>
      have e : u.runWork (m :: ms) = { u' with mode := .exec, work := some (m :: ms) } := by
        simp only [State.runWork, h]
      rw [e]; exact hm u' (Or.inr (Or.inr h))

/-- A run of tokens leaves the framebuffer alone. -/
theorem runWork_emit_fb (u : State) (es : List Emission) : (u.runWork (es.map .emit)).fb = u.fb := by
  induction es generalizing u with
  | nil => rfl
  | cons e es ih =>
    simp only [List.map_cons, State.runWork, State.perform, State.emitToken]
    cases u.answers with
    | nil => rfl
    | cons a rest =>
      cases a
      · exact ih (u.deliver e rest)
      · rfl

/-! ### What a command does, from what its rule comes to -/

theorem draws_same {s : State} {ms : List Micro} : s.SameButDrawing (s.runPlan (.draw ms)) :=
  sameButDrawing_trans (sameButDrawing_begin s) (runWork_cases s.begin ms).1

theorem config_reject {s : State} {i : Instr} (hi : IsConfig i) (h : ConfigRejects s i) :
    ∃ t, exec i s = .next t ∧ s.OnlyStatus t .unsupported := by
  rcases planOf_config (s := s) hi with ⟨_, e⟩ | ⟨hn, _⟩
  · exact ⟨_, by rw [exec_eq, e], runPlan_reject _ _⟩
  · exact absurd h hn

theorem config_ok {s : State} {i : Instr} (hi : IsConfig i) (h : ¬ ConfigRejects s i) :
    ∃ s', Configures s i s' ∧ exec i s = .next { s' with
      result := .ok, sticky := s'.sticky ||| 0, mode := .idle, current := [], work := none, dropped := false
      offered := none, fontChanges := changesAfter s'.current.length s'.fontChanges } := by
  rcases planOf_config (s := s) hi with ⟨hn, e⟩ | ⟨hn, s', e, hc⟩
  · exact absurd hn h
  · exact ⟨s', hc, by rw [exec_eq, e, runPlan_configure]⟩

theorem pixel_cmd {i : Instr} {s : State} {ps : List (Int × Int × Half)}
    (h : planOf i s = .draw (pixelWork ps)) :
    ∃ t, exec i s = .next t ∧ (∀ j, t.readFb j = (s.paint ps).readFb j) ∧ (∀ j, s.fbLen ≤ j → t.readFb j = s.readFb j) ∧
      s.Ended t (s.paintResult ps) ∧ s.SameButDrawing t ∧ s.SameTransport t := by
  obtain ⟨h1, h2, h3, h4⟩ := runPlan_pixelWork s ps
  have e : ∀ j, (s.runPlan (.draw (pixelWork ps))).readFb j = (s.paint ps).readFb j := fun j =>
    readFb_congr h1 (h3.2.2.2.trans (sameButDrawing_paint s ps).2.2.2.symm) j
  exact ⟨_, by rw [exec_eq, h], e, fun j hj => by rw [e, readFb_paint_outside _ _ hj], h2, h3, h4⟩

theorem pixelsOf_eq (c : Half) (ps : List (Int × Int)) : pixelsOf c ps = pixelWork (ps.map fun p => (p.1, p.2, c)) := by
  simp [pixelsOf, pixelWork]

theorem needsFont_reject {s : State} {slot : BitVec 4} {k : Font → Plan}
    (h : slot.toNat ≥ s.params.fontSlots ∨ (s.font slot.toNat).w = 0) : s.needsFont slot k = .reject .unsupported := by
  unfold State.needsFont State.needsSurface
  rw [if_pos h]; split <;> rfl

theorem needsFont_ok {s : State} {slot : BitVec 4} {k : Font → Plan} (hc : s.cfgValid = true)
    (h : slot.toNat < s.params.fontSlots) (hw : (s.font slot.toNat).w ≠ 0) : s.needsFont slot k = k (s.font slot.toNat) := by
  unfold State.needsFont State.needsSurface
  rw [if_pos hc, if_neg]
  rintro (h' | h')
  · omega
  · exact hw h'

/-! ### What a command's work is made from -/

/-- What the work of a command is made from is the same: the Surface registers, the font table, the parameters and the
size of font memory. -/
structure SameSource (s t : State) : Prop where
  surface : s.SameSurface t
  fonts : t.fonts = s.fonts
  params : t.params = s.params
  fontSize : t.fontMem.length = s.fontMem.length

theorem SameSource.of_drawing (h : s.SameButDrawing t) : SameSource s t :=
  ⟨h.1, h.2.1.1, h.2.2.1.1, congrArg List.length h.2.1.2⟩

theorem glyphWork_congr (h : SameSource s t) (f : Font) (x y : Int) (ch : Byte) (fg bg : Half) :
    glyphWork t f x y ch fg bg = glyphWork s f x y ch fg bg := by
  have e : t.fontMemSize = s.fontMemSize := h.fontSize
  unfold glyphWork
  rw [sameSurface_width h.surface, sameSurface_height h.surface, e]

theorem cursorPath_congr (h : SameSource s t) (f : Font) (X Y : Int) (cs : List Byte) (p : Int × Int) :
    cursorPath t f X Y p cs = cursorPath s f X Y p cs := by
  have e : ∀ p, placeCursor t f X Y p = placeCursor s f X Y p := fun p => by
    unfold placeCursor
    rw [sameSurface_width h.surface, sameSurface_height h.surface]
  induction cs generalizing p with
  | nil => rfl
  | cons c cs ih => simp only [cursorPath, e, ih]

/-- A command that draws has the same work wherever what it is made from is the same. -/
theorem planOf_congr {i : Instr} (hi : ¬ IsConfig i) (h : SameSource s t) : planOf i t = planOf i s := by
  have hc : t.cfgValid = s.cfgValid := h.surface.2.2.2.2.2.2
  have surf : ∀ {p q : Plan}, p = q → t.needsSurface p = s.needsSurface q := fun e => by
    unfold State.needsSurface
    rw [hc, e]
  have font : ∀ (slot : BitVec 4) (k l : Font → Plan), (∀ f, k f = l f) → t.needsFont slot k = s.needsFont slot l :=
    fun slot k l e => by
      have ef : t.font slot.toNat = s.font slot.toNat := by unfold State.font; rw [h.fonts]
      unfold State.needsFont
      refine surf ?_
      rw [h.params, ef, e]
  have str : ∀ (f : Font) (X Y : Int) (fg bg : Half) (cs : List Byte),
      stringWork t f X Y fg bg cs = stringWork s f X Y fg bg cs := fun f X Y fg bg cs => by
    unfold stringWork
    rw [cursorPath_congr h]
    simp only [glyphWork_congr h]
  cases i with
  | nop | surfInit | setRotation | setMirror | setDepth | setFont => exact absurd (by simp [IsConfig, Instr.op]) hi
  | clear color =>
    refine surf (congrArg Plan.draw ?_)
    unfold clearWork
    rw [sameSurface_fbLen h.surface, h.surface.2.2.2.2.1]
  | setPixel | drawPoint | drawRect | drawCircle => exact surf rfl
  | drawLine =>
    refine surf (congrArg Plan.draw ?_)
    rw [h.surface.2.2.2.2.2.1]
  | drawChar =>
    simp only [planOf, planDrawChar]
    exact font _ _ _ fun f => congrArg Plan.draw (glyphWork_congr h ..)
  | drawString =>
    simp only [planOf, planDrawString]
    exact font _ _ _ fun f => congrArg Plan.draw (str ..)
  | drawNumber =>
    simp only [planOf, planDrawNumber]
    refine font _ _ _ fun f => ?_
    split
    · rfl
    · exact congrArg Plan.draw (str ..)
  | pushFrame =>
    refine surf (congrArg (fun es : List Emission => Plan.draw (es.map Micro.emit)) ?_)
    unfold frameEmissions
    rw [h.surface.2.1, sameSurface_stride h.surface]

/-! ### The engine's step -/

theorem engineStep_none {s : State} (h1 : s.mode ≠ .halted) (h2 : s.work = none) :
    engineStep s = match decode (s.current ++ s.stream) with
      | .command i rest => exec i (s.takeCommand ((s.current ++ s.stream).take ((s.current ++ s.stream).length - rest.length)) rest)
      | .illegal _ => .next s.halt
      | .incomplete => .next s.collect := by
  unfold engineStep
  cases hm : s.mode with
  | halted => exact absurd hm h1
  | idle => simp only [h2]; all_goals rfl
  | exec => simp only [h2]; all_goals rfl

theorem engineStep_some {s : State} {ms : List Micro} (h1 : s.mode ≠ .halted) (h2 : s.work = some ms) :
    engineStep s = .next (s.runWork ms) := by
  unfold engineStep
  cases hm : s.mode with
  | halted => exact absurd hm h1
  | idle => rw [h2]
  | exec => rw [h2]

theorem engineStep_halted {s : State} (h1 : s.mode = .halted) :
    engineStep s = .next { s with fifo := [], held := none } := by
  unfold engineStep; rw [h1]

/-! ### The tokens of a frame -/

theorem frameTokens_eq (s : State) : s.frameTokens = (frameEmissions s).map s.tokenOf := by
  simp only [State.frameTokens, frameEmissions, List.map_flatMap, rowEmissions, List.map_cons]
  rfl

theorem split_frame {s : State} {before later : List Token} {tok : Token} (h : s.frameTokens = before ++ tok :: later) :
    ∃ es e ls, frameEmissions s = es ++ e :: ls ∧ es.map s.tokenOf = before ∧ s.tokenOf e = tok ∧ ls.map s.tokenOf = later := by
  rw [frameTokens_eq] at h
  obtain ⟨es, r, h1, h2, h3⟩ := List.map_eq_append_iff.1 h
  obtain ⟨e, ls, h4, h5, h6⟩ := List.map_eq_cons_iff.1 h3
  exact ⟨es, e, ls, by rw [h1, h4], h2, h5, h6⟩

end Sys2Proof.Machine
end

