-- ==== Sys2Proof/Laws/Stream.lean ====
section
/-! SUPPORT. The decoder over a stream of words: what a header, an encoded header, a whole command and a part of one come to. -/

namespace Sys2Proof

open Sys2Proof.Machine

theorem header_ok (op : Op) (mod : Byte) (a16 : Half) (h : headerWord op mod a16 &&& op.reservedMask = 0) :
    headerOp (headerWord op mod a16) = .ok op := headerOp_eq_ok_iff.2 ⟨by simp, h⟩

theorem decode_cons {h : Word} {op : Op} (e : headerOp h = .ok op) (ws : List Word) :
    decode (h :: ws) = decodeOperands op h ws := by
  simp only [decode, e]

theorem len_payload (cs : List Byte) : (payloadWords cs).length = cs.length / 4 + 1 := by
  induction cs using payloadWords.induct with
  | case1 a b c d cs ih => simp [payloadWords, ih]; omega
  | case2 a b c => simp [payloadWords]
  | case3 a b => simp [payloadWords]
  | case4 a => simp [payloadWords]
  | case5 => simp [payloadWords]

theorem slotMod_reserved (op : Op) (hop : op.reservedMask = 0x0000F000) (slot : BitVec 4) (a16 : Half) :
    headerWord op (slotMod slot) a16 &&& op.reservedMask = 0 := by
  rw [hop]
  apply and_reserved_eq_zero
  intro i hi hm
  have : ∀ i : Fin 32, (0x0000F000#32).getLsbD i.val = true → 12 ≤ i.val ∧ i.val < 16 := by decide
  have := this ⟨i, hi⟩ hm
  simp only at this
  rw [headerWord_bit, if_neg (by omega), if_pos (by omega), slotMod_bit, if_neg (by omega)]

theorem bitMod_reserved (op : Op) (hop : op.reservedMask = 0x0000FE00) (b : Bool) (a16 : Half) :
    headerWord op (bitMod b) a16 &&& op.reservedMask = 0 := by
  rw [hop]
  apply and_reserved_eq_zero
  intro i hi hm
  have : ∀ i : Fin 32, (0x0000FE00#32).getLsbD i.val = true → 9 ≤ i.val ∧ i.val < 16 := by decide
  have := this ⟨i, hi⟩ hm
  simp only at this
  rw [headerWord_bit, if_neg (by omega), if_pos (by omega)]
  have : ∀ b : Bool, ∀ j : Fin 8, 1 ≤ j.val → (bitMod b).getLsbD j.val = false := by decide
  exact this b ⟨i - 8, by omega⟩ (by simp only; omega)

theorem zeroMod_reserved (op : Op) (hop : op.reservedMask = 0x0000FF00) (a16 : Half) :
    headerWord op 0 a16 &&& op.reservedMask = 0 := by
  rw [hop]
  apply and_reserved_eq_zero
  intro i hi hm
  have : ∀ i : Fin 32, (0x0000FF00#32).getLsbD i.val = true → 8 ≤ i.val ∧ i.val < 16 := by decide
  have := this ⟨i, hi⟩ hm
  simp only at this
  rw [headerWord_bit, if_neg (by omega), if_pos (by omega)]
  simp

theorem zeroA_reserved (op : Op) (hop : op.reservedMask = 0xFFFF0000) (m : Byte) :
    headerWord op m 0 &&& op.reservedMask = 0 := by
  rw [hop]
  apply and_reserved_eq_zero
  intro i hi hm
  have : ∀ i : Fin 32, (0xFFFF0000#32).getLsbD i.val = true → 16 ≤ i.val := by decide
  have := this ⟨i, hi⟩ hm
  simp only at this
  rw [headerWord_bit, if_neg (by omega), if_neg (by omega)]
  simp

theorem value_halves (v : BitVec 64) : (v.extractLsb' 32 32 ++ v.extractLsb' 0 32 : BitVec (32+32)) = v := by
  apply BitVec.eq_of_getLsbD_eq
  intro i hi
  rw [BitVec.getLsbD_append]
  split
  · simp_all
  · simp; rw [show 32 + (i - 32) = i by omega]; simp; intro; omega

theorem code_inj {a b : Op} (h : a.code = b.code) : a = b := by
  have := ofCode_code a; rw [h, ofCode_code] at this; simpa using this.symm

theorem low_mask_bit {i : Nat} (hi : i < 32) : (0xFF#32).getLsbD i = decide (i < 8) := by
  have : ∀ i : Fin 32, (0xFF#32).getLsbD i.val = decide (i.val < 8) := by decide
  exact this ⟨i, hi⟩

theorem opField_bit (h : Word) {i : Nat} (hi : i < 8) : (opField h).getLsbD i = h.getLsbD i := by
  simp only [opField, BitVec.getLsbD_extractLsb', hi, decide_true, Bool.true_and, Nat.zero_add]

theorem decodeOperands_ne_illegal (op : Op) (h : Word) (ws : List Word) (e : DecodeError) :
    decodeOperands op h ws ≠ .illegal e := by
  cases op <;> simp only [decodeOperands] <;> repeat' split
  all_goals exact nofun

theorem decode_illegal_iff (h : Word) (ws : List Word) (e : DecodeError) :
    decode (h :: ws) = .illegal e ↔ headerOp h = .error e := by
  cases hh : headerOp h with
  | error e' => simp only [decode, hh, DecodeResult.illegal.injEq, Except.error.injEq]
  | ok op =>
    rw [decode_cons hh]
    simp only [decodeOperands_ne_illegal, reduceCtorEq]

/-- Everything `decodeOperands` can do when it reads a command: the command is well formed, it took some words, as
many as its row says with the header, it does not depend on those after them, and no fewer would do (R103, R105,
R112). -/
theorem decodeOperands_spec {op : Op} {w : Word} {ws rest : List Word} {i : Instr}
    (h : decodeOperands op w ws = .command i rest) :
    i.wellFormed = true ∧ ∃ used, ws = used ++ rest ∧ used.length + 1 = wordCount i ∧
      (∀ rest', decodeOperands op w (used ++ rest') = .command i rest') ∧
      ∀ k, k < used.length → decodeOperands op w (used.take k) = .incomplete := by
  have key : ∀ used : List Word, ws = used ++ rest → (w :: used).length = wordCount i →
      (∀ rest', decodeOperands op w (used ++ rest') = .command i rest') →
      (∀ k, k < used.length → decodeOperands op w (used.take k) = .incomplete) →
      ∃ used, ws = used ++ rest ∧ used.length + 1 = wordCount i ∧
        (∀ rest', decodeOperands op w (used ++ rest') = .command i rest') ∧
        ∀ k, k < used.length → decodeOperands op w (used.take k) = .incomplete :=
    fun used h1 h2 h3 h4 => ⟨used, h1, h2, h3, h4⟩
  cases op with
  | drawString =>
    match ws, h with
    | [], h => cases h
    | [_], h => cases h
    | p :: b :: r, h =>
      simp only [decodeOperands] at h
      cases hp : payload r with
      | none => simp only [hp, reduceCtorEq] at h
      | some v =>
        obtain ⟨cs, r'⟩ := v
        simp only [hp, DecodeResult.command.injEq] at h
        obtain ⟨rfl, rfl⟩ := h
        obtain ⟨h1, used, rfl, h2, h3, h4⟩ := payload_spec hp
        refine ⟨h1, key (p :: b :: used) rfl (by simp [wordCount, h2]; omega) (fun rest' => ?_) (fun k hk => ?_)⟩
        · simp only [List.cons_append, decodeOperands, h3]
        · match k with
          | 0 => rfl
          | 1 => rfl
          | k + 2 =>
            simp only [List.take_succ_cons, decodeOperands, h4 k (by simpa using hk)]
  | nop => cases h; exact ⟨rfl, key [] rfl rfl (fun _ => rfl) (fun k hk => absurd hk (by simp))⟩
  | setRotation => cases h; exact ⟨rfl, key [] rfl rfl (fun _ => rfl) (fun k hk => absurd hk (by simp))⟩
  | setMirror => cases h; exact ⟨rfl, key [] rfl rfl (fun _ => rfl) (fun k hk => absurd hk (by simp))⟩
  | setDepth => cases h; exact ⟨rfl, key [] rfl rfl (fun _ => rfl) (fun k hk => absurd hk (by simp))⟩
  | clear => cases h; exact ⟨rfl, key [] rfl rfl (fun _ => rfl) (fun k hk => absurd hk (by simp))⟩
  | pushFrame => cases h; exact ⟨rfl, key [] rfl rfl (fun _ => rfl) (fun k hk => absurd hk (by simp))⟩
  | setFont =>
    match ws, h with
    | [], h => cases h
    | a :: r, h =>
      cases h
      exact ⟨rfl, key [a] rfl rfl (fun _ => rfl) (fun k hk => by
        match k, hk with
        | 0, _ => rfl)⟩
  | setPixel =>
    match ws, h with
    | [], h => cases h
    | a :: r, h =>
      cases h
      exact ⟨rfl, key [a] rfl rfl (fun _ => rfl) (fun k hk => by
        match k, hk with
        | 0, _ => rfl)⟩
  | drawNumber =>
    match ws, h with
    | [], h => cases h
    | [_], h => cases h
    | [_, _], h => cases h
    | [_, _, _], h => cases h
    | a :: b :: c :: d :: r, h =>
      cases h
      exact ⟨rfl, key [a, b, c, d] rfl rfl (fun _ => rfl) (fun k hk => by
        match k, hk with
        | 0, _ => rfl
        | 1, _ => rfl
        | 2, _ => rfl
        | 3, _ => rfl)⟩
  | _ =>
    match ws, h with
    | [], h => cases h
    | [_], h => cases h
    | a :: b :: r, h =>
      cases h
      exact ⟨rfl, key [a, b] rfl rfl (fun _ => rfl) (fun k hk => by
        match k, hk with
        | 0, _ => rfl
        | 1, _ => rfl)⟩

/-- A command read is read whatever follows it. -/
theorem decode_extend {ws : List Word} {i : Instr} {rest : List Word} (h : decode ws = .command i rest)
    (more : List Word) : decode (ws ++ more) = .command i (rest ++ more) := by
  cases ws with
  | nil => cases h
  | cons w ws =>
    cases hh : headerOp w with
    | error e => simp only [decode, hh, reduceCtorEq] at h
    | ok op =>
      rw [decode_cons hh] at h
      obtain ⟨_, used, rfl, _, h3, _⟩ := decodeOperands_spec h
      rw [List.cons_append, decode_cons hh, List.append_assoc, h3]

/-- A command takes at least its header. -/
theorem decode_shorter {ws : List Word} {i : Instr} {rest : List Word} (h : decode ws = .command i rest) :
    rest.length < ws.length := by
  cases ws with
  | nil => cases h
  | cons w ws =>
    cases hh : headerOp w with
    | error e => simp only [decode, hh, reduceCtorEq] at h
    | ok op =>
      rw [decode_cons hh] at h
      obtain ⟨_, used, rfl, _⟩ := decodeOperands_spec h
      simp

theorem decode_illegal_extend {ws : List Word} {e : DecodeError} (h : decode ws = .illegal e) (more : List Word) :
    decode (ws ++ more) = .illegal e := by
  cases ws with
  | nil => cases h
  | cons w ws => rw [List.cons_append, decode_illegal_iff]; exact (decode_illegal_iff _ _ _).1 h

theorem decode_prefix_incomplete {ws more : List Word} (h : decode (ws ++ more) = .incomplete) : decode ws = .incomplete := by
  cases hd : decode ws with
  | command i rest => rw [decode_extend hd] at h; cases h
  | illegal e => rw [decode_illegal_extend hd] at h; cases h
  | incomplete => rfl

end Sys2Proof
end

