-- ==== Sys2Proof/Laws/HostPort.lean ====
section
/-! SUPPORT. What reaches the block from outside: a step with something waiting, the host's accesses, the bits of
`STATUS`, and what a configuration register shows. -/

namespace Sys2Proof.Machine

variable {s t : State}

/-! ### What reaches the block next (R355) -/

theorem fromHost_iff (inp : Input) : inp.FromHost ↔ inp.isHostAccess = true := by
  cases inp <;> simp [Input.FromHost, Input.isHostAccess]

/-- A host that is not stalled waits for nothing. -/
theorem nextOf_false (l : List Input) : nextOf false l = match l with | [] => none | inp :: rest => some (inp, rest) := by
  cases l <;> rfl

/-- The accesses of a stalled host wait, in order. -/
theorem nextOf_stalled (waiting l : List Input) (hw : ∀ a ∈ waiting, a.isHostAccess = true) :
    nextOf true (waiting ++ l) = match nextOf true l with
      | none => none
      | some (inp, rest) => some (inp, waiting ++ rest) := by
  induction waiting with
  | nil =>
    rw [List.nil_append]
    cases nextOf true l <;> rfl
  | cons a waiting ih =>
    have ha := hw a List.mem_cons_self
    simp only [List.cons_append, nextOf, ha, Bool.and_self, if_true, ih fun b hb => hw b (List.mem_cons_of_mem _ hb)]
    cases nextOf true l <;> rfl

/-- What reaches the block while the host is stalled is no access of it. -/
theorem nextOf_access {b : Bool} {l rest : List Input} {inp : Input} (h : nextOf b l = some (inp, rest)) :
    (b && inp.isHostAccess) = false := by
  induction l generalizing rest with
  | nil => cases h
  | cons a l ih =>
    simp only [nextOf] at h
    split at h
    · split at h
      · cases h
      · rename_i e
        cases h
        exact ih e
    · rename_i hn
      cases h
      simpa using hn

theorem nextInput_free (h : s.held = none) :
    s.nextInput = match s.inputs with | [] => none | inp :: rest => some (inp, rest) := by
  rw [State.nextInput, h]
  exact nextOf_false _

theorem nextInput_cons {inp : Input} {rest : List Input} (h1 : s.held = none) (h2 : s.inputs = inp :: rest) :
    s.nextInput = some (inp, rest) := by
  rw [nextInput_free h1, h2]

/-- An access of the host reaches the block only while the host is not stalled. -/
theorem nextInput_access {inp : Input} {rest : List Input} (h : s.nextInput = some (inp, rest))
    (ha : inp.isHostAccess = true) : s.held = none := by
  have := nextOf_access h
  rw [ha, Bool.and_true] at this
  cases hh : s.held with
  | none => rfl
  | some w => rw [hh] at this; cases this

/-! ### A step -/

/-- With something from outside that can reach the block, a step lets it in. -/
theorem step_input {inp : Input} {rest : List Input} (h : s.nextInput = some (inp, rest)) :
    step s = inputStep inp { s with inputs := rest } := by
  simp only [step, machineStep, h]

/-- With nothing that can reach the block, a step is the engine's. -/
theorem step_engine (h : s.nextInput = none) : step s = engineStep s := by
  simp only [step, machineStep, h]

/-- An access of the right form is answered (R75). -/
theorem hostAccess_ok (s : State) {off : Nat} (h1 : off < 0x100) (h2 : off % 4 = 0) :
    hostAccess 4 off s = .next s := by
  unfold hostAccess
  rw [if_neg (by omega), if_neg (by omega)]

theorem step_hostWrite {off : Nat} {v : Word} {rest : List Input} (h : s.nextInput = some (.hostWrite 4 off v, rest))
    (h1 : off < 0x100) (h2 : off % 4 = 0) : step s = .next (({ s with inputs := rest } : State).hostWrite off v) := by
  rw [step_input h]
  exact hostAccess_ok _ h1 h2

theorem step_hostRead {off : Nat} {rest : List Input} (h : s.nextInput = some (.hostRead 4 off, rest))
    (h1 : off < 0x100) (h2 : off % 4 = 0) : step s = .next (({ s with inputs := rest } : State).hostRead off) := by
  rw [step_input h]
  exact hostAccess_ok _ h1 h2

/-! ### Host writes, one offset each (R75) -/

theorem hostWrite_cmd (s : State) (v : Word) : s.hostWrite 0x00 v = s.pushWord v := rfl

theorem hostWrite_status (s : State) (v : Word) : s.hostWrite 0x04 v = s.clearSticky v := rfl

theorem hostWrite_ctrl (s : State) (v : Word) : s.hostWrite 0x08 v = if v.getLsbD 0 then s.softReset else s := rfl

theorem hostWrite_fbIndex (s : State) (v : Word) : s.hostWrite 0x0C v = { s with fbIndex := v } := rfl

theorem hostWrite_other (s : State) (v : Word) {off : Nat} (h0 : off ≠ 0x00) (h1 : off ≠ 0x04) (h2 : off ≠ 0x08)
    (h3 : off ≠ 0x0C) : s.hostWrite off v = s := by
  unfold State.hostWrite
  rw [if_neg h0, if_neg h1, if_neg h2, if_neg h3]

/-! ### The bits of `STATUS` (R44) -/

theorem statusWord_bit (s : State) (i : Nat) (hi : i < 32) : s.statusWord.getLsbD i =
    if i < 3 then s.result.code.getLsbD i
    else if i < 8 then false
    else if i < 13 then s.sticky.getLsbD (i - 8)
    else if i < 16 then false
    else if i = 16 then s.busy
    else if i = 17 then s.halted
    else if i = 18 then s.cfgValid
    else false := by
  unfold State.statusWord
  generalize s.busy = a
  generalize s.halted = b
  generalize s.cfgValid = c
  generalize s.sticky = d
  generalize s.result.code = e
  simp only [BitVec.getLsbD_append, BitVec.getLsbD_ofBool]
  interval_cases i <;> simp

/-- A field of an append, from the place where its part begins. -/
theorem extract_append_low {n m : Nat} (a : BitVec n) (b : BitVec m) : (a ++ b).extractLsb' 0 m = b := by
  apply BitVec.eq_of_getLsbD_eq
  intro i hi
  rw [BitVec.getLsbD_extractLsb', BitVec.getLsbD_append]
  simp [hi]

theorem extract_append_high {n m : Nat} (a : BitVec n) (b : BitVec m) : (a ++ b).extractLsb' m n = a := by
  apply BitVec.eq_of_getLsbD_eq
  intro i hi
  rw [BitVec.getLsbD_extractLsb', BitVec.getLsbD_append]
  simp [hi]

/-! ### What a read shows (R75) -/

theorem hostReadValue_idle (h : s.busy = false) (off : Nat) : s.hostReadValue off = s.register off := by
  unfold State.hostReadValue
  rw [h]; rfl

/-- A register outside the configuration is read as it stands, busy or not (R350). -/
theorem hostReadValue_plain {off : Nat} (h1 : off ≠ 0x10) (h2 : isConfigOffset off = false) :
    s.hostReadValue off = s.register off := by
  unfold State.hostReadValue
  rw [h2, if_neg h1]
  split <;> rfl

theorem hostAccess_next {size off : Nat} {u t : State} (h : hostAccess size off u = .next t) : t = u := by
  unfold hostAccess at h
  repeat' split at h
  all_goals cases h
  rfl

theorem hostAccess_form {size off : Nat} {u t : State} (h : hostAccess size off u = .next t) : t = u ∧ off < 0x100 ∧ size = 4 ∧ off % 4 = 0 := by
  refine ⟨hostAccess_next h, ?_⟩
  unfold hostAccess at h
  split at h
  · cases h
  · split at h
    · cases h
    · refine ⟨?_, ?_, ?_⟩ <;> omega

theorem hostWrite_cases (s : State) (off : Nat) (v : Word) :
    (off = 0x00 ∧ s.hostWrite off v = s.pushWord v) ∨ (off = 0x04 ∧ s.hostWrite off v = s.clearSticky v) ∨
      (off = 0x08 ∧ v.getLsbD 0 = true ∧ s.hostWrite off v = s.softReset) ∨
      (off = 0x0C ∧ s.hostWrite off v = { s with fbIndex := v }) ∨ s.hostWrite off v = s := by
  by_cases h0 : off = 0x00
  · subst h0; exact Or.inl ⟨rfl, rfl⟩
  by_cases h1 : off = 0x04
  · subst h1; exact Or.inr (Or.inl ⟨rfl, rfl⟩)
  by_cases h2 : off = 0x08
  · subst h2
    rw [hostWrite_ctrl]
    cases hv : v.getLsbD 0
    · exact Or.inr (Or.inr (Or.inr (Or.inr rfl)))
    · exact Or.inr (Or.inr (Or.inl ⟨rfl, rfl, rfl⟩))
  by_cases h3 : off = 0x0C
  · subst h3; exact Or.inr (Or.inr (Or.inr (Or.inl ⟨rfl, rfl⟩)))
  exact Or.inr (Or.inr (Or.inr (Or.inr (hostWrite_other s v h0 h1 h2 h3))))

/-- A word written to `CMD` is discarded in HALTED, goes into the FIFO, or is held (R48, R49). -/
theorem pushWord_cases (s : State) (v : Word) :
    (s.mode = .halted ∧ s.pushWord v = s) ∨
      (s.mode ≠ .halted ∧ s.fifo.length < s.params.fifoDepth ∧ s.pushWord v = { s with fifo := s.fifo ++ [v] }) ∨
      (s.mode ≠ .halted ∧ s.params.fifoDepth ≤ s.fifo.length ∧ s.pushWord v = { s with held := some v }) := by
  have hh : s.halted = true ↔ s.mode = .halted := by simp [State.halted]
  unfold State.pushWord
  by_cases h1 : s.halted = true
  · rw [if_pos h1]; exact Or.inl ⟨hh.1 h1, rfl⟩
  · rw [if_neg h1]
    rw [hh] at h1
    by_cases h2 : s.fifo.length < s.params.fifoDepth
    · rw [if_pos h2]; exact Or.inr (Or.inl ⟨h1, h2, rfl⟩)
    · rw [if_neg h2]; exact Or.inr (Or.inr ⟨h1, not_lt.1 h2, rfl⟩)

theorem register_cases (s : State) :
    s.register 0x04 = s.statusWord ∧ s.register 0x0C = s.fbIndex ∧ s.register 0x10 = s.fbData ∧
    s.register 0x14 = s.hm ++ s.wm ∧ s.register 0x18 = s.modeWord ∧
    s.register 0x1C = BitVec.ofNat 16 s.height ++ BitVec.ofNat 16 s.width ∧ s.register 0x20 = s.bg.setWidth 32 ∧
    s.register 0x24 = BitVec.ofNat 32 s.fbLen ∧ s.register 0x28 = BitVec.ofNat 32 s.stride ∧
    s.register 0x2C = BitVec.ofNat 32 s.params.fbCapacity ∧
    s.register 0x30 = (BitVec.ofNat 5 s.params.fontSlots).setWidth 32 := ⟨rfl, rfl, rfl, rfl, rfl, rfl, rfl, rfl, rfl, rfl, rfl⟩

/-- The offsets the table of R75 gives no readable register read as 0. -/
theorem register_zero (s : State) {off : Nat} (h : off = 0x00 ∨ off = 0x08 ∨ off = 0x34 ∨ off = 0x38 ∨ off = 0x3C ∨ 0xC0 ≤ off) :
    s.register off = 0 := by
  rcases h with rfl | rfl | rfl | rfl | rfl | h
  iterate 5 rfl
  · have ne : ∀ k < 0xC0, ¬ off = k := fun k hk => by omega
    simp [State.register, ne, Nat.not_lt.2 h]

theorem register_font (s : State) {k : Nat} (hk : k < 16) :
    s.register (0x40 + 8 * k) = (s.font k).base ∧ s.register (0x44 + 8 * k) = (0 : Half) ++ (s.font k).h ++ (s.font k).w := by
  interval_cases k <;> exact ⟨rfl, rfl⟩

theorem font_out (s : State) {k : Nat} (h : s.fonts.length ≤ k) : s.font k = Font.unloaded := by
  unfold State.font
  rw [List.getD_eq_getElem?_getD, List.getElem?_eq_none h]; rfl

theorem geometry_lt (s : State) : s.width < 2 ^ 16 ∧ s.height < 2 ^ 16 := by
  have h1 := s.wm.isLt
  have h2 := s.hm.isLt
  unfold State.width State.height
  constructor <;> split <;> omega

theorem configAfter_draw {i : Instr} (hi : ¬ IsConfig i) (s : State) : configAfter s i = s := by
  unfold configAfter
  rcases planOf_cases i s with ⟨c, h, _⟩ | ⟨s', _, h, _⟩ | ⟨ms, h, _⟩
  · rw [h]
  · exact absurd h hi
  · rw [h]

theorem configAfter_inputs (i : Instr) (s : State) (r : List Input) :
    configAfter { s with inputs := r } i = { configAfter s i with inputs := r } := by
  by_cases hi : IsConfig i
  · have hr : ConfigRejects { s with inputs := r } i ↔ ConfigRejects s i := by cases i <;> exact Iff.rfl
    unfold configAfter
    rcases planOf_config (s := s) hi with ⟨h1, e1⟩ | ⟨h1, s1, e1, c1⟩ <;>
      rcases planOf_config (s := { s with inputs := r }) hi with ⟨h2, e2⟩ | ⟨h2, s2, e2, c2⟩
    · rw [e1, e2]
    · exact absurd (hr.2 h1) h2
    · exact absurd (hr.1 h2) h1
    · rw [e1, e2]
      dsimp only
      cases i <;> simp only [Configures] at c1 c2
      all_goals
        first
        | (subst c1 c2; rfl)
        | (obtain ⟨_, rfl⟩ := c1; obtain ⟨_, rfl⟩ := c2; rfl)
  · rw [configAfter_draw hi, configAfter_draw hi]

theorem foldl_configAfter_inputs (l : List Instr) (s : State) (r : List Input) :
    l.foldl configAfter { s with inputs := r } = { l.foldl configAfter s with inputs := r } := by
  induction l generalizing s with
  | nil => rfl
  | cons i l ih => rw [List.foldl_cons, List.foldl_cons, configAfter_inputs, ih]

theorem atStreamPoint_inputs (s : State) (r : List Input) (k : Nat) :
    ({ s with inputs := r } : State).atStreamPoint k = { s.atStreamPoint k with inputs := r } :=
  foldl_configAfter_inputs _ _ _

/-- Running a command has its configuration effect, and no more, on the registers and the font table (R350). -/
theorem configAfter_exec {u t : State} {i : Instr} (hs : s.SameSurface u) (hf : s.SameFonts u) (hp : u.params = s.params)
    (h : exec i u = .next t) :
    (configAfter s i).SameSurface t ∧ (configAfter s i).SameFonts t ∧ t.params = (configAfter s i).params := by
  rw [exec_eq] at h
  cases h
  have keep : ∀ {t : State}, u.SameSurface t → u.SameFonts t → t.params = u.params →
      s.SameSurface t ∧ s.SameFonts t ∧ t.params = s.params := fun ⟨a1, a2, a3, a4, a5, a6, a7⟩ ⟨b1, b2⟩ c =>
    ⟨⟨a1.trans hs.1, a2.trans hs.2.1, a3.trans hs.2.2.1, a4.trans hs.2.2.2.1, a5.trans hs.2.2.2.2.1,
      a6.trans hs.2.2.2.2.2.1, a7.trans hs.2.2.2.2.2.2⟩, ⟨b1.trans hf.1, b2.trans hf.2⟩, c.trans hp⟩
  have reject : ∀ c, s.SameSurface (u.runPlan (.reject c)) ∧ s.SameFonts (u.runPlan (.reject c)) ∧
      (u.runPlan (.reject c)).params = s.params := fun c =>
    have h := runPlan_reject u c
    keep h.1 h.2.1 h.2.2.2.1.1
  by_cases hi : IsConfig i
  · have hr : ConfigRejects u i ↔ ConfigRejects s i := by
      obtain ⟨s1, s2, s3, s4, s5, s6, s7⟩ := hs
      cases i <;> simp only [ConfigRejects, s1, s2, s7, hp]
    unfold configAfter
    rcases planOf_config (s := s) hi with ⟨h1, e1⟩ | ⟨h1, s', e1, c1⟩ <;>
      rcases planOf_config (s := u) hi with ⟨h2, e2⟩ | ⟨h2, u', e2, c2⟩
    · rw [e1, e2]; exact reject _
    · exact absurd (hr.2 h1) h2
    · exact absurd (hr.1 h2) h1
    · rw [e1, e2, runPlan_configure]
      obtain ⟨s1, s2, s3, s4, s5, s6, s7⟩ := hs
      obtain ⟨f1, f2⟩ := hf
      cases i <;> simp only [Configures] at c1 c2
      all_goals
        first
        | subst c1 c2
        | (obtain ⟨_, rfl⟩ := c1; obtain ⟨_, rfl⟩ := c2)
        simp [State.SameSurface, State.SameFonts, s1, s2, s3, s4, s5, s6, s7, f1, f2, hp]
  · rw [configAfter_draw hi]
    rcases planOf_cases i u with ⟨c, e, -⟩ | ⟨_, _, hc, _⟩ | ⟨ms, e, -, -, -⟩
    · rw [e]; exact reject c
    · exact absurd hc hi
    · rw [e]
      obtain ⟨a, b, c, -⟩ := draws_same (s := u) (ms := ms)
      exact keep a b c.1

/-- A point of the stream is what running the commands up to it leaves of the registers and the font table (R350). -/
theorem afterCommands_stream (k : Nat) : ∀ (fuel : Nat) (ws : List Word) (s u : State), ws.length ≤ fuel →
    s.SameSurface u → s.SameFonts u → u.params = s.params →
    ∃ v, AfterCommands k ws u v ∧ (((commandsIn fuel ws).take k).foldl configAfter s).SameSurface v ∧
      (((commandsIn fuel ws).take k).foldl configAfter s).SameFonts v ∧
      v.params = (((commandsIn fuel ws).take k).foldl configAfter s).params := by
  induction k with
  | zero => exact fun _ _ s u _ h1 h2 h3 => ⟨u, rfl, h1, h2, h3⟩
  | succ k ih =>
    intro fuel ws s u hl h1 h2 h3
    cases fuel with
    | zero =>
      rw [List.length_eq_zero_iff.1 (Nat.le_zero.1 hl)]
      exact ⟨u, rfl, h1, h2, h3⟩
    | succ fuel =>
      simp only [AfterCommands, commandsIn]
      cases hd : decode ws with
      | command i rest =>
        obtain ⟨g1, g2, g3⟩ := configAfter_exec h1 h2 h3 (exec_eq i u)
        obtain ⟨v, h⟩ := ih fuel rest _ _ (by have := decode_shorter hd; omega) g1 g2 g3
        exact ⟨v, ⟨_, exec_eq i u, h.1⟩, h.2⟩
      | illegal e => exact ⟨u, rfl, h1, h2, h3⟩
      | incomplete => exact ⟨u, rfl, h1, h2, h3⟩

/-- What a Surface or font register shows is what it shows of any state with the same registers and font table. -/
theorem showsConfig_congr {u : State} {off : Nat} {v : Word} (hs : s.SameSurface u) (hf : s.SameFonts u)
    (hp : u.params = s.params) (h : s.ShowsConfig off v) : u.ShowsConfig off v := by
  have e : ∀ k, u.font k = s.font k := fun k => by unfold State.font; rw [hf.1]
  unfold State.ShowsConfig at h ⊢
  rw [sameSurface_width hs, sameSurface_height hs, sameSurface_fbLen hs, sameSurface_stride hs]
  obtain ⟨s1, s2, s3, s4, s5, s6, s7⟩ := hs
  rw [s1, s2, s3, s4, s5, s6, hp]
  simp only [e]
  exact h

/-- What the Surface and font registers show of a state (R75, R80). -/
theorem showsConfig_register (s : State) (off : Nat) (hf : s.fonts.length = s.params.fontSlots) :
    s.ShowsConfig off (s.register off) := by
  obtain ⟨-, -, -, r14, r18, r1C, r20, r24, r28, -⟩ := register_cases s
  refine ⟨?_, ?_, ?_, ?_, ?_, ?_, ?_, ?_⟩
  · rintro rfl; rw [r14]; exact ⟨extract_append_low _ _, extract_append_high _ _⟩
  · rintro rfl; rw [r18]
    unfold State.modeWord
    refine ⟨?_, ?_, ?_, ?_, ?_⟩
    all_goals
      apply BitVec.eq_of_getLsbD_eq
      intro i hi
      rw [BitVec.getLsbD_extractLsb']
      simp only [BitVec.getLsbD_append]
      interval_cases i <;> simp
  · rintro rfl; rw [r1C]
    rw [extract_append_low, extract_append_high]
    obtain ⟨g1, g2⟩ := geometry_lt s
    simp; omega
  · rintro rfl; rw [r20]
    constructor
    · apply BitVec.eq_of_getLsbD_eq
      intro i hi
      simp [hi]; omega
    · apply BitVec.eq_of_getLsbD_eq
      intro i hi
      simp
  · rintro rfl; rw [r24]
  · rintro rfl; rw [r28]
  · rintro k hk rfl
    rw [(register_font s hk).1]
    refine ⟨fun _ => rfl, fun hh => by rw [font_out s (by omega)]; rfl⟩
  · rintro k hk rfl
    rw [(register_font s hk).2]
    refine ⟨fun _ => ⟨?_, ?_, ?_⟩, fun hh => by rw [font_out s (by omega)]; rfl⟩
    all_goals
      apply BitVec.eq_of_getLsbD_eq
      intro i hi
      rw [BitVec.getLsbD_extractLsb']
      simp only [BitVec.getLsbD_append]
      interval_cases i <;> simp

theorem configAfter_slots (s : State) (i : Instr) (hf : s.fonts.length = s.params.fontSlots) :
    (configAfter s i).fonts.length = (configAfter s i).params.fontSlots := by
  by_cases hi : IsConfig i
  · unfold configAfter
    rcases planOf_config (s := s) hi with ⟨_, e⟩ | ⟨_, s', e, c⟩ <;> rw [e]
    · exact hf
    · cases i <;> simp only [Configures] at c
      all_goals
        first
        | subst c
        | obtain ⟨_, rfl⟩ := c
        simpa using hf
  · rw [configAfter_draw hi]; exact hf

/-- A point of the stream has as many slots as the block (R43). -/
theorem atStreamPoint_slots (s : State) (k : Nat) (hf : s.fonts.length = s.params.fontSlots) :
    (s.atStreamPoint k).fonts.length = (s.atStreamPoint k).params.fontSlots := by
  unfold State.atStreamPoint
  dsimp only
  generalize List.take k _ = l
  induction l generalizing s with
  | nil => exact hf
  | cons i l ih => exact ih _ (configAfter_slots s i hf)

end Sys2Proof.Machine
end

