-- ==== Sys2Proof/Laws/Tick.lean ====
section
/-! SUPPORT. The small steps of the engine: one of each kind, a run of them, and the status, which they only add to. -/

namespace Sys2Proof.Machine

theorem tick_halted {u : State} (h : u.mode = .halted) : tick u = { u with fifo := [], held := none } := by
  unfold tick; rw [h]

theorem tick_nil {u : State} (h1 : u.mode ≠ .halted) (h2 : u.work = some []) : tick u = u.completeDrawn := by
  unfold tick
  cases hm : u.mode with
  | halted => exact absurd hm h1
  | idle => rw [h2]
  | exec => rw [h2]

theorem tick_cons {u : State} {m : Micro} {ms : List Micro} (h1 : u.mode ≠ .halted) (h2 : u.work = some (m :: ms)) :
    tick u = match u.perform m with
      | .done s' => { s' with work := some ms }
      | .reject c s' => s'.complete c
      | .waiting s' => s' := by
  unfold tick
  cases hm : u.mode with
  | halted => exact absurd hm h1
  | idle => rw [h2]; all_goals rfl
  | exec => rw [h2]; all_goals rfl

theorem tick_rest {u : State} (h1 : u.mode ≠ .halted) (h2 : u.work = none) (h3 : u.stream = []) : tick u = u := by
  unfold tick
  cases hm : u.mode with
  | halted => exact absurd hm h1
  | idle => simp only [h2, h3]
  | exec => simp only [h2, h3]

theorem tick_word (u : State) (w : Word) (r : List Word) (a : u.mode ≠ .halted) (b : u.work = none) (c : u.stream = w :: r) :
    tick u = match decode (u.current ++ [w]) with
      | .command i _ => (u.takeCommand (u.current ++ [w]) r).startPlan (planOf i (u.takeCommand (u.current ++ [w]) r))
      | .illegal _ => (u.takeCommand (u.current ++ [w]) r).halt
      | .incomplete => u.takeCommand (u.current ++ [w]) r := by
  unfold tick
  cases hm : u.mode with
  | halted => exact absurd hm a
  | idle => simp only [b, c]; rfl
  | exec => simp only [b, c]; rfl

def State.withWork (u : State) (w : Option (List Micro)) : State := { u with work := w }

theorem writePixel_withWork (u : State) (w : Option (List Micro)) (x y : Int) (c : Half) :
    (u.withWork w).writePixel x y c = (u.writePixel x y c).withWork w := by
  have e : (u.withWork w).pixelTarget x y = u.pixelTarget x y := sameSurface_pixelTarget
    (s := u) ⟨rfl, rfl, rfl, rfl, rfl, rfl, rfl⟩ x y
  unfold State.writePixel
  rw [e]
  cases u.pixelTarget x y with
  | place d i X => cases d <;> rfl
  | dropped => rfl
  | skipped => rfl

theorem drawCell_withWork (u : State) (w : Option (List Micro)) (x y : Int) (g n a b : Nat) (fg bg : Half) :
    (u.withWork w).drawCell x y g n a b fg bg = (u.drawCell x y g n a b fg bg).withWork w := by
  have e : (u.withWork w).drawCell x y g n a b fg bg =
      if u.glyphChanged g n then
        match Config.unstableCell u.freeCtr with
        | some c => (({ u with freeCtr := u.freeCtr + 1 } : State).withWork w).writePixel x y c
        | none => ({ u with freeCtr := u.freeCtr + 1 } : State).withWork w
      else if (u.readFont a).getLsbD b then (u.withWork w).writePixel x y fg
      else if bg ≠ u.params.transparent then (u.withWork w).writePixel x y bg
      else u.withWork w := rfl
  rw [e]
  simp only [writePixel_withWork]
  unfold State.drawCell
  by_cases h1 : u.glyphChanged g n = true
  · rw [if_pos h1, if_pos h1]
    dsimp only
    cases Config.unstableCell u.freeCtr <;> rfl
  · rw [if_neg h1, if_neg h1]
    split
    · rfl
    · split <;> rfl

theorem writeBytes_withWork (u : State) (w : Option (List Micro)) (i : Nat) (vs : List Byte) :
    (u.withWork w).writeBytes i vs = (u.writeBytes i vs).withWork w := by
  induction vs generalizing u i with
  | nil => rfl
  | cons v vs ih => exact ih (u.writeFb i v) (i + 1)

def MicroOutcome.withWork (w : Option (List Micro)) : MicroOutcome → MicroOutcome
  | .done u => .done (u.withWork w)
  | .reject c u => .reject c (u.withWork w)
  | .waiting u => .waiting (u.withWork w)

theorem perform_withWork (u : State) (w : Option (List Micro)) (m : Micro) :
    (u.withWork w).perform m = MicroOutcome.withWork w (u.perform m) := by
  cases m with
  | pixel x y c => exact congrArg MicroOutcome.done (writePixel_withWork u w x y c)
  | cell x y g n a b fg bg => exact congrArg MicroOutcome.done (drawCell_withWork u w x y g n a b fg bg)
  | dropChar => rfl
  | fill i vs => exact congrArg MicroOutcome.done (writeBytes_withWork u w i vs)
  | emit e =>
    cases h : u.answers with
    | nil =>
      have h' : (u.withWork w).answers = [] := h
      simp only [State.perform, State.emitToken, h, h']; rfl
    | cons a r =>
      have h' : (u.withWork w).answers = a :: r := h
      cases a <;> (simp only [State.perform, State.emitToken, h, h']; rfl)

theorem runWork_withWork (u : State) (w : Option (List Micro)) (ms : List Micro) :
    (u.withWork w).runWork ms = u.runWork ms := by
  induction ms generalizing u with
  | nil => rfl
  | cons m ms ih =>
    simp only [State.runWork]
    rw [perform_withWork]
    cases u.perform m with
    | done u' => exact ih u'
    | reject c u' => rfl
    | waiting u' => rfl

theorem ticks_work (ms : List Micro) : ∀ u : State, u.mode = .exec → u.work = some ms → ∃ n, ticks n u = u.runWork ms := by
  induction ms with
  | nil =>
    intro u h1 h2
    refine ⟨1, ?_⟩
    change tick u = _
    unfold tick
    rw [h1, h2]; rfl
  | cons m ms ih =>
    intro u h1 h2
    have et : tick u = match u.perform m with
      | .done s' => { s' with work := some ms }
      | .reject c s' => s'.complete c
      | .waiting s' => s' := by
      unfold tick
      rw [h1, h2]
      all_goals rfl
    have hf := perform_frame u m
    cases hp : u.perform m with
    | done u' =>
      rw [hp] at et
      have hm := (hf u' (Or.inl hp)).2.2.2.1
      obtain ⟨n, hn⟩ := ih { u' with work := some ms } (hm.trans h1) rfl
      refine ⟨n + 1, ?_⟩
      change ticks n (tick u) = _
      rw [et]
      dsimp only
      rw [hn]
      rw [show ({ u' with work := some ms } : State) = u'.withWork (some ms) from rfl, runWork_withWork]
      simp only [State.runWork, hp]
    | reject c u' =>
      rw [hp] at et
      exact ⟨1, by change tick u = _; rw [et]; simp only [State.runWork, hp]⟩
    | waiting u' =>
      rw [hp] at et
      obtain ⟨_, _, _, hm, _, hw, _⟩ := hf u' (Or.inr (Or.inr hp))
      refine ⟨1, ?_⟩
      change tick u = _
      rw [et]; simp only [State.runWork, hp]
      have a := hm.trans h1
      have b := hw.trans h2
      cases u'
      dsimp only at a b ⊢
      subst a b
      rfl

theorem ticks_add (n m : Nat) (s : State) : ticks (n + m) s = ticks m (ticks n s) := by
  induction n generalizing s with
  | zero => rw [Nat.zero_add]; rfl
  | succ n ih => rw [Nat.succ_add]; exact ih _

theorem takeCommand_take (s : State) (a b r r' : List Word) : (s.takeCommand a r).takeCommand b r' = s.takeCommand b r' := rfl

theorem takeCommand_stream (s : State) (a r : List Word) : (s.takeCommand a r).stream = r := by
  simp [State.takeCommand, State.stream]

theorem ticks_collect (s : State) (h1 : s.mode ≠ .halted) (h2 : s.work = none) (k : Nat) (hk : k < s.stream.length)
    (hd : decode (s.current ++ s.stream.take (k + 1)) = .incomplete) :
    ticks (k + 1) s = s.takeCommand (s.current ++ s.stream.take (k + 1)) (s.stream.drop (k + 1)) := by
  have one : ∀ (u : State) (w : Word) (r : List Word), u.mode ≠ .halted → u.work = none → u.stream = w :: r →
      decode (u.current ++ [w]) = .incomplete → tick u = u.takeCommand (u.current ++ [w]) r := by
    intro u w r a b c d
    unfold tick
    cases hm : u.mode with
    | halted => exact absurd hm a
    | idle => simp only [b, c]; rw [show (u.takeCommand (u.current ++ [w]) r).current = u.current ++ [w] from rfl, d]
    | exec => simp only [b, c]; rw [show (u.takeCommand (u.current ++ [w]) r).current = u.current ++ [w] from rfl, d]
  induction k with
  | zero =>
    cases hs : s.stream with
    | nil => rw [hs] at hk; simp at hk
    | cons w r =>
      rw [hs] at hd
      exact one s w r h1 h2 hs hd
  | succ k ih =>
    have hsplit : s.stream.take (k + 2) = s.stream.take (k + 1) ++ [s.stream[k + 1]] := by
      rw [List.take_succ_eq_append_getElem hk]
    rw [hsplit, ← List.append_assoc] at hd
    have := ih (by omega) (decode_prefix_incomplete hd)
    rw [ticks_add (k + 1) 1, this]
    change tick _ = _
    rw [one (s.takeCommand (s.current ++ s.stream.take (k + 1)) (s.stream.drop (k + 1))) (s.stream[k + 1]) (s.stream.drop (k + 2)) ?_ h2 ?_ hd, takeCommand_take]
    · rw [hsplit, ← List.append_assoc]; rfl
    · exact nofun
    · rw [takeCommand_stream, List.drop_eq_getElem_cons hk]

/-- From the start of a plan, ticks reach its run. -/
theorem ticks_startPlan (u : State) (p : Plan) : ∃ n, ticks n (u.startPlan p) = u.runPlan p := by
  cases p with
  | reject c => exact ⟨0, rfl⟩
  | configure s' => exact ⟨0, rfl⟩
  | draw ms =>
    obtain ⟨n, hn⟩ := ticks_work ms { u.begin with work := some ms } rfl rfl
    exact ⟨n, hn.trans (runWork_withWork u.begin (some ms) ms)⟩

theorem collect_eq (s : State) (h : s.stream ≠ []) : s.collect = s.takeCommand (s.current ++ s.stream) [] := by
  unfold State.collect
  cases hs : s.stream with
  | nil => exact absurd hs h
  | cons w r => rfl

theorem collect_cases (s : State) : s.collect = s ∨ s.collect = s.takeCommand (s.current ++ s.stream) [] := by
  by_cases h : s.stream = []
  · left; unfold State.collect; rw [h]
  · right; exact collect_eq s h

theorem effect_withWork (u : State) (w : Option (List Micro)) {m : Micro} (h : ∀ e, m ≠ .emit e) :
    (u.withWork w).effect m = (u.effect m).withWork w := by
  have := perform_withWork u w m
  rw [perform_local u h, perform_local (u.withWork w) h] at this
  exact MicroOutcome.done.inj this

theorem after_withWork (u : State) (w : Option (List Micro)) {ms : List Micro} (h : Local ms) :
    (u.withWork w).after ms = (u.after ms).withWork w := by
  induction ms generalizing u with
  | nil => rfl
  | cons m ms ih =>
    rw [after_cons, effect_withWork u w fun e he => h e (he ▸ List.mem_cons_self), ih _ h.tail, after_cons]

/-- As many small steps as there are pieces do these pieces and leave the rest (R343). -/
theorem ticks_local (ms : List Micro) (hl : Local ms) (left : List Micro) : ∀ u : State, u.mode = .exec →
    u.work = some (ms ++ left) → ticks ms.length u = (u.after ms).withWork (some left) := by
  induction ms with
  | nil =>
    intro u h1 h2
    change u = u.withWork _
    cases u
    dsimp only at h2
    subst h2; rfl
  | cons m ms ih =>
    intro u h1 h2
    have hp := hl.head u
    change ticks ms.length (tick u) = _
    rw [tick_cons (m := m) (ms := ms ++ left) (by rw [h1]; exact nofun) h2, hp]
    change ticks ms.length ((u.effect m).withWork (some (ms ++ left))) = _
    rw [ih hl.tail ((u.effect m).withWork (some (ms ++ left))) (((perform_frame u m _ (Or.inl hp)).2.2.2.1).trans h1) rfl, after_withWork _ _ hl.tail, after_cons]
    rfl

/-- As many small steps as there are tokens accepted deliver these tokens and leave the rest of the frame. -/
theorem ticks_emit (es : List Emission) (left : List Micro) (more : List Answer) : ∀ u : State, u.mode = .exec →
    u.work = some (es.map .emit ++ left) → u.answers = List.replicate es.length .accepted ++ more → ∃ o,
      ticks es.length u =
        { u with work := some left, tokens := u.tokens ++ es.map u.tokenOf, answers := more, offered := o } := by
  induction es with
  | nil =>
    intro u h1 h2 h3
    refine ⟨u.offered, ?_⟩
    change u = _
    cases u
    dsimp only [List.map_nil, List.nil_append, List.length_nil, List.replicate_zero] at h2 h3
    subst h2 h3
    simp
  | cons e es ih =>
    intro u h1 h2 h3
    have ha : u.answers = .accepted :: (List.replicate es.length .accepted ++ more) := by
      rw [h3, List.length_cons, List.replicate_succ, List.cons_append]
    have et : tick u = { u.deliver e (List.replicate es.length .accepted ++ more) with
        work := some (es.map .emit ++ left) } := by
      rw [tick_cons (m := .emit e) (ms := es.map .emit ++ left) (by rw [h1]; exact nofun) h2]
      simp only [State.perform, State.emitToken, ha]
    obtain ⟨o, ho⟩ := ih _ (show (tick u).mode = .exec by rw [et]; exact h1) (by rw [et]) (by rw [et]; rfl)
    refine ⟨o, ?_⟩
    change ticks es.length (tick u) = _
    rw [ho, et]
    have hk : ({ u.deliver e (List.replicate es.length .accepted ++ more) with
        work := some (es.map .emit ++ left) } : State).tokenOf = u.tokenOf := tokenOf_congr rfl rfl
    rw [hk]
    simp [State.deliver]

/-! ### The status -/

theorem sticky_or_mono {a b : BitVec 5} (j : Nat) (h : a.getLsbD j = true) : (a ||| b).getLsbD j = true := by
  rw [BitVec.getLsbD_or, h]; rfl

/-- What the engine may do to the status: sticky bits only grow, and a result it changed has its bit. -/
def Grows (s t : State) : Prop :=
  (∀ j, s.sticky.getLsbD j = true → t.sticky.getLsbD j = true) ∧
    (t.result = s.result ∧ True ∨ t.sticky &&& t.result.stickyMask = t.result.stickyMask)

theorem or_mask (a m : BitVec 5) : (a ||| m) &&& m = m := by
  apply BitVec.eq_of_getLsbD_eq
  intro i hi
  simp
  tauto

theorem grows_refl (s : State) : Grows s s := ⟨fun _ h => h, Or.inl ⟨rfl, trivial⟩⟩

theorem grows_ended {s t : State} {c : Result} (h : s.Ended t c) : Grows s t := by
  obtain ⟨h1, h2, _⟩ := h
  refine ⟨fun j hj => by rw [h2]; exact sticky_or_mono j hj, Or.inr ?_⟩
  rw [h1, h2]; exact or_mask _ _

theorem grows_same {s t : State} (h1 : t.result = s.result) (h2 : t.sticky = s.sticky) : Grows s t :=
  ⟨fun j hj => by rw [h2]; exact hj, Or.inl ⟨h1, trivial⟩⟩

theorem mask_mono {a b m : BitVec 5} (h : ∀ j, a.getLsbD j = true → b.getLsbD j = true) (hm : a &&& m = m) : b &&& m = m := by
  apply BitVec.eq_of_getLsbD_eq
  intro i hi
  have e := congrArg (fun w : BitVec 5 => w.getLsbD i) hm
  simp only [BitVec.getLsbD_and] at e ⊢
  cases hmi : m.getLsbD i
  · simp
  · rw [hmi] at e
    have : a.getLsbD i = true := by simpa using e
    rw [h i this]; rfl

theorem grows_trans {s t u : State} (h1 : Grows s t) (h2 : Grows t u) : Grows s u := by
  refine ⟨fun j hj => h2.1 j (h1.1 j hj), ?_⟩
  rcases h2.2 with ⟨e, _⟩ | e
  · rcases h1.2 with ⟨e1, _⟩ | e1
    · exact Or.inl ⟨e.trans e1, trivial⟩
    · rw [e]; exact Or.inr (mask_mono h2.1 e1)
  · exact Or.inr e

theorem grows_runWork (u : State) (ms : List Micro) : Grows u (u.runWork ms) := by
  rcases (runWork_cases u ms).2 with ⟨c, h⟩ | ⟨_, _, _, _, _, _, h1, h2, _⟩
  · exact grows_ended h
  · exact grows_same h1 h2

theorem configures_status {s s' : State} {i : Instr} (h : Configures s i s') : s'.result = s.result ∧ s'.sticky = s.sticky := by
  cases i <;> simp only [Configures] at h
  all_goals first | (subst h; exact ⟨rfl, rfl⟩) | (obtain ⟨_, rfl⟩ := h; exact ⟨rfl, rfl⟩)

theorem grows_exec (i : Instr) (u : State) : Grows u (u.runPlan (planOf i u)) := by
  rcases planOf_cases i u with ⟨c, h, _⟩ | ⟨s', h, _, hn, hc⟩ | ⟨ms, h, _, _, hd⟩
  · rw [h]; exact grows_ended (runPlan_reject u c).2.2.2.2.2
  · rw [h, runPlan_configure]
    obtain ⟨a, b⟩ := configures_status hc
    refine ⟨fun j hj => ?_, Or.inr ?_⟩
    · change (s'.sticky ||| 0).getLsbD j = true
      rw [b]; exact sticky_or_mono j hj
    · exact or_mask _ _
  · rw [h]; exact grows_runWork u.begin ms

theorem grows_startPlan (i : Instr) (u : State) : Grows u (u.startPlan (planOf i u)) := by
  rcases planOf_cases i u with ⟨c, h, _⟩ | ⟨s', h, _, hn, hc⟩ | ⟨ms, h, _, _, hd⟩
  · rw [h]; exact grows_ended (runPlan_reject u c).2.2.2.2.2
  · rw [h]
    obtain ⟨a, b⟩ := configures_status hc
    refine ⟨fun j hj => ?_, Or.inr ?_⟩
    · change (s'.sticky ||| 0).getLsbD j = true
      rw [b]; exact sticky_or_mono j hj
    · exact or_mask _ _
  · rw [h]; exact grows_same rfl rfl

theorem grows_halt (u : State) : Grows u u.halt :=
  ⟨fun j hj => sticky_or_mono (b := 16) j hj, Or.inr (or_mask _ _)⟩

theorem grows_tick (u : State) : Grows u (tick u) := by
  by_cases h1 : u.mode = .halted
  · rw [tick_halted h1]; exact grows_same rfl rfl
  cases h2 : u.work with
  | none =>
    cases h3 : u.stream with
    | nil => rw [tick_rest h1 h2 h3]; exact grows_refl u
    | cons w r =>
      rw [tick_word u w r h1 h2 h3]
      have h0 : Grows u (u.takeCommand (u.current ++ [w]) r) := grows_same rfl rfl
      generalize u.takeCommand (u.current ++ [w]) r = v at h0
      cases decode (u.current ++ [w]) with
      | command i _ => exact grows_trans h0 (grows_startPlan _ _)
      | illegal _ => exact grows_trans h0 (grows_halt _)
      | incomplete => exact h0
  | some ms =>
    cases ms with
    | nil => rw [tick_nil h1 h2]; exact grows_ended (c := if u.dropped then .oob else .ok) (by simp [State.Ended, State.completeDrawn])
    | cons m ms =>
      rw [tick_cons h1 h2]
      have hf := perform_frame u m
      cases hp : u.perform m with
      | done u' =>
        obtain ⟨_, a, b, _⟩ := hf u' (Or.inl hp)
        exact grows_same (t := { u' with work := some ms }) a b
      | reject c u' =>
        obtain ⟨_, a, b, _⟩ := hf u' (Or.inr (Or.inl ⟨c, hp⟩))
        exact grows_trans (grows_same a b) (grows_ended (c := c) (by simp [State.Ended]))
      | waiting u' =>
        obtain ⟨_, a, b, _⟩ := hf u' (Or.inr (Or.inr hp))
        exact grows_same a b

theorem grows_ticks (n : Nat) (u : State) : Grows u (ticks n u) := by
  induction n generalizing u with
  | zero => exact grows_refl u
  | succ n ih => exact grows_trans (grows_tick u) (ih _)

theorem grows_engine {s t : State} (h : engineStep s = .next t) : Grows s t := by
  by_cases h1 : s.mode = .halted
  · rw [engineStep_halted h1] at h; cases h; exact grows_same rfl rfl
  cases h2 : s.work with
  | some ms => rw [engineStep_some h1 h2] at h; cases h; exact grows_runWork _ _
  | none =>
    rw [engineStep_none h1 h2] at h
    cases hd : decode (s.current ++ s.stream) with
    | command i rest =>
      rw [hd] at h
      dsimp only at h
      have h0 : Grows s (s.takeCommand ((s.current ++ s.stream).take ((s.current ++ s.stream).length - rest.length)) rest) := grows_same rfl rfl
      generalize s.takeCommand ((s.current ++ s.stream).take ((s.current ++ s.stream).length - rest.length)) rest = v at h h0
      rw [exec_eq] at h; cases h
      exact grows_trans h0 (grows_exec _ _)
    | illegal _ => rw [hd] at h; cases h; exact grows_halt _
    | incomplete =>
      rw [hd] at h; cases h
      rcases collect_cases s with e | e
      · rw [e]; exact grows_refl s
      · rw [e]; exact grows_same rfl rfl

end Sys2Proof.Machine
end

