-- ==== Sys2Proof/Laws/Invariant.lean ====
section
/-! SUPPORT. The invariant, through the engine's small steps and the host's writes. -/

namespace Sys2Proof.Machine

variable {s u : State}

/-! ### The parts of the invariant that do not speak of the engine -/

/-- The invariant's fields about the parameters, the Surface, the framebuffer, the font table and the FIFO. -/
structure Static (s : State) : Prop where
  params : s.params.wf = true
  memory : Memory.wf s.fb
  bounded : ∀ c ∈ s.fb, c.1 < s.fbLen
  rotation : (rotOf s.rot).isSome = true
  depth : (depthOf s.depth.toNat).isSome = true
  fits : s.fbLen ≤ s.params.fbCapacity
  configured : s.cfgValid = true → s.wm ≠ 0 ∧ s.hm ≠ 0
  unconfigured : s.cfgValid = false → s.wm = 0 ∧ s.hm = 0
  slots : s.fonts.length = s.params.fontSlots
  glyphs : ∀ f ∈ s.fonts, f.w = 0 ↔ f.h = 0
  fifo : s.fifo.length ≤ s.params.fifoDepth
  held : s.held ≠ none → s.fifo.length = s.params.fifoDepth

/-- A font memory change is noted only for words that are written and not yet done with (R351). -/
def Noted (s : State) : Prop := ∀ c ∈ s.fontChanges, 0 < c.queued ∧ c.queued ≤ (s.current ++ s.stream).length

/-- `left` is the end of the running command's work (R50). -/
def Running (s : State) (left : List Micro) : Prop :=
  ∃ i rest all, decode s.current = .command i rest ∧ planOf i s = .draw all ∧ left <:+ all

theorem planOf_draw_isConfig {i : Instr} {all : List Micro} (h : planOf i s = .draw all) : ¬ IsConfig i := by
  intro hi
  rcases planOf_config (s := s) hi with ⟨_, e⟩ | ⟨_, s', e, _⟩ <;> rw [e] at h <;> cases h

theorem Running.congr {left : List Micro} (h : Running s left) (hs : SameSource s u) (hc : u.current = s.current) :
    Running u left := by
  obtain ⟨i, rest, all, h1, h2, h3⟩ := h
  exact ⟨i, rest, all, by rw [hc]; exact h1, (planOf_congr (planOf_draw_isConfig h2) hs).trans h2, h3⟩

theorem Running.tail {m : Micro} {ms : List Micro} (h : Running s (m :: ms)) : Running s ms := by
  obtain ⟨i, rest, all, h1, h2, h3⟩ := h
  exact ⟨i, rest, all, h1, h2, (List.suffix_cons m ms).trans h3⟩

/-- A state with the same command, the same work left and the same source of it. -/
theorem State.Inv.keepsRunning (h : s.Inv) (hw : u.work = s.work) (hc : u.current = s.current) (hs : SameSource s u)
    (left : List Micro) (hl : u.work = some left) : Running u left :=
  Running.congr (h.running left (hw ▸ hl)) hs hc

theorem State.Inv.static (h : s.Inv) : Static s :=
  ⟨h.params, h.memory, h.bounded, h.rotation, h.depth, h.fits, h.configured, h.unconfigured, h.slots, h.glyphs, h.fifo,
    h.held⟩

theorem Static.inv (h : Static s)
    (hi : s.mode = .idle → s.current = [] ∧ s.work = none ∧ s.dropped = false ∧ s.offered = none)
    (hh : s.mode = .halted →
      s.fifo = [] ∧ s.held = none ∧ s.current = [] ∧ s.work = none ∧ s.dropped = false ∧ s.offered = none)
    (hr : s.mode = .exec → s.work = none →
      s.current ≠ [] ∧ decode s.current = .incomplete ∧ s.dropped = false ∧ s.offered = none)
    (hw : ∀ ms, s.work = some ms → ∀ i vs, Micro.fill i vs ∈ ms → i + vs.length ≤ s.fbLen)
    (hk : ∀ left, s.work = some left → Running s left) (hn : Noted s) : s.Inv :=
  ⟨h.params, h.memory, h.bounded, h.rotation, h.depth, h.fits, h.configured, h.unconfigured, h.slots, h.glyphs, h.fifo,
    h.held, hi, hh, hr, hw, hk, hn⟩

/-- Drawing keeps them, if it keeps the framebuffer's form and bounds. -/
theorem Static.draw (h : Static s) (hd : s.SameButDrawing u) (hw : Memory.wf u.fb) (hb : ∀ p ∈ u.fb, p.1 < s.fbLen) :
    Static u := by
  obtain ⟨hs, ⟨hf1, -⟩, ⟨ho1, -, ho3, ho4, -, -⟩, -⟩ := hd
  have hl : u.fbLen = s.fbLen := sameSurface_fbLen hs
  obtain ⟨s1, s2, s3, -, s5, -, s7⟩ := hs
  exact
    { params := by rw [ho1]; exact h.params
      memory := hw
      bounded := fun p hp => by rw [hl]; exact hb p hp
      rotation := by rw [s3]; exact h.rotation
      depth := by rw [s5]; exact h.depth
      fits := by rw [hl, ho1]; exact h.fits
      configured := by rw [s1, s2, s7]; exact h.configured
      unconfigured := by rw [s1, s2, s7]; exact h.unconfigured
      slots := by rw [hf1, ho1]; exact h.slots
      glyphs := by rw [hf1]; exact h.glyphs
      fifo := by rw [ho3, ho1]; exact h.fifo
      held := by rw [ho3, ho4, ho1]; exact h.held }

/-- Changes to the engine's own fields keep them. -/
theorem Static.engine (h : Static s) (r : Result) (k : BitVec 5) (m : Mode) (c : List Word) (w : Option (List Micro))
    (d : Bool) (o : Option Token) (fc : List FontChange) :
    Static { s with
      result := r, sticky := k, mode := m, current := c, work := w, dropped := d, offered := o, fontChanges := fc } :=
  ⟨h.params, h.memory, h.bounded, h.rotation, h.depth, h.fits, h.configured, h.unconfigured, h.slots, h.glyphs, h.fifo,
    h.held⟩

theorem noted_draw (h : Noted s) (hd : s.SameButDrawing u) (h1 : u.current = s.current)
    (h2 : u.fontChanges = s.fontChanges) : Noted u := by
  obtain ⟨-, -, ⟨-, -, ho3, ho4, -, -⟩, -⟩ := hd
  unfold Noted State.stream
  rw [h1, h2, ho3, ho4]
  exact h

/-! ### The end of a command -/

/-- At the end of a command the engine is idle, and a change goes on to concern the words behind it only. -/
theorem inv_complete (h : Static s) (hn : Noted s) (c : Result) : (s.complete c).Inv := by
  have hS : Static (s.complete c) := h.engine _ _ _ _ _ _ _ _
  refine hS.inv (fun _ => ⟨rfl, rfl, rfl, rfl⟩) nofun nofun nofun nofun fun k hk => ?_
  simp only [complete_fontChanges, changesAfter, List.mem_map, List.mem_filter, decide_eq_true_eq] at hk
  obtain ⟨k', ⟨hm, hlt⟩, rfl⟩ := hk
  have := hn k' hm
  change 0 < k'.queued - _ ∧ k'.queued - _ ≤ ([] ++ s.stream).length
  rw [List.length_append] at this
  rw [List.nil_append]
  omega

theorem inv_halt (h : Static s) : s.halt.Inv :=
  Static.inv ⟨h.params, h.memory, h.bounded, h.rotation, h.depth, h.fits, h.configured, h.unconfigured, h.slots,
    h.glyphs, Nat.zero_le _, fun h => absurd rfl h⟩ nofun (fun _ => ⟨rfl, rfl, rfl, rfl, rfl, rfl⟩) nofun nofun nofun nofun

/-! ### One piece of work -/

theorem perform_memory (u : State) (m : Micro) (hw : Memory.wf u.fb) (hb : ∀ p ∈ u.fb, p.1 < u.fbLen)
    (hf : ∀ k vs, m = .fill k vs → k + vs.length ≤ u.fbLen) :
    ∀ u', (u.perform m = .done u' ∨ (∃ c, u.perform m = .reject c u') ∨ u.perform m = .waiting u') →
      Memory.wf u'.fb ∧ ∀ p ∈ u'.fb, p.1 < u.fbLen := by
  intro u' h
  cases m with
  | pixel x y c =>
    simp only [State.perform, MicroOutcome.done.injEq, reduceCtorEq, exists_false, or_false] at h
    subst h; exact writePixel_memory _ _ _ _ hw hb
  | cell x y glyph size addr bit fg bg =>
    simp only [State.perform, MicroOutcome.done.injEq, reduceCtorEq, exists_false, or_false] at h
    subst h
    unfold State.drawCell
    dsimp only
    repeat' split
    · exact writePixel_memory { u with freeCtr := u.freeCtr + 1 } _ _ _ hw hb
    · exact ⟨hw, hb⟩
    · exact writePixel_memory _ _ _ _ hw hb
    · exact writePixel_memory _ _ _ _ hw hb
    · exact ⟨hw, hb⟩
  | dropChar =>
    simp only [State.perform, MicroOutcome.done.injEq, reduceCtorEq, exists_false, or_false] at h
    subst h; exact ⟨hw, hb⟩
  | fill i vs =>
    simp only [State.perform, MicroOutcome.done.injEq, reduceCtorEq, exists_false, or_false] at h
    subst h
    exact writeBytes_memory _ _ _ hw hb (hf i vs rfl)
  | emit e =>
    simp only [State.perform, State.emitToken] at h
    split at h
    all_goals rcases h with h | ⟨c, h⟩ | h <;> cases h
    all_goals exact ⟨hw, hb⟩

/-- The invariant while a command draws. -/
theorem inv_work {ms : List Micro} (h : Static s) (hn : Noted s) (hm : s.mode = .exec) (hk : s.work = some ms)
    (hf : ∀ i vs, Micro.fill i vs ∈ ms → i + vs.length ≤ s.fbLen) (hr : Running s ms) : s.Inv := by
  refine h.inv ?_ ?_ ?_ ?_ ?_ hn
  · rw [hm]; exact nofun
  · rw [hm]; exact nofun
  · rw [hk]; exact nofun
  · intro ms' h'; rw [hk] at h'; cases h'; exact hf
  · intro ms' h'; rw [hk] at h'; cases h'; exact hr

/-- What one piece of work keeps of the invariant, whatever its outcome. -/
theorem static_perform {m : Micro} (h : Static s) (hn : Noted s)
    (hf : ∀ i vs, m = .fill i vs → i + vs.length ≤ s.fbLen) :
    ∀ s', (s.perform m = .done s' ∨ (∃ c, s.perform m = .reject c s') ∨ s.perform m = .waiting s') →
      Static s' ∧ Noted s' ∧ s'.fbLen = s.fbLen ∧ s'.mode = s.mode ∧ s'.work = s.work ∧
        ∀ left, Running s left → Running s' left := by
  intro s' hs
  obtain ⟨a, -, -, b, c, d, e⟩ := perform_frame s m s' hs
  obtain ⟨f, g⟩ := perform_memory s m h.memory h.bounded hf s' hs
  exact ⟨h.draw a f g, noted_draw hn a c e, sameSurface_fbLen a.1, b, d, fun _ hr => hr.congr (.of_drawing a) c⟩

/-! ### Taking words -/

theorem static_takeCommand (h : Static s) {ws rest : List Word} (hr : rest.length ≤ s.params.fifoDepth) :
    Static (s.takeCommand ws rest) :=
  ⟨h.params, h.memory, h.bounded, h.rotation, h.depth, h.fits, h.configured, h.unconfigured, h.slots, h.glyphs, hr,
    fun h => absurd rfl h⟩

theorem noted_takeCommand (h : Noted s) {ws rest : List Word} (hl : ws ++ rest = s.current ++ s.stream) :
    Noted (s.takeCommand ws rest) := by
  intro c hc
  have := h c hc
  change _ ∧ c.queued ≤ (ws ++ (s.takeCommand ws rest).stream).length
  rwa [takeCommand_stream, hl]

/-- A word less fits in the FIFO. -/
theorem rest_fits (h : Static s) {w : Word} {rest : List Word} (hs : s.stream = w :: rest) :
    rest.length ≤ s.params.fifoDepth := by
  have hl := congrArg List.length hs
  have hf := h.fifo
  simp only [State.stream, List.length_append, List.length_cons] at hl
  cases hh : s.held with
  | none => rw [hh] at hl; simp at hl; omega
  | some v => rw [hh] at hl; simp at hl; omega

/-- A configuration keeps what does not speak of the engine (R34, R36, R39, R43). -/
theorem static_configures {i : Instr} {s' : State} (h : Static s) (hn : ¬ ConfigRejects s i) (hc : Configures s i s') :
    Static s' ∧ s'.current = s.current ∧ s'.stream = s.stream ∧ s'.fontChanges = s.fontChanges := by
  cases i <;> simp only [Configures] at hc
  case nop => subst hc; exact ⟨h, rfl, rfl, rfl⟩
  case surfInit bg wm hm rot =>
    simp only [ConfigRejects, not_or, not_lt] at hn
    obtain ⟨n1, n2, n3, n4⟩ := hn
    subst hc
    refine ⟨⟨h.params, List.Pairwise.nil, nofun, ?_, rfl, ?_, fun _ => ⟨n1, n2⟩, nofun, h.slots, h.glyphs, h.fifo,
      h.held⟩, rfl, rfl, rfl⟩
    · exact Option.isSome_iff_ne_none.2 fun h => n3 (rotOf_eq_none_iff.1 h)
    · have e : (wm.toNat * 1 + 7) / 8 * hm.toNat ≤ s.params.fbCapacity := by rw [Nat.mul_one]; exact n4
      exact e
  case setRotation rot =>
    obtain ⟨-, rfl⟩ := hc
    simp only [ConfigRejects, not_or] at hn
    exact ⟨⟨h.params, h.memory, h.bounded, Option.isSome_iff_ne_none.2 fun h => hn.2 (rotOf_eq_none_iff.1 h), h.depth,
      h.fits, h.configured, h.unconfigured, h.slots, h.glyphs, h.fifo, h.held⟩, rfl, rfl, rfl⟩
  case setMirror m =>
    obtain ⟨-, rfl⟩ := hc
    exact ⟨⟨h.params, h.memory, h.bounded, h.rotation, h.depth, h.fits, h.configured, h.unconfigured, h.slots, h.glyphs,
      h.fifo, h.held⟩, rfl, rfl, rfl⟩
  case setDepth m =>
    obtain ⟨-, rfl⟩ := hc
    simp only [ConfigRejects, not_or, not_lt] at hn
    obtain ⟨-, n2, n3⟩ := hn
    have hm : m = 1 ∨ m = 2 ∨ m = 4 ∨ m = 16 := by tauto
    have hw : (m.setWidth 5).toNat = m.toNat := by rcases hm with rfl | rfl | rfl | rfl <;> rfl
    refine ⟨⟨h.params, List.Pairwise.nil, nofun, h.rotation, ?_, ?_, h.configured, h.unconfigured, h.slots, h.glyphs,
      h.fifo, h.held⟩, rfl, rfl, rfl⟩
    · rcases hm with rfl | rfl | rfl | rfl <;> rfl
    · change (s.wm.toNat * (m.setWidth 5).toNat + 7) / 8 * s.hm.toNat ≤ s.params.fbCapacity
      rw [hw]; exact n3
  case setFont slot gw gh base =>
    subst hc
    simp only [ConfigRejects, not_or] at hn
    obtain ⟨-, n2, n3⟩ := hn
    refine ⟨⟨h.params, h.memory, h.bounded, h.rotation, h.depth, h.fits, h.configured, h.unconfigured,
      (List.length_set ..).trans h.slots, fun f hf => ?_, h.fifo, h.held⟩, rfl, rfl, rfl⟩
    rcases List.mem_or_eq_of_mem_set hf with hf | rfl
    · exact h.glyphs f hf
    · exact ⟨fun h => absurd h n2, fun h => absurd h n3⟩

/-- The start of a command's rule. -/
theorem inv_startPlan (h : Static s) (hn : Noted s) {i : Instr} {rest : List Word}
    (hd : decode s.current = .command i rest) : (s.startPlan (planOf i s)).Inv := by
  rcases planOf_cases i s with ⟨c, e, -⟩ | ⟨s', e, -, hr, hc⟩ | ⟨ms, e, -, -, hw⟩
  · rw [e]
    exact inv_complete (s := s.begin) (h.engine _ _ _ _ _ _ _ _) hn c
  · rw [e]
    obtain ⟨a, b, c, d⟩ := static_configures h hr hc
    refine inv_complete (s := s'.begin) (a.engine _ _ _ _ _ _ _ _) ?_ .ok
    intro k hk
    change _ ∧ k.queued ≤ (s'.current ++ s'.stream).length
    rw [b, c]
    exact hn k (d ▸ hk)
  · rw [e]
    exact inv_work (s := { s.begin with work := some ms }) (h.engine _ _ _ _ _ _ _ _) hn rfl rfl hw.2.2
      (Running.congr (s := s) ⟨i, rest, ms, hd, e, List.suffix_refl ms⟩ ⟨⟨rfl, rfl, rfl, rfl, rfl, rfl, rfl⟩, rfl, rfl, rfl⟩ rfl)

/-! ### Small steps -/

theorem inv_tick (hI : s.Inv) : (tick s).Inv := by
  have h := hI.static
  have hn : Noted s := hI.changes
  by_cases hh : s.mode = .halted
  · obtain ⟨h1, h2, -⟩ := hI.halted hh
    have : tick s = s := by
      rw [tick_halted hh]
      cases s
      dsimp only at h1 h2 ⊢
      subst h1 h2; rfl
    rw [this]; exact hI
  cases hw : s.work with
  | some ms =>
    have hm : s.mode = .exec := by
      cases hm : s.mode with
      | exec => rfl
      | halted => exact absurd hm hh
      | idle => have := (hI.idle hm).2.1; rw [hw] at this; cases this
    cases ms with
    | nil => rw [tick_nil hh hw]; exact inv_complete h hn _
    | cons m ms =>
      have hfill := hI.work _ hw
      have hrun : Running s (m :: ms) := hI.running _ hw
      have hp := static_perform h hn fun k vs e => hfill k vs (e ▸ List.mem_cons_self)
      rw [tick_cons hh hw]
      cases hpm : s.perform m with
      | done u =>
        obtain ⟨a, b, c, d, -, f⟩ := hp u (Or.inl hpm)
        exact inv_work (s := { u with work := some ms }) (a.engine _ _ _ _ _ _ _ _) b (d.trans hm) rfl
          (fun k vs hk => (hfill k vs (List.mem_cons_of_mem _ hk)).trans_eq c.symm)
          ((f _ hrun.tail).congr ⟨⟨rfl, rfl, rfl, rfl, rfl, rfl, rfl⟩, rfl, rfl, rfl⟩ rfl)
      | reject c u =>
        obtain ⟨a, b, -⟩ := hp u (Or.inr (Or.inl ⟨c, hpm⟩))
        exact inv_complete a b c
      | waiting u =>
        obtain ⟨a, b, c, d, e, f⟩ := hp u (Or.inr (Or.inr hpm))
        exact inv_work a b (d.trans hm) (e.trans hw) (fun k vs hk => (hfill k vs hk).trans_eq c.symm) (f _ hrun)
  | none =>
    cases hs : s.stream with
    | nil => rw [tick_rest hh hw hs]; exact hI
    | cons w r =>
      have hS := static_takeCommand h (ws := s.current ++ [w]) (rest_fits h hs)
      have hN := noted_takeCommand hn (ws := s.current ++ [w]) (rest := r) (by rw [hs]; simp)
      rw [tick_word s w r hh hw hs]
      cases hd : decode (s.current ++ [w]) with
      | command i _ => exact inv_startPlan hS hN hd
      | illegal e => exact inv_halt hS
      | incomplete =>
        have hdo : s.dropped = false ∧ s.offered = none := by
          cases hm : s.mode with
          | idle => exact (hI.idle hm).2.2
          | halted => exact absurd hm hh
          | exec => exact (hI.receiving hm hw).2.2
        have hno : ∀ ms, (s.takeCommand (s.current ++ [w]) r).work ≠ some ms := fun ms hk => by
          change s.work = some ms at hk
          rw [hw] at hk
          cases hk
        exact hS.inv nofun nofun (fun _ _ => ⟨by simp, hd, hdo⟩) (fun ms hk => absurd hk (hno ms))
          (fun ms hk => absurd hk (hno ms)) hN

theorem inv_ticks (hI : s.Inv) (n : Nat) : (ticks n s).Inv := by
  induction n generalizing s with
  | zero => exact hI
  | succ n ih => exact ih (inv_tick hI)

/-! ### From outside -/

theorem inv_inputs (hI : s.Inv) (r : List Input) : ({ s with inputs := r } : State).Inv :=
  ⟨hI.params, hI.memory, hI.bounded, hI.rotation, hI.depth, hI.fits, hI.configured, hI.unconfigured, hI.slots,
    hI.glyphs, hI.fifo, hI.held, hI.idle, hI.halted, hI.receiving, hI.work,
      hI.keepsRunning rfl rfl ⟨⟨rfl, rfl, rfl, rfl, rfl, rfl, rfl⟩, rfl, rfl, rfl⟩, hI.changes⟩

/-- A host write keeps the invariant; it comes only while the host is not stalled (R355). -/
theorem inv_hostWrite (hI : s.Inv) (hheld : s.held = none) (off : Nat) (v : Word) : (s.hostWrite off v).Inv := by
  have more : ∀ {c : FontChange} {l : List Word}, (s.current ++ s.stream).length ≤ l.length → c ∈ s.fontChanges →
      0 < c.queued ∧ c.queued ≤ l.length := fun hl hc => ⟨(hI.changes _ hc).1, (hI.changes _ hc).2.trans hl⟩
  rcases hostWrite_cases s off v with ⟨-, e⟩ | ⟨-, e⟩ | ⟨-, -, e⟩ | ⟨-, e⟩ | e <;> rw [e]
  · rcases pushWord_cases s v with ⟨-, e⟩ | ⟨hm, hl, e⟩ | ⟨hm, hl, e⟩ <;> rw [e]
    · exact hI
    · refine Static.inv ⟨hI.params, hI.memory, hI.bounded, hI.rotation, hI.depth, hI.fits, hI.configured,
        hI.unconfigured, hI.slots, hI.glyphs, ?_, fun h => absurd hheld h⟩ hI.idle (fun h => absurd h hm) hI.receiving
        hI.work (hI.keepsRunning rfl rfl ⟨⟨rfl, rfl, rfl, rfl, rfl, rfl, rfl⟩, rfl, rfl, rfl⟩) fun c hc => more ?_ hc
      · simp; omega
      · simp [State.stream, hheld]
    · refine Static.inv ⟨hI.params, hI.memory, hI.bounded, hI.rotation, hI.depth, hI.fits, hI.configured,
        hI.unconfigured, hI.slots, hI.glyphs, hI.fifo, fun _ => le_antisymm hI.fifo hl⟩ hI.idle (fun h => absurd h hm)
        hI.receiving hI.work (hI.keepsRunning rfl rfl ⟨⟨rfl, rfl, rfl, rfl, rfl, rfl, rfl⟩, rfl, rfl, rfl⟩) fun c hc => more ?_ hc
      simp [State.stream, hheld]
  · exact ⟨hI.params, hI.memory, hI.bounded, hI.rotation, hI.depth, hI.fits, hI.configured, hI.unconfigured, hI.slots,
      hI.glyphs, hI.fifo, hI.held, hI.idle, hI.halted, hI.receiving, hI.work,
      hI.keepsRunning rfl rfl ⟨⟨rfl, rfl, rfl, rfl, rfl, rfl, rfl⟩, rfl, rfl, rfl⟩, hI.changes⟩
  · exact Static.inv ⟨hI.params, hI.memory, hI.bounded, hI.rotation, hI.depth, hI.fits, hI.configured, hI.unconfigured,
      hI.slots, hI.glyphs, Nat.zero_le _, fun h => absurd hheld h⟩ (fun _ => ⟨rfl, rfl, rfl, rfl⟩) nofun nofun nofun nofun nofun
  · exact ⟨hI.params, hI.memory, hI.bounded, hI.rotation, hI.depth, hI.fits, hI.configured, hI.unconfigured, hI.slots,
      hI.glyphs, hI.fifo, hI.held, hI.idle, hI.halted, hI.receiving, hI.work,
      hI.keepsRunning rfl rfl ⟨⟨rfl, rfl, rfl, rfl, rfl, rfl, rfl⟩, rfl, rfl, rfl⟩, hI.changes⟩
  · exact hI

end Sys2Proof.Machine
end

