-- ==== Sys2Proof/Laws/Number.lean ====
section
/-! SUPPORT. Decimal digits, and rounding a quotient to the nearest integer. -/

namespace Sys2Proof.Machine

theorem roundShift_spec (n k : Nat) :
    (roundShift n k = n / 2 ^ k ∨ roundShift n k = n / 2 ^ k + 1) ∧
    2 * roundShift n k * 2 ^ k ≤ 2 * n + 2 ^ k ∧ 2 * n ≤ 2 * roundShift n k * 2 ^ k + 2 ^ k ∧
    ((2 * roundShift n k * 2 ^ k = 2 * n + 2 ^ k ∨ 2 * n = 2 * roundShift n k * 2 ^ k + 2 ^ k) →
      roundShift n k % 2 = 0) := by
  unfold roundShift
  dsimp only
  have hp : 0 < 2 ^ k := Nat.two_pow_pos k
  have hd : 2 ^ k * (n / 2 ^ k) + n % 2 ^ k = n := Nat.div_add_mod _ _
  have hm : n % 2 ^ k < 2 ^ k := Nat.mod_lt _ hp
  generalize n / 2 ^ k = q at *
  generalize n % 2 ^ k = r at *
  generalize 2 ^ k = m at *
  have e0 : 2 * q * m = 2 * (m * q) := by ring
  have e1 : 2 * (q + 1) * m = 2 * (m * q) + 2 * m := by ring
  generalize m * q = z at *
  split
  · simp only [e0]; refine ⟨Or.inl trivial, ?_, ?_, ?_⟩ <;> omega
  · split
    · simp only [e1]; refine ⟨Or.inr trivial, ?_, ?_, ?_⟩ <;> omega
    · split
      · simp only [e0]; refine ⟨Or.inl trivial, ?_, ?_, ?_⟩ <;> omega
      · simp only [e1]; refine ⟨Or.inr trivial, ?_, ?_, ?_⟩ <;> omega

theorem asciiDigit_toNat {n : Nat} (h : n < 10) : (asciiDigit n).toNat = 0x30 + n := by
  unfold asciiDigit; rw [BitVec.toNat_ofNat]; omega

def digitsValue (cs : List Byte) (a : Nat) : Nat := cs.foldl (fun a c => a * 10 + (c.toNat - 0x30)) a

theorem decimalLoop_spec (fuel n : Nat) (acc : List Byte) (hn : n < 10 ^ fuel ∧ 0 < fuel) :
    ∃ ds, decimalLoop fuel n acc = ds ++ acc ∧ digitsValue ds 0 = n ∧ (∀ c ∈ ds, 0x30 ≤ c.toNat ∧ c.toNat ≤ 0x39) ∧
      (ds.head? = some 0x30 → ds = [0x30] ∧ n = 0) ∧ 0 < ds.length ∧ ∀ k, n < 10 ^ k → 0 < k → ds.length ≤ k := by
  induction fuel generalizing n acc with
  | zero => omega
  | succ f ih =>
    unfold decimalLoop
    by_cases h : n < 10
    · rw [if_pos h]
      refine ⟨[asciiDigit n], rfl, ?_, ?_, ?_, by simp, ?_⟩
      · simp [digitsValue, asciiDigit_toNat h]
      · intro c hc
        rw [List.mem_singleton] at hc
        subst hc
        rw [asciiDigit_toNat h]; omega
      · intro hh
        simp only [List.head?_cons, Option.some.injEq] at hh
        have := asciiDigit_toNat h
        rw [hh] at this
        have h0 : n = 0 := by simpa using this
        subst h0
        exact ⟨rfl, rfl⟩
      · intro k _ hk; exact hk
    · rw [if_neg h]
      have hf : 0 < f := by
        rcases Nat.eq_zero_or_pos f with rfl | hf
        · simp at hn; omega
        · exact hf
      have hn' : n / 10 < 10 ^ f := by
        have := hn.1; rw [pow_succ] at this; omega
      obtain ⟨ds, e, v, hd, hh, hl, hk⟩ := ih (n / 10) (asciiDigit (n % 10) :: acc) ⟨hn', hf⟩
      have hm : n % 10 < 10 := Nat.mod_lt _ (by norm_num)
      refine ⟨ds ++ [asciiDigit (n % 10)], by rw [e]; simp, ?_, ?_, ?_, by simp, ?_⟩
      · simp only [digitsValue] at v ⊢
        rw [List.foldl_append, v]
        simp only [List.foldl_cons, List.foldl_nil, asciiDigit_toNat hm]
        omega
      · intro c hc
        rcases List.mem_append.1 hc with hc | hc
        · exact hd c hc
        · rw [List.mem_singleton] at hc
          subst hc
          rw [asciiDigit_toNat hm]; omega
      · intro hh'
        cases ds with
        | nil => simp at hl
        | cons c cs =>
          obtain ⟨_, h0⟩ := hh (by simpa using hh')
          omega
      · intro k hk1 hk2
        cases k with
        | zero => omega
        | succ k =>
          have : n / 10 < 10 ^ k := by rw [pow_succ] at hk1; omega
          have hk0 : 0 < k := by
            rcases Nat.eq_zero_or_pos k with rfl | hk0
            · simp at this; omega
            · exact hk0
          have := hk k this hk0
          simp; omega

theorem decimal_spec (n : Nat) :
    digitsValue (decimal n) 0 = n ∧ (∀ c ∈ decimal n, 0x30 ≤ c.toNat ∧ c.toNat ≤ 0x39) ∧
      ((decimal n).head? = some 0x30 → decimal n = [0x30]) ∧ ∀ k, n < 10 ^ k → 0 < k → (decimal n).length ≤ k := by
  have hn : n < 10 ^ (n.log2 + 1) :=
    lt_of_lt_of_le Nat.lt_log2_self (Nat.pow_le_pow_left (by norm_num) _)
  obtain ⟨ds, e, v, hd, hh, _, hk⟩ := decimalLoop_spec (n.log2 + 1) n [] ⟨hn, by omega⟩
  rw [List.append_nil] at e
  change decimal n = ds at e
  rw [e]
  exact ⟨v, hd, fun h => (hh h).1, hk⟩

theorem digitsValue_zeros (k : Nat) (cs : List Byte) : digitsValue (List.replicate k (asciiDigit 0) ++ cs) 0 = digitsValue cs 0 := by
  induction k with
  | zero => rfl
  | succ k ih =>
    rw [List.replicate_succ, List.cons_append]
    exact ih

/-- When a value has a string, and which (R260, R263). -/
theorem formatNumber_eq_some {v : BitVec 64} {d : Nat} {chars : List Byte} : formatNumber v d = some chars ↔
    v.extractLsb' 52 11 ≠ 0x7FF ∧ chars = numberChars v d ∧ chars.length ≤ 255 := by
  have hf : isNotFinite v = true ↔ v.extractLsb' 52 11 = 0x7FF := by
    simp [isNotFinite, biasedExp, ← BitVec.toNat_inj]
  unfold formatNumber
  by_cases h : isNotFinite v = true
  · rw [if_pos h]
    exact iff_of_false nofun fun h' => h'.1 (hf.1 h)
  rw [if_neg h]
  dsimp only
  have hn : v.extractLsb' 52 11 ≠ 0x7FF := fun h' => h (hf.2 h')
  by_cases hl : (numberChars v d).length > Config.numCapacity
  · rw [if_pos hl]
    refine iff_of_false nofun ?_
    rintro ⟨-, rfl, h'⟩
    exact absurd hl (Nat.not_lt.2 h')
  · rw [if_neg hl, Option.some.injEq]
    exact ⟨fun h' => h' ▸ ⟨hn, rfl, Nat.not_lt.1 hl⟩, fun h' => h'.2.1.symm⟩

end Sys2Proof.Machine
end

