-- ==== Sys2Proof/Laws/Text.lean ====
section
/-! SUPPORT. Text: the work of glyphs is a painting, in their own cells only where a glyph was changed; where the
cursor stands. -/

namespace Sys2Proof.Machine

variable {s t : State}

/-! ### The `dropped` flag and the choice of free values ride along -/

theorem writePixel_setFree (s : State) (n : Nat) (x y : Int) (c : Half) :
    ({ s with freeCtr := n } : State).writePixel x y c = { s.writePixel x y c with freeCtr := n } := by
  have e : ({ s with freeCtr := n } : State).pixelTarget x y = s.pixelTarget x y := sameSurface_pixelTarget
    (s := s) ⟨rfl, rfl, rfl, rfl, rfl, rfl, rfl⟩ x y
  unfold State.writePixel
  rw [e]
  cases s.pixelTarget x y with
  | place d i X => cases d <;> rfl
  | dropped => rfl
  | skipped => rfl

theorem paint_setFree (s : State) (n : Nat) (ps : List (Int × Int × Half)) :
    ({ s with freeCtr := n } : State).paint ps = { s.paint ps with freeCtr := n } := by
  induction ps generalizing s with
  | nil => rfl
  | cons p ps ih => rw [paint_cons, writePixel_setFree, ih, paint_cons]

theorem paint_append (s : State) (ps qs : List (Int × Int × Half)) : s.paint (ps ++ qs) = (s.paint ps).paint qs :=
  List.foldl_append

theorem writePixel_setDropped (s : State) (b : Bool) (x y : Int) (c : Half) :
    ({ s with dropped := b } : State).writePixel x y c =
      { s.writePixel x y c with dropped := b || decide (s.pixelOutcome x y = .dropped) } := by
  have e : ({ s with dropped := b } : State).pixelTarget x y = s.pixelTarget x y := sameSurface_pixelTarget
    (s := s) ⟨rfl, rfl, rfl, rfl, rfl, rfl, rfl⟩ x y
  unfold State.writePixel State.pixelOutcome
  rw [e]
  cases s.pixelTarget x y with
  | place d i X => cases d <;> simp [State.pack, State.writeFb, State.readFb]
  | dropped => simp
  | skipped => simp

theorem paint_setDropped (s : State) (ps : List (Int × Int × Half)) :
    ({ s with dropped := true } : State).paint ps = { s.paint ps with dropped := true } := by
  induction ps generalizing s with
  | nil => rfl
  | cons p ps ih =>
    rw [paint_cons, writePixel_setDropped, Bool.true_or, ih, paint_cons]

/-! ### Running glyphs -/

/-- The work of text: cells and dropped characters. -/
def IsText (ms : List Micro) : Prop :=
  ∀ m ∈ ms, m = .dropChar ∨ ∃ x y g n a b fg bg, m = .cell x y g n a b fg bg

theorem IsText.local {ms : List Micro} (h : IsText ms) : Local ms := by
  intro e he
  rcases h _ he with h | ⟨_, _, _, _, _, _, _, _, h⟩ <;> cases h

/-- What a piece of text may write depends on font memory and its changes, not on what has been drawn. -/
theorem pieceDraws_congr (h1 : t.fontMem = s.fontMem) (h2 : t.params = s.params) (h3 : t.fontChanges = s.fontChanges) :
    t.PieceDraws = s.PieceDraws := by
  funext m ps
  cases m <;> simp only [State.PieceDraws, State.glyphChanged, h1, h2, h3]

/-- One pixel of a glyph is painted (R245), or, when the glyph was changed, painted in any colour or left (R351). -/
theorem drawCell_paint (s : State) (x y : Int) (glyph size addr bit : Nat) (fg bg : Half) :
    ∃ ps n, s.PieceDraws (.cell x y glyph size addr bit fg bg) ps ∧
      s.drawCell x y glyph size addr bit fg bg = { s.paint ps with freeCtr := n } := by
  unfold State.drawCell State.PieceDraws
  cases hg : s.glyphChanged glyph size with
  | true =>
    rw [if_pos rfl]
    cases Config.unstableCell s.freeCtr with
    | none => exact ⟨[], s.freeCtr + 1, ⟨fun h => by simp [hg] at h, Or.inl rfl⟩, rfl⟩
    | some c => exact ⟨[(x, y, c)], s.freeCtr + 1, ⟨fun h => by simp [hg] at h, Or.inr ⟨c, rfl⟩⟩, writePixel_setFree s _ x y c⟩
  | false =>
    rw [if_neg Bool.false_ne_true]
    refine ⟨_, s.freeCtr, ⟨fun _ => rfl, ?_⟩, ?_⟩
    · repeat' split
      exacts [Or.inr ⟨_, rfl⟩, Or.inr ⟨_, rfl⟩, Or.inl rfl]
    · have e : ∀ ps, ({ s.paint ps with freeCtr := s.freeCtr } : State) = s.paint ps := fun ps => by
        obtain ⟨m, b, h⟩ := paint_eq s ps
        rw [h]
      rw [e]
      change (if (s.fontMem.getD addr 0).getLsbD bit then s.writePixel x y fg
        else if bg ≠ s.params.transparent then s.writePixel x y bg else s) = _
      by_cases h1 : (s.fontMem.getD addr 0).getLsbD bit = true
      · rw [if_pos h1, if_pos h1]; rfl
      · rw [if_neg h1, if_neg h1]
        split <;> rfl

/-- Text paints what its pieces may write, in order, and drops what is dropped (R245, R304, R351). -/
theorem after_text (s : State) (ms : List Micro) (hm : IsText ms) : ∃ pss n, s.PiecesDraw ms pss ∧
    s.after ms = { s.paint pss.flatten with
      dropped := (s.paint pss.flatten).dropped || decide (.dropChar ∈ ms), freeCtr := n } := by
  induction ms generalizing s with
  | nil => exact ⟨[], s.freeCtr, List.Forall₂.nil, by simp [State.after, paint_nil]⟩
  | cons m ms ih =>
    have hms : IsText ms := fun k hk => hm k (List.mem_cons_of_mem _ hk)
    rcases hm m List.mem_cons_self with rfl | ⟨x, y, g, k, a, b, fg, bg, rfl⟩
    · obtain ⟨pss, n, h1, h2⟩ := ih { s with dropped := true } hms
      rw [State.PiecesDraw, pieceDraws_congr (s := s) (t := { s with dropped := true }) rfl rfl rfl] at h1
      refine ⟨[] :: pss, n, List.Forall₂.cons rfl h1, ?_⟩
      rw [after_cons]
      refine h2.trans ?_
      rw [paint_setDropped]
      simp
    · obtain ⟨ps, n0, h0, e0⟩ := drawCell_paint s x y g k a b fg bg
      have hf := sameButDrawing_paint s ps
      have hc : (s.paint ps).fontChanges = s.fontChanges := by
        obtain ⟨m, b', h⟩ := paint_eq s ps
        rw [h]
      obtain ⟨pss, n, h1, h2⟩ := ih { s.paint ps with freeCtr := n0 } hms
      rw [State.PiecesDraw, pieceDraws_congr (s := s) (t := { s.paint ps with freeCtr := n0 }) hf.2.1.2 hf.2.2.1.1 hc] at h1
      refine ⟨ps :: pss, n, List.Forall₂.cons h0 h1, ?_⟩
      rw [after_cons, show s.effect (.cell x y g k a b fg bg) = s.drawCell x y g k a b fg bg from rfl, e0, h2,
        paint_setFree, List.flatten_cons, paint_append]
      simp

theorem Forall₂.split_append {α β : Type} {R : α → β → Prop} {a b : List α} {c : List β}
    (h : List.Forall₂ R (a ++ b) c) : ∃ c1 c2, c = c1 ++ c2 ∧ List.Forall₂ R a c1 ∧ List.Forall₂ R b c2 := by
  induction a generalizing c with
  | nil => exact ⟨[], c, rfl, List.Forall₂.nil, h⟩
  | cons x a ih =>
    cases h with
    | cons h1 h2 =>
      obtain ⟨c1, c2, rfl, e1, e2⟩ := ih h2
      exact ⟨_ :: c1, c2, rfl, List.Forall₂.cons h1 e1, e2⟩

theorem isText_glyphWork (s : State) (f : Font) (x y : Int) (ch : Byte) (fg bg : Half) :
    IsText (glyphWork s f x y ch fg bg) := by
  intro m hm
  unfold glyphWork at hm
  dsimp only at hm
  repeat' split at hm
  all_goals simp only [List.mem_singleton, List.mem_flatMap, glyphRow, List.mem_map] at hm
  · exact Or.inl hm
  · exact Or.inl hm
  · exact Or.inl hm
  · obtain ⟨_, _, _, _, rfl⟩ := hm
    exact Or.inr ⟨_, _, _, _, _, _, _, _, rfl⟩

/-- The place of a piece of text. -/
def cellPlace : Micro → List (Int × Int)
  | .cell x y _ _ _ _ _ _ => [(x, y)]
  | .dropChar => []
  | .pixel _ _ _ => []
  | .fill _ _ => []
  | .emit _ => []

/-- Pieces of text write in their own cells, in order, at most once each. -/
theorem piecesDraw_places {ms : List Micro} {pss : List (List (Int × Int × Half))} (h : s.PiecesDraw ms pss) :
    (pss.flatten.map fun p => (p.1, p.2.1)).Sublist (ms.flatMap cellPlace) := by
  induction h with
  | nil => exact List.Sublist.slnil
  | @cons m ps ms pss h _ ih =>
    rw [List.flatten_cons, List.map_append, List.flatMap_cons]
    refine List.Sublist.append ?_ ih
    cases m with
    | cell x y g n a b fg bg =>
      rcases h.2 with rfl | ⟨c, rfl⟩
      · exact List.nil_sublist _
      · exact List.Sublist.refl _
    | dropChar => cases h; exact List.Sublist.slnil
    | pixel x y c => exact h.elim
    | fill i vs => exact h.elim
    | emit e => exact h.elim

/-- The pixels one piece of text writes while its glyph is as it was (R245). -/
def inked (s : State) : Micro → List (Int × Int × Half)
  | .cell x y _ _ a b fg bg =>
    if (s.fontMem.getD a 0).getLsbD b then [(x, y, fg)] else if bg ≠ s.params.transparent then [(x, y, bg)] else []
  | .dropChar => []
  | .pixel _ _ _ => []
  | .fill _ _ => []
  | .emit _ => []

theorem piecesDraw_inked {ms : List Micro} {pss : List (List (Int × Int × Half))} (h : s.PiecesDraw ms pss)
    (hg : ∀ x y g n a b fg bg, Micro.cell x y g n a b fg bg ∈ ms → s.glyphChanged g n = false) :
    pss.flatten = ms.flatMap (inked s) := by
  induction h with
  | nil => rfl
  | @cons m ps ms pss h _ ih =>
    rw [List.flatten_cons, List.flatMap_cons, ih fun x y g n a b fg bg hm => hg x y g n a b fg bg (List.mem_cons_of_mem _ hm)]
    congr 1
    cases m with
    | cell x y g n a b fg bg => exact h.1 (hg x y g n a b fg bg List.mem_cons_self)
    | dropChar => exact h
    | pixel x y c => exact h.elim
    | fill i vs => exact h.elim
    | emit e => exact h.elim

/-- A character's work drops it exactly when it is dropped whole (R244, R246, R247), and otherwise is one cell for each
of its glyph's pixels, which ink the glyph's pixels (R245, R248). -/
theorem glyphWork_spec (s : State) (f : Font) (x y : Int) (ch : Byte) (fg bg : Half) :
    (s.CharDropped f x y ch ∧ glyphWork s f x y ch fg bg = [.dropChar]) ∨
      (¬ s.CharDropped f x y ch ∧ .dropChar ∉ glyphWork s f x y ch fg bg ∧
        (glyphWork s f x y ch fg bg).flatMap cellPlace = glyphCells f x y ∧
        (glyphWork s f x y ch fg bg).flatMap (inked s) = s.charPixels f x y ch fg bg ∧
        ∀ x' y' g n a b fg' bg', Micro.cell x' y' g n a b fg' bg' ∈ glyphWork s f x y ch fg bg →
          (s.glyphChanged g n = true ↔ s.CharChanged f ch)) := by
  have ea : glyphAddr f ch = f.base.toNat + (ch.toNat - 0x20) * (f.h.toNat * ((f.w.toNat + 7) / 8)) := by
    rw [glyphAddr, Nat.mul_assoc]; rfl
  have eb : bytesPerRow f = (f.w.toNat + 7) / 8 := rfl
  unfold glyphWork State.charPixels State.CharDropped
  dsimp only
  by_cases h1 : ch.toNat < 0x20
  · rw [if_pos h1]; exact Or.inl ⟨Or.inl h1, rfl⟩
  by_cases h2 : x > s.width ∨ y > s.height
  · rw [if_neg h1, if_pos h2]; exact Or.inl ⟨by tauto, rfl⟩
  by_cases h3 : glyphAddr f ch + f.h.toNat * bytesPerRow f > s.fontMemSize
  · rw [if_neg h1, if_neg h2, if_pos h3]
    rw [ea, eb, State.fontMemSize] at h3
    exact Or.inl ⟨by tauto, rfl⟩
  · rw [if_neg h1, if_neg h2, if_neg h3]
    rw [ea, eb, State.fontMemSize] at h3
    rw [if_neg (by tauto)]
    refine Or.inr ⟨by tauto, by simp [glyphRow], ?_, ?_, ?_⟩
    · rw [List.flatMap_assoc]
      congr 1
      funext row
      rw [glyphRow, List.flatMap_map, List.map_eq_flatMap]
      rfl
    · rw [List.flatMap_assoc]
      congr 1
      funext row
      simp only [glyphRow, List.flatMap_map, inked, ea, eb, glyphByteAddr]
      rfl
    · intro x' y' g n a b fg' bg' hm
      simp only [glyphRow, List.mem_flatMap, List.mem_map, Micro.cell.injEq] at hm
      obtain ⟨_, _, _, _, _, _, rfl, rfl, _⟩ := hm
      simp only [State.glyphChanged, State.CharChanged, List.any_eq_true, Bool.and_eq_true, decide_eq_true_eq, ea, eb]

/-- A character's pieces write what the character may write. -/
theorem charDraws_of_pieces {f : Font} {x y : Int} {ch : Byte} {fg bg : Half} {pss : List (List (Int × Int × Half))}
    (h : s.PiecesDraw (glyphWork s f x y ch fg bg) pss) : s.CharDraws f x y ch fg bg pss.flatten := by
  rcases glyphWork_spec s f x y ch fg bg with ⟨hd, e⟩ | ⟨hd, _, e1, e2, e3⟩
  · rw [e] at h
    have hp := piecesDraw_places h
    have hi := piecesDraw_inked h (by simp)
    have hf : pss.flatten = [] := hi
    rw [hf]
    exact ⟨fun _ => by rw [State.charPixels, if_pos hd], List.nil_sublist _⟩
  · refine ⟨fun hc => ?_, e1 ▸ piecesDraw_places h⟩
    have hn := hc.resolve_left hd
    rw [← e2]
    refine piecesDraw_inked h fun x' y' g n a b fg' bg' hm => ?_
    rw [← Bool.not_eq_true, e3 x' y' g n a b fg' bg' hm]
    exact hn

theorem isText_stringWork (s : State) (f : Font) (X Y : Int) (fg bg : Half) (cs : List Byte) :
    IsText (stringWork s f X Y fg bg cs) := by
  intro m hm
  simp only [stringWork, List.mem_flatMap] at hm
  obtain ⟨_, _, hm⟩ := hm
  exact isText_glyphWork _ _ _ _ _ _ _ m hm

/-- Placed characters, piece by piece and character by character (R255). -/
theorem placedDraw_of_pieces (f : Font) (fg bg : Half) (cs : List (Int × Int × Byte)) {pss : List (List (Int × Int × Half))}
    (h : s.PiecesDraw (cs.flatMap fun p => glyphWork s f p.1 p.2.1 p.2.2 fg bg) pss) :
    ∃ qss, qss.flatten = pss.flatten ∧ List.Forall₂ (fun p ps => s.CharDraws f p.1 p.2.1 p.2.2 fg bg ps) cs qss := by
  induction cs generalizing pss with
  | nil =>
    rw [List.flatMap_nil] at h
    cases h
    exact ⟨[], rfl, List.Forall₂.nil⟩
  | cons p cs ih =>
    rw [List.flatMap_cons] at h
    obtain ⟨c1, c2, rfl, h1, h2⟩ := Forall₂.split_append h
    obtain ⟨qss, e, hq⟩ := ih h2
    exact ⟨c1.flatten :: qss, by simp [e], List.Forall₂.cons (charDraws_of_pieces h1) hq⟩

theorem dropChar_mem_placed (f : Font) (fg bg : Half) (cs : List (Int × Int × Byte)) :
    .dropChar ∈ (cs.flatMap fun p => glyphWork s f p.1 p.2.1 p.2.2 fg bg) ↔
      ∃ p ∈ cs, s.CharDropped f p.1 p.2.1 p.2.2 := by
  simp only [List.mem_flatMap]
  refine exists_congr fun p => and_congr_right fun _ => ?_
  rcases glyphWork_spec s f p.1 p.2.1 p.2.2 fg bg with ⟨hd, e⟩ | ⟨hd, e, _⟩
  · simp [e, hd]
  · exact iff_of_false e hd

/-- Running a command of text: what it paints is what its placed characters may write, the result says whether a
character or a pixel was dropped, and nothing else changes (R250, R255, R351). -/
theorem runPlan_text (s : State) (f : Font) (fg bg : Half) (cs : List (Int × Int × Byte)) :
    let t := s.runPlan (.draw (cs.flatMap fun p => glyphWork s f p.1 p.2.1 p.2.2 fg bg))
    ∃ qss, List.Forall₂ (fun p ps => s.CharDraws f p.1 p.2.1 p.2.2 fg bg ps) cs qss ∧
      (∀ j, t.readFb j = (s.paint qss.flatten).readFb j) ∧ (∀ j, s.fbLen ≤ j → t.readFb j = s.readFb j) ∧
      s.Ended t (s.textResult f cs qss.flatten) ∧ s.SameButDrawing t ∧ s.SameTransport t := by
  intro t
  have ht : IsText (cs.flatMap fun p => glyphWork s f p.1 p.2.1 p.2.2 fg bg) := fun m hm => by
    obtain ⟨_, _, hm⟩ := List.mem_flatMap.1 hm
    exact isText_glyphWork _ _ _ _ _ _ _ m hm
  have ets : t = (s.begin.after (cs.flatMap fun p => glyphWork s f p.1 p.2.1 p.2.2 fg bg)).completeDrawn :=
    runWork_after ht.local s.begin
  obtain ⟨pss, n, h1, h2⟩ := after_text s.begin _ ht
  rw [State.PiecesDraw, pieceDraws_congr (s := s) (t := s.begin) rfl rfl rfl] at h1
  obtain ⟨qss, e, hq⟩ := placedDraw_of_pieces f fg bg cs h1
  rw [h2] at ets
  rw [← e] at ets
  have hS : s.SameButDrawing t := draws_same
  have hfb : ∀ j, t.readFb j = (s.paint qss.flatten).readFb j := fun j => by
    refine readFb_congr ?_ (hS.2.2.2.trans (sameButDrawing_paint s _).2.2.2.symm) j
    rw [ets]
    exact paint_fb_congr (s := s) (t := s.begin) rfl rfl (sameButDrawing_begin s).1 _
  refine ⟨qss, hq, hfb, fun j hj => by rw [hfb, readFb_paint_outside _ _ hj], ?_, hS, ?_⟩
  · have hd : ((s.begin.paint qss.flatten).dropped ||
        decide (.dropChar ∈ cs.flatMap fun p => glyphWork s f p.1 p.2.1 p.2.2 fg bg)) =
        decide ((∃ p ∈ cs, s.CharDropped f p.1 p.2.1 p.2.2) ∨
          ∃ q ∈ qss.flatten, s.pixelOutcome q.1 q.2.1 = .dropped) := by
      rw [paint_dropped]
      simp only [begin_dropped, Bool.false_or, dropChar_mem_placed, Bool.decide_or,
        fun p : Int × Int × Half => sameSurface_pixelOutcome (sameButDrawing_begin s).1 p.1 p.2.1]
      exact Bool.or_comm _ _
    rw [ets, State.completeDrawn, State.textResult]
    dsimp only
    rw [hd]
    simp only [decide_eq_true_eq]
    obtain ⟨m, b, h⟩ := paint_eq s.begin qss.flatten
    rw [h]
    simp [State.Ended]
  · rw [ets]
    obtain ⟨m, b, h⟩ := paint_eq s.begin qss.flatten
    rw [h]
    exact ⟨rfl, rfl⟩

/-! ### The cursor -/

theorem placeCursor_cases (s : State) (f : Font) (X Y px py : Int) :
    (px + f.w.toNat ≤ s.width → py + f.h.toNat ≤ s.height → placeCursor s f X Y (px, py) = (px, py)) ∧
      (px + f.w.toNat > s.width → py + f.h.toNat + f.h.toNat ≤ s.height →
        placeCursor s f X Y (px, py) = (X, py + f.h.toNat)) ∧
      (px + f.w.toNat ≤ s.width → py + f.h.toNat > s.height → placeCursor s f X Y (px, py) = (X, Y)) ∧
      (px + f.w.toNat > s.width → py + f.h.toNat + f.h.toNat > s.height → placeCursor s f X Y (px, py) = (X, Y)) := by
  refine ⟨fun h1 h2 => ?_, fun h1 h2 => ?_, fun h1 h2 => ?_, fun h1 h2 => ?_⟩
  · simp [placeCursor, not_lt.2 h1, not_lt.2 h2]
  · simp [placeCursor, h1, not_lt.2 h2]
  · simp [placeCursor, not_lt.2 h1, h2]
  · simp [placeCursor, h1, h2]

theorem placeCursor_inside (s : State) (f : Font) (X Y : Int) (p : Int × Int) :
    ((placeCursor s f X Y p).1 = X ∨ (placeCursor s f X Y p).1 + f.w.toNat ≤ s.width) ∧
      (placeCursor s f X Y p = (X, Y) ∨ (placeCursor s f X Y p).2 + f.h.toNat ≤ s.height) := by
  unfold placeCursor
  dsimp only
  repeat' split
  all_goals
    constructor
    · first | exact Or.inl rfl | exact Or.inr (by omega)
    · first | exact Or.inl rfl | exact Or.inr (by omega)

theorem cursorPath_chars (s : State) (f : Font) (X Y : Int) (cs : List Byte) (p : Int × Int) :
    (cursorPath s f X Y p cs).map (fun q => q.2.2) = cs := by
  induction cs generalizing p with
  | nil => rfl
  | cons c cs ih => simp [cursorPath, ih]

/-- The first character stands where the cursor is placed from its start, each later one where it is placed from right
after the one before (R255). -/
theorem cursorPath_get (s : State) (f : Font) (X Y : Int) (cs : List Byte) (p : Int × Int) (k : Nat)
    {q : Int × Int × Byte} (h : (cursorPath s f X Y p cs)[k]? = some q) :
    (k = 0 → (q.1, q.2.1) = placeCursor s f X Y p) ∧
      ∀ r, 0 < k → (cursorPath s f X Y p cs)[k - 1]? = some r →
        (q.1, q.2.1) = placeCursor s f X Y (r.1 + f.w.toNat, r.2.1) := by
  induction cs generalizing p k with
  | nil => simp [cursorPath] at h
  | cons c cs ih =>
    cases k with
    | zero =>
      simp only [cursorPath, List.getElem?_cons_zero, Option.some.injEq] at h
      subst h
      exact ⟨fun _ => rfl, fun _ h => absurd h (lt_irrefl 0)⟩
    | succ k =>
      simp only [cursorPath, List.getElem?_cons_succ] at h
      obtain ⟨i1, i2⟩ := ih _ k h
      refine ⟨nofun, fun r _ hr => ?_⟩
      cases k with
      | zero =>
        simp only [cursorPath, Nat.add_sub_cancel, List.getElem?_cons_zero, Option.some.injEq] at hr
        subst hr
        exact i1 rfl
      | succ k =>
        simp only [cursorPath, Nat.add_sub_cancel, List.getElem?_cons_succ] at hr
        exact i2 r (Nat.succ_pos k) hr

theorem cursorPath_mem (s : State) (f : Font) (X Y : Int) (cs : List Byte) (p : Int × Int) {q : Int × Int × Byte}
    (h : q ∈ cursorPath s f X Y p cs) : ∃ p', (q.1, q.2.1) = placeCursor s f X Y p' := by
  induction cs generalizing p with
  | nil => simp [cursorPath] at h
  | cons c cs ih =>
    simp only [cursorPath, List.mem_cons] at h
    rcases h with rfl | h
    · exact ⟨p, rfl⟩
    · exact ih _ h

end Sys2Proof.Machine
end

