-- ==== Sys2Proof/Laws/FontByte.lean ====
section
/-! SUPPORT. The platform's write of a font memory byte: what it changes, and that it keeps the invariant (R351). -/

namespace Sys2Proof.Machine

variable {s : State}

/-- Only text reads font memory (R241). -/
theorem planOf_text {i : Instr} {ms : List Micro} (h : planOf i s = .draw ms) :
    ((i.op = .drawChar ∨ i.op = .drawString ∨ i.op = .drawNumber) ∧ IsText ms) ∨
      ∀ m ∈ ms, ∀ a, m.readsFont a = false := by
  have surf : ∀ {p : Plan}, s.needsSurface p = .draw ms → p = .draw ms := fun h => by
    unfold State.needsSurface at h
    split at h
    · exact h
    · cases h
  have font : ∀ {slot : BitVec 4} {k : Font → Plan}, s.needsFont slot k = .draw ms → ∃ f, k f = .draw ms := fun h => by
    have h := surf h
    split at h
    · cases h
    · exact ⟨_, h⟩
  have pix : ∀ {ps : List (Int × Int)} {c : Half}, pixelsOf c ps = ms → ∀ m ∈ ms, ∀ a, m.readsFont a = false := by
    rintro ps c rfl m hm a
    obtain ⟨_, _, rfl⟩ := List.mem_map.1 hm
    rfl
  by_cases hi : IsConfig i
  · rcases planOf_config (s := s) hi with ⟨_, e⟩ | ⟨_, s', e, _⟩ <;> rw [e] at h <;> cases h
  cases i with
  | nop | surfInit | setRotation | setMirror | setDepth | setFont => exact absurd (by simp [IsConfig, Instr.op]) hi
  | clear color =>
    have h := surf h
    cases h
    refine Or.inr fun m hm a => ?_
    unfold clearWork at hm
    split at hm
    · simp at hm
    · obtain ⟨_, _, rfl⟩ := List.mem_map.1 hm
      rfl
  | setPixel color x y =>
    have h := surf h
    cases h
    exact Or.inr fun m hm a => by rw [List.mem_singleton.1 hm]; rfl
  | drawPoint => exact Or.inr (pix (Plan.draw.inj (surf h)))
  | drawLine style color x0 y0 x1 y1 =>
    have h := surf h
    cases h
    refine Or.inr fun m hm a => ?_
    obtain ⟨_, _, rfl⟩ := List.mem_map.1 (show m ∈ lineWork _ _ _ _ from hm)
    rfl
  | drawRect => exact Or.inr (pix (Plan.draw.inj (surf h)))
  | drawCircle => exact Or.inr (pix (Plan.draw.inj (surf h)))
  | drawChar =>
    simp only [planOf, planDrawChar] at h
    obtain ⟨f, h⟩ := font h
    cases h
    exact Or.inl ⟨Or.inl rfl, isText_glyphWork _ _ _ _ _ _ _⟩
  | drawString =>
    simp only [planOf, planDrawString] at h
    obtain ⟨f, h⟩ := font h
    cases h
    exact Or.inl ⟨Or.inr (Or.inl rfl), isText_stringWork _ _ _ _ _ _ _⟩
  | drawNumber =>
    simp only [planOf, planDrawNumber] at h
    obtain ⟨f, h⟩ := font h
    split at h
    · cases h
    · cases h
      exact Or.inl ⟨Or.inr (Or.inr rfl), isText_stringWork _ _ _ _ _ _ _⟩
  | pushFrame =>
    have h := surf h
    cases h
    refine Or.inr fun m hm a => ?_
    obtain ⟨_, _, rfl⟩ := List.mem_map.1 hm
    rfl

/-- What the running command has done: nothing, or the first pieces of the work its rule comes to. -/
theorem workDone_cases (s : State) : s.workDone = [] ∨
    ∃ left i rest ms, s.work = some left ∧ decode s.current = .command i rest ∧ planOf i s = .draw ms ∧
      s.workDone = ms.take (ms.length - left.length) := by
  unfold State.workDone
  split
  · rename_i left i rest hw hd
    split
    · exact Or.inr ⟨left, i, rest, _, hw, hd, ‹_›, rfl⟩
    · exact Or.inl rfl
    · exact Or.inl rfl
  · exact Or.inl rfl

theorem workDone_text {a : Nat} (h : ∃ m ∈ s.workDone, m.readsFont a = true) : IsText s.workDone ∧ s.work ≠ none := by
  obtain ⟨m, hm, ha⟩ := h
  rcases workDone_cases s with e | ⟨left, i, rest, ms, hw, _, hp, e⟩
  · rw [e] at hm; cases hm
  · refine ⟨?_, by rw [hw]; exact nofun⟩
    rcases planOf_text hp with ⟨-, ht⟩ | ht
    · rw [e]; exact fun k hk => ht k (List.mem_of_mem_take hk)
    · rw [e] at hm
      rw [ht m (List.mem_of_mem_take hm)] at ha
      cases ha

theorem workDone_inputs (s : State) (r : List Input) : ({ s with inputs := r } : State).workDone = s.workDone := by
  have key : ∀ i : Instr, (∀ ms, planOf i { s with inputs := r } = .draw ms ↔ planOf i s = .draw ms) := fun i ms => by
    by_cases hi : IsConfig i
    · rcases planOf_config (s := s) hi with ⟨_, e⟩ | ⟨_, s', e, _⟩ <;>
        rcases planOf_config (s := { s with inputs := r }) hi with ⟨_, e'⟩ | ⟨_, s'', e', _⟩ <;> rw [e, e'] <;>
        exact iff_of_false nofun nofun
    · rw [planOf_congr (s := s) (t := { s with inputs := r }) hi ⟨⟨rfl, rfl, rfl, rfl, rfl, rfl, rfl⟩, rfl, rfl, rfl⟩]
  unfold State.workDone
  dsimp only
  split
  · split
    · rename_i e
      rw [(key _ _).1 e]
    all_goals
      rename_i e
      split
      · rename_i e'
        rw [(key _ _).2 e'] at e
        cases e
      all_goals rfl
  · rfl

/-- What the running command has done is its work without what is left of it. -/
theorem workDone_eq {i : Instr} {rest : List Word} {done left : List Micro} (hd : decode s.current = .command i rest)
    (hp : planOf i s = .draw (done ++ left)) (hw : s.work = some left) : s.workDone = done := by
  unfold State.workDone
  rw [hw, hd]
  dsimp only
  rw [hp]
  simp

theorem drawnFrom_iff {a : Nat} {m : Micro} : m.DrawnFrom a ↔ m.readsFont a = true := by
  cases m <;> simp [Micro.DrawnFrom, Micro.readsFont]

/-- A character's pieces, as R240 to R247 have them. -/
theorem charPieces_eq (s : State) (f : Font) (fg bg : Half) (p : Int × Int × Byte) :
    s.charPieces f fg bg p = glyphWork s f p.1 p.2.1 p.2.2 fg bg := by
  obtain ⟨x, y, ch⟩ := p
  have ea : glyphAddr f ch = f.base.toNat + (ch.toNat - 0x20) * (f.h.toNat * ((f.w.toNat + 7) / 8)) := by
    rw [glyphAddr, Nat.mul_assoc]; rfl
  have eb : bytesPerRow f = (f.w.toNat + 7) / 8 := rfl
  rcases glyphWork_spec s f x y ch fg bg with ⟨hd, e⟩ | ⟨hd, hn, -⟩
  · rw [e]; exact if_pos hd
  · unfold State.charPieces
    rw [if_neg hd]
    unfold glyphWork at hn ⊢
    dsimp only at hn ⊢
    split_ifs at hn ⊢
    any_goals exact absurd List.mem_cons_self hn
    simp only [glyphByteAddr, ea, Nat.zero_mul, Nat.add_zero, Nat.zero_div]
    rfl

/-- The running text commands and their work are what the decoder reads and the command's rule comes to. -/
theorem runsText_iff {all : List Micro} : s.RunsText all ↔ ∃ i rest, decode s.current = .command i rest ∧
    (i.op = .drawChar ∨ i.op = .drawString ∨ i.op = .drawNumber) ∧ planOf i s = .draw all := by
  have char : ∀ (f : Font) (fg bg : Half), s.charPieces f fg bg = fun p => glyphWork s f p.1 p.2.1 p.2.2 fg bg :=
    fun f fg bg => funext (charPieces_eq s f fg bg)
  have ok : ∀ {slot : BitVec 4} {k : Font → Plan}, s.needsFont slot k = .draw all → s.cfgValid = true ∧
      slot.toNat < s.params.fontSlots ∧ (s.font slot.toNat).w ≠ 0 ∧ k (s.font slot.toNat) = .draw all := fun h => by
    unfold State.needsFont State.needsSurface at h
    split_ifs at h with h1 h2
    exact ⟨h1, by omega, fun e => h2 (Or.inr e), h⟩
  constructor
  · rintro ⟨hc, slot, fg, x, y, bg16, rest, hs, hw, ⟨ch, hd, rfl⟩ | ⟨chars, hd | ⟨digits, value, hd, hv, rfl, hl⟩, rfl⟩⟩
    · exact ⟨_, rest, hd, Or.inl rfl, by
        simp only [planOf, planDrawChar, needsFont_ok hc hs hw, charPieces_eq]⟩
    · exact ⟨_, rest, hd, Or.inr (Or.inl rfl), by
        simp only [planOf, planDrawString, needsFont_ok hc hs hw, char, stringWork]⟩
    · refine ⟨_, rest, hd, Or.inr (Or.inr rfl), ?_⟩
      simp only [planOf, planDrawNumber, needsFont_ok hc hs hw, formatNumber_eq_some.2 ⟨hv, rfl, hl⟩, char, stringWork]
  · rintro ⟨i, rest, hd, hi, hp⟩
    cases i
    case drawChar slot fg x y ch bg16 =>
      simp only [planOf, planDrawChar] at hp
      obtain ⟨h1, h2, h3, h4⟩ := ok hp
      refine ⟨h1, slot, fg, x, y, bg16, rest, h2, h3, Or.inl ⟨ch, hd, ?_⟩⟩
      rw [charPieces_eq]
      exact (Plan.draw.inj h4).symm
    case drawString slot fg x y bg16 chars =>
      simp only [planOf, planDrawString] at hp
      obtain ⟨h1, h2, h3, h4⟩ := ok hp
      refine ⟨h1, slot, fg, x, y, bg16, rest, h2, h3, Or.inr ⟨chars, Or.inl hd, ?_⟩⟩
      rw [char]
      exact (Plan.draw.inj h4).symm
    case drawNumber slot fg x y digits bg16 value =>
      simp only [planOf, planDrawNumber] at hp
      obtain ⟨h1, h2, h3, h4⟩ := ok hp
      split at h4
      · cases h4
      · rename_i chars e
        obtain ⟨e1, e2, e3⟩ := formatNumber_eq_some.1 e
        refine ⟨h1, slot, fg, x, y, bg16, rest, h2, h3, Or.inr ⟨chars, Or.inr ⟨digits, value, hd, e1, e2, e3⟩, ?_⟩⟩
        rw [char]
        exact (Plan.draw.inj h4).symm
    all_goals simp [Instr.op] at hi

/-- What has been done from font memory is a text command's. -/
theorem runsText_of_drawnFrom {a : Nat} {m : Micro} (hm : m ∈ s.workDone) (ha : m.DrawnFrom a) : ∃ all, s.RunsText all := by
  rcases workDone_cases s with e | ⟨left, i, rest, ms, -, hd, hp, e⟩ <;> rw [e] at hm
  · cases hm
  · rcases planOf_text hp with ⟨hi, -⟩ | hn
    · exact ⟨ms, runsText_iff.2 ⟨i, rest, hd, hi, hp⟩⟩
    · have := drawnFrom_iff.1 ha
      rw [hn m (List.mem_of_mem_take hm)] at this
      cases this

/-- Drawing text again is doing its pieces from a cleared `dropped` flag. -/
theorem drawAgain_eq (s : State) {ms : List Micro} (h : IsText ms) :
    s.drawAgain ms = ({ s with dropped := false } : State).after ms := by
  unfold State.drawAgain
  generalize ({ s with dropped := false } : State) = u
  induction ms generalizing u with
  | nil => rfl
  | cons m ms ih =>
    have := fun u => ih (fun k hk => h k (List.mem_cons_of_mem _ hk)) u
    rcases h m List.mem_cons_self with rfl | ⟨x, y, g, n, a, b, fg, bg, rfl⟩ <;> exact this _

theorem paint_memory (s : State) (ps : List (Int × Int × Half)) (hw : Memory.wf s.fb) (hb : ∀ p ∈ s.fb, p.1 < s.fbLen) :
    Memory.wf (s.paint ps).fb ∧ ∀ p ∈ (s.paint ps).fb, p.1 < s.fbLen := by
  induction ps generalizing s with
  | nil => exact ⟨hw, hb⟩
  | cons p ps ih =>
    obtain ⟨h1, h2⟩ := writePixel_memory s p.1 p.2.1 p.2.2 hw hb
    have hl := sameSurface_fbLen (sameButDrawing_writePixel s p.1 p.2.1 p.2.2).1
    have := ih (s.writePixel p.1 p.2.1 p.2.2) h1 (by rw [hl]; exact h2)
    rw [hl] at this
    exact this

/-- The state once a changed font memory byte is noted (R351). -/
def State.noteFont (s : State) (a : Nat) (v : Byte) : State :=
  { s with
    fontMem := s.fontMem.set a v
    fontChanges := { addr := a, queued := (s.current ++ s.stream).length } :: s.fontChanges }

/-- Everything the platform's write of a font memory byte can do (R351, log entry 10). -/
theorem fontByte_cases (s : State) (a : Nat) (v : Byte) :
    ((s.fontMem.length ≤ a ∨ s.fontMem.getD a 0 = v) ∧ s.fontByte a v = s) ∨
      (a < s.fontMem.length ∧ s.fontMem.getD a 0 ≠ v ∧
        (((s.current ++ s.stream).length = 0 ∧ s.fontByte a v = { s with fontMem := s.fontMem.set a v }) ∨
          ((s.current ++ s.stream).length ≠ 0 ∧ (∀ m ∈ s.workDone, m.readsFont a = false) ∧
            s.fontByte a v = s.noteFont a v) ∨
          ((s.current ++ s.stream).length ≠ 0 ∧ (∃ m ∈ s.workDone, m.readsFont a = true) ∧ s.work ≠ none ∧
            ∃ pss n, (s.noteFont a v).PiecesDraw s.workDone pss ∧ s.fontByte a v = { (s.noteFont a v) with
              fb := (s.paint pss.flatten).fb
              dropped := decide (∃ q ∈ pss.flatten, s.pixelOutcome q.1 q.2.1 = .dropped) ||
                decide (.dropChar ∈ s.workDone)
              freeCtr := n }))) := by
  by_cases h : a < s.fontMemSize ∧ s.readFont a ≠ v
  · refine Or.inr ⟨h.1, h.2, ?_⟩
    by_cases hq : (s.current ++ s.stream).length = 0
    · refine Or.inl ⟨hq, ?_⟩
      simp only [State.fontByte, if_pos h, if_pos hq]
    · refine Or.inr ?_
      by_cases hr : s.workDone.any (Micro.readsFont a) = true
      · have hr' := List.any_eq_true.1 hr
        obtain ⟨ht, hw⟩ := workDone_text hr'
        refine Or.inr ⟨hq, hr', hw, ?_⟩
        have e : s.fontByte a v = (s.noteFont a v).drawAgain s.workDone := by
          simp only [State.fontByte, if_pos h, if_neg hq, if_pos hr]; rfl
        obtain ⟨pss, n, h1, h2⟩ := after_text { (s.noteFont a v) with dropped := false } s.workDone ht
        rw [State.PiecesDraw, pieceDraws_congr (s := s.noteFont a v) (t := { (s.noteFont a v) with dropped := false })
          rfl rfl rfl] at h1
        have hs : s.SameSurface ({ (s.noteFont a v) with dropped := false } : State) := ⟨rfl, rfl, rfl, rfl, rfl, rfl, rfl⟩
        refine ⟨pss, n, h1, ?_⟩
        rw [e, drawAgain_eq _ ht, h2, paint_dropped]
        simp only [Bool.false_or, fun p : Int × Int × Half => sameSurface_pixelOutcome hs p.1 p.2.1]
        rw [← paint_fb_congr (s := s) (t := { (s.noteFont a v) with dropped := false }) rfl rfl hs]
        obtain ⟨m, b, hp⟩ := paint_eq { (s.noteFont a v) with dropped := false } pss.flatten
        rw [hp]
      · refine Or.inl ⟨hq, fun m hm => ?_, ?_⟩
        · rw [← Bool.not_eq_true]; exact fun hf => hr (List.any_eq_true.2 ⟨m, hm, hf⟩)
        · simp only [State.fontByte, if_pos h, if_neg hq, if_neg hr]; rfl
  · refine Or.inl ⟨?_, by simp only [State.fontByte, if_neg h]⟩
    by_cases h1 : a < s.fontMem.length
    · exact Or.inr (by_contra fun h2 => h ⟨h1, h2⟩)
    · exact Or.inl (not_lt.1 h1)

/-- It keeps the invariant. -/
theorem inv_fontByte (hI : s.Inv) (a : Nat) (v : Byte) : (s.fontByte a v).Inv := by
  have hn : 0 < (s.current ++ s.stream).length → Noted (s.noteFont a v) := fun hq c hc => by
    rcases List.mem_cons.1 hc with rfl | hc
    · exact ⟨hq, le_refl _⟩
    · exact hI.changes c hc
  have size : ∀ {u : State}, s.SameSurface u → u.fonts = s.fonts → u.params = s.params →
      u.fontMem = s.fontMem.set a v → SameSource s u := fun h1 h2 h3 h4 =>
    ⟨h1, h2, h3, by rw [h4]; exact List.length_set ..⟩
  rcases fontByte_cases s a v with ⟨-, e⟩ | ⟨-, -, ⟨-, e⟩ | ⟨hq, -, e⟩ | ⟨hq, -, hw, pss, n, -, e⟩⟩ <;> rw [e]
  · exact hI
  · exact ⟨hI.params, hI.memory, hI.bounded, hI.rotation, hI.depth, hI.fits, hI.configured, hI.unconfigured, hI.slots,
      hI.glyphs, hI.fifo, hI.held, hI.idle, hI.halted, hI.receiving, hI.work,
      fun l h => Running.congr (hI.running l h) (size ⟨rfl, rfl, rfl, rfl, rfl, rfl, rfl⟩ rfl rfl rfl) rfl, hI.changes⟩
  · exact ⟨hI.params, hI.memory, hI.bounded, hI.rotation, hI.depth, hI.fits, hI.configured, hI.unconfigured, hI.slots,
      hI.glyphs, hI.fifo, hI.held, hI.idle, hI.halted, hI.receiving, hI.work,
      fun l h => Running.congr (hI.running l h) (size ⟨rfl, rfl, rfl, rfl, rfl, rfl, rfl⟩ rfl rfl rfl) rfl, hn (Nat.pos_of_ne_zero hq)⟩
  · obtain ⟨h1, h2⟩ := paint_memory s pss.flatten hI.memory hI.bounded
    exact ⟨hI.params, h1, h2, hI.rotation, hI.depth, hI.fits, hI.configured, hI.unconfigured, hI.slots, hI.glyphs,
      hI.fifo, hI.held, fun h => absurd (hI.idle h).2.1 hw, fun h => absurd (hI.halted h).2.2.2.1 hw,
      fun _ h => absurd h hw, hI.work, fun l h => Running.congr (hI.running l h) (size ⟨rfl, rfl, rfl, rfl, rfl, rfl, rfl⟩ rfl rfl rfl) rfl, hn (Nat.pos_of_ne_zero hq)⟩

end Sys2Proof.Machine
end

