-- ==== Sys2Proof/Laws/PerInstr.lean ====
section
/-! SUPPORT. Of each instruction as syntax: its encoding opens with a legal header that selects its row, and has the
number of words of its row. -/

namespace Sys2Proof.Laws.Header

open Sys2Proof Sys2Proof.Machine

/-- The encoded header selects the instruction's row with no reserved bit set (R104, R105, R107), and the command has
the number of words of R105 and R112. -/
def Statement (i : Instr) : Prop :=
  ∃ h ws, encode i = h :: ws ∧ headerOp h = .ok i.op ∧ ws.length + 1 = wordCount i

theorem nop : Statement .nop :=
  ⟨_, _, rfl, header_ok _ _ _ (by decide), rfl⟩

theorem surfInit (bg wm hm rot : Half) : Statement (.surfInit bg wm hm rot) :=
  ⟨_, _, rfl, header_ok _ _ _ (zeroMod_reserved _ rfl _), rfl⟩

theorem setRotation (rot : Half) : Statement (.setRotation rot) :=
  ⟨_, _, rfl, header_ok _ _ _ (zeroMod_reserved _ rfl _), rfl⟩

theorem setMirror (mcode : Byte) : Statement (.setMirror mcode) :=
  ⟨_, _, rfl, header_ok _ _ _ (zeroA_reserved _ rfl _), rfl⟩

theorem setDepth (dcode : Byte) : Statement (.setDepth dcode) :=
  ⟨_, _, rfl, header_ok _ _ _ (zeroA_reserved _ rfl _), rfl⟩

theorem setFont (slot : BitVec 4) (gw gh : Byte) (base : Word) : Statement (.setFont slot gw gh base) :=
  ⟨_, _, rfl, header_ok _ _ _ (slotMod_reserved _ rfl _ _), rfl⟩

theorem clear (color : Half) : Statement (.clear color) :=
  ⟨_, _, rfl, header_ok _ _ _ (zeroMod_reserved _ rfl _), rfl⟩

theorem setPixel (color x y : Half) : Statement (.setPixel color x y) :=
  ⟨_, _, rfl, header_ok _ _ _ (zeroMod_reserved _ rfl _), rfl⟩

theorem drawPoint (style : PointStyle) (color x y r : Half) : Statement (.drawPoint style color x y r) :=
  ⟨_, _, rfl, header_ok _ _ _ (bitMod_reserved _ rfl _ _), rfl⟩

theorem drawLine (style : LineStyle) (color x0 y0 x1 y1 : Half) : Statement (.drawLine style color x0 y0 x1 y1) :=
  ⟨_, _, rfl, header_ok _ _ _ (bitMod_reserved _ rfl _ _), rfl⟩

theorem drawRect (fill : Fill) (color xs ys xe ye : Half) : Statement (.drawRect fill color xs ys xe ye) :=
  ⟨_, _, rfl, header_ok _ _ _ (bitMod_reserved _ rfl _ _), rfl⟩

theorem drawCircle (fill : Fill) (color cx cy r : Half) : Statement (.drawCircle fill color cx cy r) :=
  ⟨_, _, rfl, header_ok _ _ _ (bitMod_reserved _ rfl _ _), rfl⟩

theorem drawChar (slot : BitVec 4) (fg x y : Half) (ch : Byte) (bg16 : Half) : Statement (.drawChar slot fg x y ch bg16) :=
  ⟨_, _, rfl, header_ok _ _ _ (slotMod_reserved _ rfl _ _), rfl⟩

theorem drawString (slot : BitVec 4) (fg x y bg16 : Half) (chars : List Byte) : Statement (.drawString slot fg x y bg16 chars) :=
  ⟨_, _, rfl, header_ok _ _ _ (slotMod_reserved _ rfl _ _), by simp [wordCount, len_payload]; omega⟩

theorem drawNumber (slot : BitVec 4) (fg x y : Half) (digits : Byte) (bg16 : Half) (value : BitVec 64) : Statement (.drawNumber slot fg x y digits bg16 value) :=
  ⟨_, _, rfl, header_ok _ _ _ (slotMod_reserved _ rfl _ _), rfl⟩

theorem pushFrame : Statement .pushFrame :=
  ⟨_, _, rfl, header_ok _ _ _ (by decide), rfl⟩

end Sys2Proof.Laws.Header
end

