-- ==== Sys2Proof/Laws/Raster.lean ====
section
/-! SUPPORT. The shapes of the rasterizer: the points of a line in closed form, the steps of a circle. -/

namespace Sys2Proof.Machine

/-! ### Lines -/

/-- A count that starts at 0 and rises by at most 1 from one point to the next. -/
def Climbs (g : Nat → Nat) : Prop := ∀ j, g j ≤ g (j + 1) ∧ g (j + 1) ≤ g j + 1

theorem climbs_cons {b : Nat} {g : Nat → Nat} (h : Climbs g) (h0 : b ≤ g 0) (h1 : g 0 ≤ b + 1) :
    Climbs (fun j => Nat.casesOn j b g) := by
  intro j
  cases j with
  | zero => exact ⟨h0, h1⟩
  | succ j => exact h j

theorem climbs_mono {g : Nat → Nat} (h : Climbs g) {i j : Nat} (hij : i ≤ j) : g i ≤ g j := by
  induction hij with
  | refl => exact le_refl _
  | step _ ih => exact le_trans ih (h _).1

theorem map_range_cons {α : Type} (f : Nat → α) (n : Nat) :
    (List.range (n + 1)).map f = f 0 :: (List.range n).map fun j => f (j + 1) := by
  rw [List.range_succ_eq_map, List.map_cons, List.map_map]; rfl

/-- A line that is at least as wide as high moves along X at every point (R210, R211). `m` columns are left, `b` rows
done, and `err` is what the loop's updates have made of `dx + dy`. -/
theorem lineLoop_wide {D E : Nat} (hDE : E ≤ D) {x0 y0 sx sy : Int} (hsx : sx = 1 ∨ sx = -1) (hsy : sy = 1 ∨ sy = -1)
    (m : Nat) : ∀ (n a b : Nat) (err : Int), a + m = D → b ≤ E → m < n →
      err = (D : Int) - E - a * E + b * D → -(E : Int) ≤ 2 * err →
      ∃ g : Nat → Nat, g 0 = b ∧ Climbs g ∧ g m = E ∧
        lineLoop (x0 + sx * D) (y0 + sy * E) D (-E) sx sy n (x0 + sx * a) (y0 + sy * b) err =
          (List.range (m + 1)).map fun j => (x0 + sx * ((a + j : Nat) : Int), y0 + sy * (g j : Int)) := by
  induction m with
  | zero =>
    intro n a b err ha hb hn he hl
    have haD : a = D := by omega
    subst haD
    have hbE : b = E := by
      by_contra hne
      have h1 : (b : Int) + 1 ≤ E := by omega
      have h2 : (a : Int) * ((E : Int) - b - 1) ≥ 0 := mul_nonneg (by omega) (by omega)
      nlinarith
    subst hbE
    obtain ⟨n, rfl⟩ : ∃ k, n = k + 1 := ⟨n - 1, by omega⟩
    refine ⟨fun _ => b, rfl, fun _ => ⟨le_refl _, Nat.le_succ _⟩, rfl, ?_⟩
    rw [lineLoop, if_pos ⟨hl, rfl⟩]
    simp
  | succ m ih =>
    intro n a b err ha hb hn he hl
    obtain ⟨n, rfl⟩ : ∃ k, n = k + 1 := ⟨n - 1, by omega⟩
    have hDa : (D : Int) = a + (m + 1) := by omega
    have hx : ¬ (x0 + sx * (a : Int) = x0 + sx * D) := by
      rcases hsx with rfl | rfl <;> omega
    have hy : 2 * err ≤ D → b ≠ E := by
      intro h2 hbE
      subst hbE
      have : (b : Int) * (m : Int) ≥ 0 := mul_nonneg (by omega) (by omega)
      rw [hDa] at he h2
      nlinarith
    have hy' : 2 * err ≤ D → ¬ (y0 + sy * (b : Int) = y0 + sy * E) := by
      intro h2 h3
      have := hy h2
      rcases hsy with rfl | rfl <;> omega
    rw [lineLoop]
    dsimp only
    rw [if_neg (fun h => hx h.2), if_neg (fun h => hy' h.1 h.2), if_pos hl, if_pos hl]
    have ex : x0 + sx * (a : Int) + sx = x0 + sx * ((a + 1 : Nat) : Int) := by push_cast; ring
    by_cases h2 : 2 * err ≤ D
    · have hbE := hy h2
      have ey : y0 + sy * (b : Int) + sy = y0 + sy * ((b + 1 : Nat) : Int) := by push_cast; ring
      obtain ⟨g, g0, gc, gm, gl⟩ := ih n (a + 1) (b + 1) (err + -(E : Int) + D) (by omega) (by omega) (by omega)
        (by rw [he]; push_cast; ring) (by omega)
      refine ⟨fun j => Nat.casesOn j b g, rfl, climbs_cons gc (by omega) (by omega), gm, ?_⟩
      rw [if_pos h2, if_pos h2, ex, ey, gl, map_range_cons (n := m + 1)]
      simp only [Nat.add_zero, Nat.add_assoc, Nat.add_comm 1]
      rfl
    · obtain ⟨g, g0, gc, gm, gl⟩ := ih n (a + 1) b (err + -(E : Int) + 0) (by omega) (by omega) (by omega)
        (by rw [he]; push_cast; ring) (by omega)
      refine ⟨fun j => Nat.casesOn j b g, rfl, climbs_cons gc (by omega) (by omega), gm, ?_⟩
      rw [if_neg h2, if_neg h2, ex, gl, map_range_cons (n := m + 1)]
      simp only [Nat.add_zero, Nat.add_assoc, Nat.add_comm 1]
      rfl

/-- A line that is higher than wide moves along Y at every point (R210, R211). -/
theorem lineLoop_high {D E : Nat} (hDE : D < E) {x0 y0 sx sy : Int} (hsx : sx = 1 ∨ sx = -1) (hsy : sy = 1 ∨ sy = -1)
    (m : Nat) : ∀ (n a b : Nat) (err : Int), b + m = E → a ≤ D → m < n →
      err = (D : Int) - E - a * E + b * D → 2 * err ≤ D →
      ∃ g : Nat → Nat, g 0 = a ∧ Climbs g ∧ g m = D ∧
        lineLoop (x0 + sx * D) (y0 + sy * E) D (-E) sx sy n (x0 + sx * a) (y0 + sy * b) err =
          (List.range (m + 1)).map fun j => (x0 + sx * (g j : Int), y0 + sy * ((b + j : Nat) : Int)) := by
  induction m with
  | zero =>
    intro n a b err hb ha hn he hl
    have hbE : b = E := by omega
    subst hbE
    have haD : a = D := by
      by_contra hne
      have h1 : (a : Int) + 1 ≤ D := by omega
      have h2 : (b : Int) * ((D : Int) - a - 1) ≥ 0 := mul_nonneg (by omega) (by omega)
      nlinarith
    subst haD
    obtain ⟨n, rfl⟩ : ∃ k, n = k + 1 := ⟨n - 1, by omega⟩
    refine ⟨fun _ => a, rfl, fun _ => ⟨le_refl _, Nat.le_succ _⟩, rfl, ?_⟩
    rw [lineLoop]
    dsimp only
    split
    · simp
    · rw [if_pos ⟨hl, rfl⟩]
      simp
  | succ m ih =>
    intro n a b err hb ha hn he hl
    obtain ⟨n, rfl⟩ : ∃ k, n = k + 1 := ⟨n - 1, by omega⟩
    have hEb : (E : Int) = b + (m + 1) := by omega
    have hy : ¬ (y0 + sy * (b : Int) = y0 + sy * E) := by
      rcases hsy with rfl | rfl <;> omega
    have hx : -(E : Int) ≤ 2 * err → a ≠ D := by
      intro h2 haD
      subst haD
      have : (a : Int) * (m : Int) ≥ 0 := mul_nonneg (by omega) (by omega)
      rw [hEb] at he h2
      nlinarith
    have hx' : -(E : Int) ≤ 2 * err → ¬ (x0 + sx * (a : Int) = x0 + sx * D) := by
      intro h2 h3
      have := hx h2
      rcases hsx with rfl | rfl <;> omega
    rw [lineLoop]
    dsimp only
    rw [if_neg (fun h => hx' h.1 h.2), if_neg (fun h => hy h.2), if_pos hl, if_pos hl]
    have ey : y0 + sy * (b : Int) + sy = y0 + sy * ((b + 1 : Nat) : Int) := by push_cast; ring
    by_cases h2 : -(E : Int) ≤ 2 * err
    · have haD := hx h2
      have ex : x0 + sx * (a : Int) + sx = x0 + sx * ((a + 1 : Nat) : Int) := by push_cast; ring
      obtain ⟨g, g0, gc, gm, gl⟩ := ih n (a + 1) (b + 1) (err + -(E : Int) + D) (by omega) (by omega) (by omega)
        (by rw [he]; push_cast; ring) (by omega)
      refine ⟨fun j => Nat.casesOn j a g, rfl, climbs_cons gc (by omega) (by omega), gm, ?_⟩
      rw [if_pos h2, if_pos h2, ex, ey, gl, map_range_cons (n := m + 1)]
      simp only [Nat.add_zero, Nat.add_assoc, Nat.add_comm 1]
      rfl
    · obtain ⟨g, g0, gc, gm, gl⟩ := ih n a (b + 1) (err + D) (by omega) (by omega) (by omega)
        (by rw [he]; push_cast; ring) (by omega)
      refine ⟨fun j => Nat.casesOn j a g, rfl, climbs_cons gc (by omega) (by omega), gm, ?_⟩
      rw [if_neg h2, if_neg h2, ey, gl, map_range_cons (n := m + 1)]
      simp only [Nat.add_zero, Nat.add_assoc, Nat.add_comm 1]
      rfl

/-- The points of a line in closed form (R210, R211): point `j` is `gx j` columns and `gy j` rows from the start, in
the directions of the end; both counts climb, and the longer axis moves at every point. -/
theorem linePoints_eq (x0 y0 x1 y1 : Int) : ∃ gx gy : Nat → Nat,
    gx 0 = 0 ∧ gy 0 = 0 ∧ Climbs gx ∧ Climbs gy ∧
      gx (max (x1 - x0).natAbs (y1 - y0).natAbs) = (x1 - x0).natAbs ∧
      gy (max (x1 - x0).natAbs (y1 - y0).natAbs) = (y1 - y0).natAbs ∧
      ((y1 - y0).natAbs ≤ (x1 - x0).natAbs → ∀ j, gx j = j) ∧
      ((x1 - x0).natAbs < (y1 - y0).natAbs → ∀ j, gy j = j) ∧
      linePoints x0 y0 x1 y1 = (List.range (max (x1 - x0).natAbs (y1 - y0).natAbs + 1)).map fun j =>
        (x0 + (if x0 < x1 then 1 else -1) * (gx j : Int), y0 + (if y0 < y1 then 1 else -1) * (gy j : Int)) := by
  have hsx : (if x0 < x1 then (1 : Int) else -1) = 1 ∨ (if x0 < x1 then (1 : Int) else -1) = -1 := by
    split <;> simp
  have hsy : (if y0 < y1 then (1 : Int) else -1) = 1 ∨ (if y0 < y1 then (1 : Int) else -1) = -1 := by
    split <;> simp
  have ex : x1 = x0 + (if x0 < x1 then 1 else -1) * (((x1 - x0).natAbs : Nat) : Int) := by split <;> omega
  have ey : y1 = y0 + (if y0 < y1 then 1 else -1) * (((y1 - y0).natAbs : Nat) : Int) := by split <;> omega
  have e : linePoints x0 y0 x1 y1 =
      lineLoop (x0 + (if x0 < x1 then 1 else -1) * (((x1 - x0).natAbs : Nat) : Int))
        (y0 + (if y0 < y1 then 1 else -1) * (((y1 - y0).natAbs : Nat) : Int)) ((x1 - x0).natAbs : Nat)
        (-((y1 - y0).natAbs : Nat)) (if x0 < x1 then 1 else -1) (if y0 < y1 then 1 else -1)
        ((x1 - x0).natAbs + (y1 - y0).natAbs + 1) (x0 + (if x0 < x1 then 1 else -1) * ((0 : Nat) : Int))
        (y0 + (if y0 < y1 then 1 else -1) * ((0 : Nat) : Int))
        (((x1 - x0).natAbs : Nat) + -((y1 - y0).natAbs : Nat)) := by
    rw [← ex, ← ey]
    simp only [linePoints, Nat.cast_zero, mul_zero, add_zero]
  rw [e]
  generalize (x1 - x0).natAbs = D
  generalize (y1 - y0).natAbs = E
  rcases Nat.lt_or_ge D E with h | h
  · obtain ⟨g, g0, gc, gm, gl⟩ := lineLoop_high h hsx hsy (x0 := x0) (y0 := y0) E (D + E + 1) 0 0 (D + -E) (by omega)
      (by omega) (by omega) (by push_cast; ring) (by omega)
    rw [gl, Nat.max_eq_right (Nat.le_of_lt h)]
    refine ⟨g, id, g0, rfl, gc, fun j => ⟨Nat.le_succ j, le_refl _⟩, gm, rfl, fun h' => by omega, fun _ _ => rfl, ?_⟩
    simp only [Nat.zero_add, id_eq]
  · obtain ⟨g, g0, gc, gm, gl⟩ := lineLoop_wide h hsx hsy (x0 := x0) (y0 := y0) D (D + E + 1) 0 0 (D + -E) (by omega)
      (by omega) (by omega) (by push_cast; ring) (by omega)
    rw [gl, Nat.max_eq_left h]
    refine ⟨id, g, rfl, g0, fun j => ⟨Nat.le_succ j, le_refl _⟩, gc, rfl, gm, fun _ _ => rfl, fun h' => by omega, ?_⟩
    simp only [Nat.zero_add, id_eq]

/-- How many points a line visits (R211). -/
theorem linePoints_length (x0 y0 x1 y1 : Int) :
    (linePoints x0 y0 x1 y1).length = max (x1 - x0).natAbs (y1 - y0).natAbs + 1 := by
  obtain ⟨gx, gy, _, _, _, _, _, _, _, _, e⟩ := linePoints_eq x0 y0 x1 y1
  rw [e, List.length_map, List.length_range]

/-- How the error of a line changes at a point (R210). -/
def lineErr (dx dy err : Int) : Int := err + (if 2 * err ≥ dy then dy else 0) + (if 2 * err ≤ dx then dx else 0)

theorem lineLoop_head (x1 y1 dx dy sx sy : Int) (n : Nat) (x y err : Int) :
    (lineLoop x1 y1 dx dy sx sy (n + 1) x y err)[0]? = some (x, y) := by
  simp only [lineLoop]
  repeat' split
  all_goals rfl

/-- The point after each point that the loop has rounds left for, by the error there (R210). -/
theorem lineLoop_next (x1 y1 dx dy sx sy : Int) (k : Nat) : ∀ (n : Nat) (x y err p q : Int), k + 1 < n →
    (lineLoop x1 y1 dx dy sx sy n x y err)[k]? = some (p, q) →
    (lineLoop x1 y1 dx dy sx sy n x y err)[k + 1]? =
      if (2 * (lineErr dx dy)^[k] err ≥ dy ∧ p = x1) ∨ (2 * (lineErr dx dy)^[k] err ≤ dx ∧ q = y1) then none
      else some (if 2 * (lineErr dx dy)^[k] err ≥ dy then p + sx else p,
        if 2 * (lineErr dx dy)^[k] err ≤ dx then q + sy else q) := by
  induction k with
  | zero =>
    intro n x y err p q hn h
    obtain ⟨m, rfl⟩ : ∃ m, n = m + 2 := ⟨n - 2, by omega⟩
    rw [lineLoop_head] at h
    cases h
    rw [Function.iterate_zero, id_eq, lineLoop]
    by_cases h1 : 2 * err ≥ dy ∧ x = x1
    · rw [if_pos h1, if_pos (Or.inl h1)]; rfl
    by_cases h2 : 2 * err ≤ dx ∧ y = y1
    · rw [if_neg h1, if_pos h2, if_pos (Or.inr h2)]; rfl
    rw [if_neg h1, if_neg h2, if_neg (not_or.2 ⟨h1, h2⟩), List.getElem?_cons_succ, lineLoop_head]
  | succ k ih =>
    intro n x y err p q hn h
    obtain ⟨m, rfl⟩ : ∃ m, n = m + 1 := ⟨n - 1, by omega⟩
    rw [lineLoop] at h ⊢
    by_cases h1 : 2 * err ≥ dy ∧ x = x1
    · rw [if_pos h1] at h; cases h
    by_cases h2 : 2 * err ≤ dx ∧ y = y1
    · rw [if_neg h1, if_pos h2] at h; cases h
    rw [if_neg h1, if_neg h2, List.getElem?_cons_succ] at h ⊢
    have e : (if 2 * err ≥ dy then err + dy else err) + (if 2 * err ≤ dx then dx else 0) = lineErr dx dy err := by
      unfold lineErr; split <;> omega
    rw [e] at h ⊢
    rw [Function.iterate_succ_apply]
    exact ih m _ _ _ p q (by omega) h

/-- The points of a line, one after another, by the error at each (R210). -/
theorem linePoints_next (x0 y0 x1 y1 : Int) (k : Nat) (x y : Int) (h : (linePoints x0 y0 x1 y1)[k]? = some (x, y)) :
    let dx : Int := (x1 - x0).natAbs
    let dy : Int := -(y1 - y0).natAbs
    let e := (lineErr dx dy)^[k] (dx + dy)
    (linePoints x0 y0 x1 y1)[k + 1]? =
      if (2 * e ≥ dy ∧ x = x1) ∨ (2 * e ≤ dx ∧ y = y1) then none
      else some (if 2 * e ≥ dy then x + (if x0 < x1 then 1 else -1) else x,
        if 2 * e ≤ dx then y + (if y0 < y1 then 1 else -1) else y) := by
  intro dx dy e
  have hl := linePoints_length x0 y0 x1 y1
  by_cases hk : k + 1 < (x1 - x0).natAbs + (y1 - y0).natAbs + 1
  · exact lineLoop_next x1 y1 dx dy _ _ k _ x0 y0 (dx + dy) x y hk h
  · have hkl := (List.getElem?_eq_some_iff.1 h).1
    obtain ⟨gx, gy, -, -, -, -, hX, hY, -, -, e'⟩ := linePoints_eq x0 y0 x1 y1
    have hkm : k = max (x1 - x0).natAbs (y1 - y0).natAbs := by omega
    rw [e', List.getElem?_map, List.getElem?_range (by omega), hkm, Option.map_some, hX, hY] at h
    obtain ⟨h1, h2⟩ := Prod.mk.inj (Option.some.inj h)
    have hx : x = x1 := by rw [← h1]; split <;> omega
    have hy : y = y1 := by rw [← h2]; split <;> omega
    have hs : (2 * e ≥ dy ∧ x = x1) ∨ (2 * e ≤ dx ∧ y = y1) := by
      by_cases h3 : 2 * e ≥ dy
      · exact Or.inl ⟨h3, hx⟩
      · exact Or.inr ⟨by omega, hy⟩
    rw [if_pos hs]
    exact List.getElem?_eq_none (by omega)

/-- The points of a horizontal line: every column from one end to the other. -/
theorem mem_linePoints_row (x0 x1 y : Int) (p q : Int) :
    (p, q) ∈ linePoints x0 y x1 y ↔ q = y ∧ min x0 x1 ≤ p ∧ p ≤ max x0 x1 := by
  obtain ⟨gx, gy, _, hy0, _, hc, _, hyE, hx, _, e⟩ := linePoints_eq x0 y x1 y
  have hz : (y - y).natAbs = 0 := by omega
  rw [hz] at hx hyE e
  rw [Nat.max_eq_left (Nat.zero_le _)] at hyE e
  have hx := hx (Nat.zero_le _)
  rw [e]
  simp only [List.mem_map, List.mem_range, Prod.mk.injEq, hx]
  constructor
  · rintro ⟨j, hj, h1, h2⟩
    have : gy j = 0 := by have := climbs_mono hc (show j ≤ (x1 - x0).natAbs by omega); omega
    rw [this] at h2
    refine ⟨by simpa using h2.symm, ?_⟩
    split at h1 <;> omega
  · rintro ⟨rfl, h1, h2⟩
    refine ⟨(p - x0).natAbs, by omega, by split <;> omega, ?_⟩
    have : gy (p - x0).natAbs = 0 := by
      have := climbs_mono hc (show (p - x0).natAbs ≤ (x1 - x0).natAbs by omega); omega
    rw [this]; simp

/-- The points of a vertical line: every row from one end to the other. -/
theorem mem_linePoints_column (x y0 y1 : Int) (p q : Int) :
    (p, q) ∈ linePoints x y0 x y1 ↔ p = x ∧ min y0 y1 ≤ q ∧ q ≤ max y0 y1 := by
  by_cases hy : y0 = y1
  · subst hy
    rw [mem_linePoints_row]
    omega
  · obtain ⟨gx, gy, hx0, _, hc, _, hxE, _, _, hg, e⟩ := linePoints_eq x y0 x y1
    have hz : (x - x).natAbs = 0 := by omega
    rw [hz] at hg hxE e
    rw [Nat.max_eq_right (Nat.zero_le _)] at hxE e
    have hg := hg (by omega)
    rw [e]
    simp only [List.mem_map, List.mem_range, Prod.mk.injEq, hg]
    constructor
    · rintro ⟨j, hj, h1, h2⟩
      have : gx j = 0 := by have := climbs_mono hc (show j ≤ (y1 - y0).natAbs by omega); omega
      rw [this] at h1
      refine ⟨by simpa using h1.symm, ?_⟩
      split at h2 <;> omega
    · rintro ⟨rfl, h1, h2⟩
      refine ⟨(q - y0).natAbs, by omega, ?_, by split <;> omega⟩
      have : gx (q - y0).natAbs = 0 := by
        have := climbs_mono hc (show (q - y0).natAbs ≤ (y1 - y0).natAbs by omega); omega
      rw [this]; simp

/-! ### Ranges of integers -/

theorem mem_intsFromTo {a b x : Int} : x ∈ intsFromTo a b ↔ a ≤ x ∧ x ≤ b := by
  simp only [intsFromTo, List.mem_map, List.mem_range]
  constructor
  · rintro ⟨k, hk, rfl⟩; omega
  · rintro ⟨h1, h2⟩; exact ⟨(x - a).toNat, by omega, by omega⟩

theorem mem_span {a b y p q : Int} : (p, q) ∈ span a b y ↔ q = y ∧ a ≤ p ∧ p ≤ b := by
  simp only [span, List.mem_map, mem_intsFromTo, Prod.mk.injEq]
  constructor
  · rintro ⟨x, h, rfl, rfl⟩; exact ⟨rfl, h⟩
  · rintro ⟨rfl, h⟩; exact ⟨p, h, rfl, rfl⟩

/-! ### Circles -/

/-- The steps of a circle from a given one on, one at a time: the loop's bound is never what ends it (R230, R231). -/
theorem circleLoop_step (n : Nat) (x y err : Int) (hn : y - x < n) :
    circleLoop n x y err =
      if x ≤ y then (x, y, err) :: (if err < 0 then circleLoop (n - 1) (x + 1) y (err + 4 * x + 6)
        else circleLoop (n - 1) (x + 1) (y - 1) (err + 10 + 4 * (x - y))) else [] := by
  cases n with
  | zero => rw [if_neg (by omega)]; rfl
  | succ n => rfl

/-- Every step of a circle has `0 ≤ x ≤ y` (R231). -/
theorem circleLoop_mem (n : Nat) : ∀ (x y err : Int), 0 ≤ x → ∀ p ∈ circleLoop n x y err, 0 ≤ p.1 ∧ p.1 ≤ p.2.1 := by
  induction n with
  | zero => intro x y err _ p hp; cases hp
  | succ n ih =>
    intro x y err hx p hp
    unfold circleLoop at hp
    split at hp
    · rename_i hxy
      rcases List.mem_cons.1 hp with rfl | hp
      · exact ⟨hx, hxy⟩
      · split at hp
        · exact ih _ _ _ (by omega) p hp
        · exact ih _ _ _ (by omega) p hp
    · cases hp

/-! ### Blocks, and what discs and rings hold -/

theorem block_mem (n m : Nat) (a b : Int) (x y : Int) :
    (x, y) ∈ ((List.range n).flatMap fun (i : Nat) => (List.range m).map fun (j : Nat) => (a + (i : Int), b + (j : Int))) ↔
      a ≤ x ∧ x < a + n ∧ b ≤ y ∧ y < b + m := by
  simp only [List.mem_flatMap, List.mem_map, List.mem_range, Prod.mk.injEq]
  constructor
  · rintro ⟨i, hi, j, hj, rfl, rfl⟩; omega
  · rintro ⟨h1, h2, h3, h4⟩
    exact ⟨(x - a).toNat, by omega, (y - b).toNat, by omega, by omega, by omega⟩

theorem block_sorted (n m : Nat) (a b : Int) :
    ((List.range n).flatMap fun (i : Nat) => (List.range m).map fun (j : Nat) => (a + (i : Int), b + (j : Int))).Pairwise
      fun p q => p.1 < q.1 ∨ (p.1 = q.1 ∧ p.2 < q.2) := by
  rw [List.pairwise_flatMap]
  constructor
  · intro i _
    rw [List.pairwise_map]
    exact List.pairwise_lt_range.imp fun h => Or.inr ⟨rfl, by simpa using h⟩
  · refine List.pairwise_lt_range.imp fun {i i'} h => ?_
    simp only [List.mem_map, List.mem_range]
    rintro _ ⟨j, _, rfl⟩ _ ⟨j', _, rfl⟩
    left; simpa using h

theorem around_eq (X Y : Int) (R : Nat) : aroundCells X Y R =
    ((List.range (2 * R - 1)).flatMap fun (i : Nat) => (List.range (2 * R - 1)).map fun (j : Nat) =>
      ((X - ((R : Int) - 1)) + (i : Int), (Y - ((R : Int) - 1)) + (j : Int))).filter
      fun p => decide (0 ≤ p.1) && decide (0 ≤ p.2) := by
  simp only [aroundCells, sub_add_eq_add_sub]

theorem square_eq (X Y : Int) (R : Nat) : squareCells X Y R =
    ((List.range R).flatMap fun (i : Nat) => (List.range R).map fun (j : Nat) => ((X - 1) + (i : Int), (Y - 1) + (j : Int))) := by
  simp only [squareCells, sub_add_eq_add_sub]

theorem circleLoop_head {n : Nat} {x y err : Int} (h : y - x < n) :
    (circleLoop n x y err)[0]? = if x ≤ y then some (x, y, err) else none := by
  rw [circleLoop_step n x y err h]
  split <;> rfl

theorem circleLoop_next (k : Nat) : ∀ (n : Nat) (x0 y0 err0 : Int), y0 - x0 < n → ∀ x y err,
    (circleLoop n x0 y0 err0)[k]? = some (x, y, err) → x ≤ y ∧ (circleLoop n x0 y0 err0)[k + 1]? =
        (if err < 0 then (if x + 1 ≤ y then some (x + 1, y, err + 4 * x + 6) else none)
         else if x + 1 ≤ y - 1 then some (x + 1, y - 1, err + 10 + 4 * (x - y)) else none) := by
  induction k with
  | zero =>
    intro n x0 y0 err0 hn x y err h
    rw [circleLoop_head hn] at h
    split at h
    · rename_i hxy
      simp only [Option.some.injEq, Prod.mk.injEq] at h
      obtain ⟨rfl, rfl, rfl⟩ := h
      refine ⟨hxy, ?_⟩
      rw [circleLoop_step n _ _ _ hn, if_pos hxy, List.getElem?_cons_succ]
      split
      · rw [circleLoop_head (by omega)]
      · rw [circleLoop_head (by omega)]
    · cases h
  | succ k ih =>
    intro n x0 y0 err0 hn x y err h
    rw [circleLoop_step n x0 y0 err0 hn] at h ⊢
    split at h
    · rename_i hxy
      rw [if_pos hxy]
      rw [List.getElem?_cons_succ] at h ⊢
      split at h
      · rename_i he
        rw [if_pos he]
        exact ih _ _ _ _ (by omega) _ _ _ h
      · rename_i he
        rw [if_neg he]
        exact ih _ _ _ _ (by omega) _ _ _ h
    · cases h

theorem mem_disc {cx cy : Int} {R : Nat} {x y : Int} : (x, y) ∈ circleCells .filled cx cy R ↔
    ∃ a b e, (a, b, e) ∈ circleSteps R ∧ (((y = cy + b ∨ y = cy - b) ∧ cx - a ≤ x ∧ x ≤ cx + a) ∨
      ((y = cy + a ∨ y = cy - a) ∧ cx - b ≤ x ∧ x ≤ cx + b)) := by
  simp only [circleCells, List.mem_flatMap, spans, List.mem_append, mem_span, Prod.exists]
  constructor
  · rintro ⟨a, b, e, h, h2⟩; exact ⟨a, b, e, h, by tauto⟩
  · rintro ⟨a, b, e, h, h2⟩; exact ⟨a, b, e, h, by tauto⟩

theorem mem_ring {cx cy : Int} {R : Nat} {x y : Int} : (x, y) ∈ circleCells .outline cx cy R ↔
    ∃ a b e, (a, b, e) ∈ circleSteps R ∧ (((y = cy + b ∨ y = cy - b) ∧ (x = cx - a ∨ x = cx + a)) ∨
      ((y = cy + a ∨ y = cy - a) ∧ (x = cx - b ∨ x = cx + b))) := by
  simp only [circleCells, List.mem_flatMap, octants, List.mem_cons, Prod.exists, Prod.mk.injEq, List.not_mem_nil, or_false]
  constructor
  · rintro ⟨a, b, e, h, h2⟩; exact ⟨a, b, e, h, by tauto⟩
  · rintro ⟨a, b, e, h, h2⟩; exact ⟨a, b, e, h, by tauto⟩

end Sys2Proof.Machine
end

