-- ==== Sys2Proof/Tests/Slice0.lean ====
section
/-! SUPPORT. The model's own tests. Expected values are the spec's: spec/95_test_vectors.md (its row names stand in
the comments) and spec/30_encoding.md R117. Each runs one step on a small state. The second half gives, for every
statement with hypotheses, concrete values that meet them. -/

namespace Sys2Proof.Tests

open Sys2Proof.Machine

/-! ### The test states -/

/-- A configured Surface whose buffer holds `fill` in every byte, slot 0 loaded with the test font, the engine idle
(spec/95_test_vectors.md sections 3 to 9). -/
def surface (wm hm rot : Half) (mirror : BitVec 2) (depth : BitVec 5) (fill : Byte) : State :=
  { State.reset with
    wm := wm, hm := hm, rot := rot, mirror := mirror, depth := depth, cfgValid := true
    fb := (List.range (strideOf wm.toNat depth.toNat * hm.toNat)).map fun i => (i, fill)
    fonts := State.reset.fonts.set 0 { base := 0, w := 4, h := 3 } }

/-- The words of one command wait in the stream of `s`, and a step is made. -/
def after (s : State) (ws : List Word) : Option State :=
  match step (s.loadCommand ws) with
  | .next t => some t
  | .fault _ => none
  | .refused _ => none

/-- `STATUS` and the framebuffer's bytes after a command. -/
def picture (s : State) (ws : List Word) : Option (Word × List Byte) :=
  (after s ws).map fun t => (t.statusWord, t.fb.map Prod.snd)

/-- The framebuffer's bytes that a command has changed. -/
def changed (s : State) (ws : List Word) : Option (Result × List (Nat × Byte)) :=
  (after s ws).map fun t => (t.result, (t.fb.filter fun c => !s.fb.contains c))

/-- The 16 × 16 1-bit Surface of section 6. -/
def raster : State := surface 16 16 0 0 1 0

/-- The 12 × 8 1-bit Surface of section 9. -/
def page : State := surface 12 8 0 0 1 0

/-- The 8 × 2 Surface of F1: `FB` = 80 12. -/
def frame (answers : List Answer) : State :=
  { surface 8 2 0 0 1 0 with fb := [(0, 0x80), (1, 0x12)], answers := answers }

/-- An input waits outside a state. -/
def given (inp : Input) (s : State) : State := { s with inputs := [inp] }

/-- The state after a step; the state itself where there is none. -/
def next (s : State) : State :=
  match step s with
  | .next t => t
  | .fault _ => s
  | .refused _ => s

/-! ### Well-formedness -/

/-- A string with a zero byte in it is no command (R112). -/
theorem test_wellFormed_refuses_zero : (Instr.drawString 0 1 0 0 0 [0x41, 0x00, 0x42]).wellFormed = false := by decide

theorem test_wellFormed_accepts : (Instr.drawString 0 1 0 0 0 [0x41, 0xFF]).wellFormed = true := by decide

/-! ### Decoding: one written-out word list for every constructor -/

theorem test_decode_nop : decode [0x00000000, 7] = .command .nop [7] := by decide

theorem test_decode_surfInit :
    decode [0x00050001, 0x00040008, 0xFFFF005A] = .command (.surfInit 5 8 4 90) [] := by decide

theorem test_decode_setRotation : decode [0x01680002] = .command (.setRotation 360) [] := by decide

theorem test_decode_setMirror : decode [0x00000403] = .command (.setMirror 4) [] := by decide

theorem test_decode_setDepth : decode [0x00001004] = .command (.setDepth 16) [] := by decide

theorem test_decode_setFont : decode [0x03040405, 0x00000123] = .command (.setFont 4 4 3 0x123) [] := by decide

theorem test_decode_clear : decode [0x12340010] = .command (.clear 0x1234) [] := by decide

theorem test_decode_setPixel : decode [0x00010011, 0x00020009] = .command (.setPixel 1 9 2) [] := by decide

theorem test_decode_drawPoint :
    decode [0x000F0112, 0x00030000, 0xABCD0002] = .command (.drawPoint .square 0xF 0 3 2) [] := by decide

theorem test_decode_drawLine :
    decode [0x00010013, 0x00030000, 0x00000005] = .command (.drawLine .solid 1 0 3 5 0) [] := by decide

theorem test_decode_drawRect :
    decode [0x00020014, 0x00010004, 0x00030007] = .command (.drawRect .outline 2 4 1 7 3) [] := by decide

theorem test_decode_drawCircle :
    decode [0x00010115, 0x00050007, 0x00000003] = .command (.drawCircle .filled 1 7 5 3) [] := by decide

theorem test_decode_drawChar :
    decode [0x00010118, 0x0014000A, 0xFFFF9941] = .command (.drawChar 1 1 10 20 0x41 0xFFFF) [] := by decide

theorem test_decode_drawString :
    decode [0x00010019, 0x00000002, 0x00000000, 0x41414141, 0x00414141] =
      .command (.drawString 0 1 2 0 0 [0x41, 0x41, 0x41, 0x41, 0x41, 0x41, 0x41]) [] := by decide

theorem test_decode_drawNumber :
    decode [0x0001011A, 0x00040003, 0x00050002, 0xF01B866E, 0x400921F9] =
      .command (.drawNumber 1 1 3 4 2 5 0x400921F9F01B866E) [] := by decide

theorem test_decode_pushFrame : decode [0x00000020] = .command .pushFrame [] := by decide

/-- A command placed by its number runs in the next step (S14 with `SURF_INIT 128, 128`). -/
theorem test_withFetchWord :
    decodeTableWord 96 0x000000000080008000000001 = some (.surfInit 0 128 128 0) ∧
      (next (State.reset.withFetchWord 96 0x000000000080008000000001)).fbLen = 2048 := by decide +kernel

/-! ### Configuration -/

/-- C14. -/
theorem test_nop : picture State.reset [0x00000000] = some (0x00000000, []) := by decide +kernel

/-- C3: 512 × 512 fills the capacity. -/
theorem test_surfInit :
    (after State.reset [0x00000001, 0x02000200, 0x00000000]).map (fun t => (t.statusWord, t.fbLen, t.depth)) =
      some (0x00040000, 32768, 1) := by decide +kernel

/-- C4: one column more does not fit. -/
theorem test_surfInit_rejected : picture State.reset [0x00000001, 0x02000201, 0x00000000] = some (0x00000202, []) := by
  decide +kernel

/-- R37: at 90 degrees the logical rectangle is turned. -/
theorem test_setRotation :
    (after (surface 8 4 0 0 1 0) [0x005A0002]).map (fun t => (t.statusWord, t.rot, t.width, t.height)) =
      some (0x00040000, 90, 4, 8) := by decide +kernel

/-- C8. -/
theorem test_setRotation_rejected :
    (after (surface 8 4 0 0 1 0) [0x01680002]).map (fun t => (t.statusWord, t.rot)) = some (0x00040202, 0) := by
  decide +kernel

/-- Program 5, command 4. -/
theorem test_setMirror :
    (after (surface 8 4 90 0 1 0) [0x00000103]).map (fun t => (t.statusWord, t.mirror)) = some (0x00040000, 1) := by
  decide +kernel

/-- C9. -/
theorem test_setMirror_rejected :
    (after (surface 8 4 0 0 1 0) [0x00000403]).map (fun t => (t.statusWord, t.mirror)) = some (0x00040202, 0) := by
  decide +kernel

/-- C5. -/
theorem test_setDepth :
    (after { surface 1 1 0 0 1 0 with wm := 128, hm := 128 } [0x00001004]).map
      (fun t => (t.statusWord, t.stride, t.fbLen)) = some (0x00040000, 256, 32768) := by decide +kernel

/-- C7. -/
theorem test_setDepth_rejected :
    (after (surface 8 4 0 0 1 0) [0x00000804]).map (fun t => (t.statusWord, t.depth)) = some (0x00040202, 1) := by
  decide +kernel

/-- C12: no Surface is needed. -/
theorem test_setFont :
    (after State.reset [0x03040005, 0x00000000]).map (fun t => (t.statusWord, t.font 0)) =
      some (0x00000000, { base := 0, w := 4, h := 3 }) := by decide +kernel

/-- C10. -/
theorem test_setFont_rejected :
    (after State.reset [0x03040405, 0x00000000]).map (fun t => (t.statusWord, t.fonts == State.reset.fonts)) =
      some (0x00000202, true) := by decide +kernel

/-! ### Pixels -/

/-- Section 4, colour 0x1234 at depth 16: the high byte stands first. -/
theorem test_clear :
    picture (surface 4 1 0 0 16 0) [0x12340010] =
      some (0x00040000, [0x12, 0x34, 0x12, 0x34, 0x12, 0x34, 0x12, 0x34]) := by decide +kernel

/-- C13. -/
theorem test_clear_unconfigured : picture State.reset [0x00000010] = some (0x00000202, []) := by decide +kernel

/-- Section 3, depth 2: `SET_PIXEL 6, 1, 6`. -/
theorem test_setPixel :
    changed (surface 16 2 0 0 2 0x55) [0x00060011, 0x00010006] = some (.ok, [(5, 0x59)]) := by decide +kernel

/-- Section 5: `x = WIDTH` lands on the first pixel of the next row. -/
theorem test_setPixel_lenient :
    changed (surface 16 2 0 0 1 0) [0xFFFF0011, 0x00000010] = some (.ok, [(2, 0x80)]) := by decide +kernel

/-! ### The rasterizer -/

/-- P2: the cells with a negative coordinate are skipped, not dropped. -/
theorem test_drawPoint_around :
    changed raster [0x00010012, 0x00000000, 0x00000002] = some (.ok, [(0, 0xC0), (2, 0xC0)]) := by decide +kernel

/-- P3: anchored one unit up-left, three cells are dropped. -/
theorem test_drawPoint_square :
    changed raster [0x00010112, 0x00000000, 0x00000002] = some (.oob, [(0, 0x80)]) := by decide +kernel

/-- L2: every third point takes the `BG` register. -/
theorem test_drawLine_dotted :
    picture { surface 16 1 0 0 4 0 with bg := 7 } [0x00010113, 0x00000000, 0x0000000A] =
      some (0x00040000, [0x11, 0x71, 0x17, 0x11, 0x71, 0x10, 0x00, 0x00]) := by decide +kernel

/-- The line (7,1) to (0,4) of section 6.2. -/
theorem test_drawLine_points :
    linePoints 7 1 0 4 = [(7, 1), (6, 1), (5, 2), (4, 2), (3, 3), (2, 3), (1, 4), (0, 4)] := by decide +kernel

/-- Q2: rows 2 and 3. -/
theorem test_drawRect_filled :
    changed raster [0x00010114, 0x00020002, 0x00040005] = some (.ok, [(4, 0x3C), (6, 0x3C)]) := by decide +kernel

/-- Q1: rows 2 to 4. -/
theorem test_drawRect_outline :
    changed raster [0x00010014, 0x00020002, 0x00040005] = some (.ok, [(4, 0x3C), (6, 0x24), (8, 0x3C)]) := by
  decide +kernel

/-- K2. -/
theorem test_drawCircle_filled :
    changed raster [0x00010115, 0x00050005, 0x00000002] =
      some (.ok, [(6, 0x0E), (8, 0x1F), (10, 0x1F), (12, 0x1F), (14, 0x0E)]) := by decide +kernel

/-- K6: the points with a negative coordinate are dropped. -/
theorem test_drawCircle_outline :
    changed raster [0x00010015, 0x00010001, 0x00000003] =
      some (.oob, [(0, 0x08), (2, 0x08), (4, 0x08), (6, 0x10), (8, 0xE0)]) := by decide +kernel

/-! ### Text -/

/-- T1. -/
theorem test_drawChar :
    changed page [0x00010018, 0x00010001, 0x00000041] = some (.ok, [(2, 0x20), (4, 0x50), (6, 0x70)]) := by
  decide +kernel

/-- T6: the origin is beyond the Surface. -/
theorem test_drawChar_dropped : changed page [0x00010018, 0x0001000D, 0x00000041] = some (.oob, []) := by
  decide +kernel

/-- T10: the fourth character wraps. -/
theorem test_drawString_wraps :
    changed page [0x00010019, 0x00000000, 0x00000000, 0x41414141, 0x00000000] =
      some (.ok, [(0, 0x44), (1, 0x40), (2, 0xAA), (3, 0xA0), (4, 0xEE), (5, 0xE0), (6, 0x40), (8, 0xA0),
        (10, 0xE0)]) := by decide +kernel

/-- T11: the positions of seven characters. -/
theorem test_drawString_positions :
    (cursorPath page { base := 0, w := 4, h := 3 } 2 0 (2, 0) (List.replicate 7 0x41)).map (fun p => (p.1, p.2.1)) =
      [(2, 0), (6, 0), (2, 3), (6, 3), (2, 0), (6, 0), (2, 3)] := by decide +kernel

/-- T15: "-5". -/
theorem test_drawNumber :
    changed page [0x0001001A, 0x00000000, 0x00000000, 0x00000000, 0xC0140000] =
      some (.ok, [(0, 0x0E), (2, 0xEC), (4, 0x06)]) := by decide +kernel

/-- Section 10: 3.14159 is "3.14", 99.99 drifts to "99.98", −0.0 is "0", −0.25 is "-0.25". -/
theorem test_drawNumber_strings :
    formatNumber 0x400921F9F01B866E 2 = some [0x33, 0x2E, 0x31, 0x34] ∧
      formatNumber 0x4058FF5C28F5C28F 2 = some [0x39, 0x39, 0x2E, 0x39, 0x38] ∧
      formatNumber 0x8000000000000000 0 = some [0x30] ∧
      formatNumber 0xBFD0000000000000 2 = some [0x2D, 0x30, 0x2E, 0x32, 0x35] := by decide +kernel

/-! ### The frame, the status and the host -/

/-- F1. -/
theorem test_pushFrame :
    (after (frame (List.replicate 8 .accepted)) [0x00000020]).map (fun t => (t.statusWord, t.tokens)) =
      some (0x00040000, [.row 0, .colA 0, .colB 0, .data 0x01, .row 1, .colA 0, .colB 0, .data 0x48]) := by
  decide +kernel

/-- F6: the fifth token is answered with error. -/
theorem test_pushFrame_error :
    (after (frame (List.replicate 4 .accepted ++ [.error])) [0x00000020]).map (fun t => (t.statusWord, t.tokens)) =
      some (0x00040804, [.row 0, .colA 0, .colB 0, .data 0x01]) := by decide +kernel

/-- C15: a reserved bit of NOP. -/
theorem test_illegalHeader_halts : picture State.reset [0x00000100] = some (0x00021005, []) := by decide +kernel

/-- Program 3, commands 3 to 5: the halt, a discarded word, and the soft reset. -/
theorem test_haltedBlock :
    let h := next ((surface 8 1 0 0 1 0).loadCommand [0x00000006])
    h.statusWord = 0x00061005 ∧ (next (given (.hostWrite 4 0x00 0x00010011) h)).statusWord = 0x00061005 ∧
      (next (given (.hostWrite 4 0x08 1) h)).statusWord = 0x00040000 := by decide +kernel

/-- Program 3, command 7: writing 1 to `S_OOB` would leave the others (R44). -/
theorem test_clearSticky :
    (next (given (.hostWrite 4 0x04 0x00000100) { State.reset with result := .oob, sticky := 0b00011 })).statusWord =
      0x00000201 := by decide +kernel

/-- Section 2: `T(1, 2)` on an 8 × 4 Surface at 90 degrees with the horizontal mirror, and at 270 with none. -/
theorem test_transform :
    transform 90 1 8 4 1 2 = some (2, 1) ∧ transform 270 0 8 4 1 2 = some (2, 2) := by decide +kernel

/-! ### Values that meet the hypotheses of the statements -/

/-- A busy state that satisfies the invariant: DRAW_RECT still waits for a word, and another word is queued. -/
def receiving : State := { raster with mode := .exec, current := [0x00010114, 0x00020002], fifo := [0x00040005] }

theorem witness_EncodeDecodeRoundTrip : (Instr.drawString 15 1 0 0 0xFFFF [1, 0xFF, 3, 4, 5]).wellFormed = true := by
  decide

theorem witness_DecodeReadsWholeCommand :
    decode [0x00010019, 0, 0, 0x44434241, 0, 0x20] =
      .command (.drawString 0 1 0 0 0 [0x41, 0x42, 0x43, 0x44]) [0x20] := by decide

theorem witness_HeaderSelectsRowByMask :
    (0x0001011A : Word) &&& rowMask .drawNumber = rowMatch .drawNumber ∧
      (0x0001011A : Word) &&& rowMask .drawString ≠ rowMatch .drawString := by decide

theorem witness_IllegalHeaders :
    (∀ op : Op, rowMatch op ≠ (0x00000106 : Word) &&& 0xFF) ∧
      (0x00000212 : Word) &&& Op.drawPoint.reservedMask ≠ 0 := by
  refine ⟨?_, by decide⟩
  intro op; cases op <;> decide

theorem witness_StepRunsDecodedCommand :
    receiving.nextInput = none ∧ receiving.mode ≠ .halted ∧ receiving.work = none ∧
      decode (receiving.current ++ (receiving.fifo ++ receiving.held.toList)) =
        .command (.drawRect .filled 1 2 2 5 4) [] := by decide

theorem witness_StepWaitsForMoreWords :
    (let s := State.reset.loadCommand [0x00010019, 0, 0, 0x44434241]
     s.nextInput = none ∧ s.mode ≠ .halted ∧ s.work = none ∧
       decode (s.current ++ (s.fifo ++ s.held.toList)) = .incomplete ∧ s.fifo ++ s.held.toList ≠ []) ∧
    let s := { State.reset with mode := .exec, current := [0x00000001, 0] }
    s.nextInput = none ∧ s.mode ≠ .halted ∧ s.work = none ∧
      decode (s.current ++ (s.fifo ++ s.held.toList)) = .incomplete ∧ s.fifo ++ s.held.toList = [] := by decide +kernel

theorem witness_IllegalHeaderHalts :
    (raster.loadCommand [6, 0x20]).Ready ∧ headerOp 6 = .error (.unassignedOpcode 6) ∧
      (raster.loadCommand [6, 0x20]).fifo ++ (raster.loadCommand [6, 0x20]).held.toList = [6, 0x20] :=
  ⟨by unfold State.Ready; decide +kernel, by decide, by decide +kernel⟩

/-- A soft reset leaves HALTED, a hard reset does, and a word or no input does not. -/
theorem witness_IllegalHeaderHalts_modes :
    let h := { raster with mode := .halted }
    (given (.hostWrite 4 0x00 7) h).nextInput = some (.hostWrite 4 0x00 7, []) ∧ h.mode = .halted ∧
      h.nextInput = none ∧
      (next (given (.hostWrite 4 0x08 1) h)).mode ≠ .halted ∧ (next (given .hardReset h)).mode ≠ .halted := by
  decide +kernel

/-- The invariant holds in a state that is in the middle of a command's words. -/
theorem witness_inv_receiving : receiving.Inv where
  params := by decide +kernel
  memory := by decide +kernel
  bounded := by decide +kernel
  rotation := by decide +kernel
  depth := by decide +kernel
  fits := by decide +kernel
  configured := by decide +kernel
  unconfigured := by decide +kernel
  slots := by decide +kernel
  glyphs := by decide +kernel
  fifo := by decide +kernel
  held := by decide +kernel
  idle := nofun
  halted := nofun
  receiving := by intros; decide +kernel
  work := nofun
  running := nofun
  changes := nofun

/-- DRAW_CHAR of 'A' with its first pixel drawn. -/
def drawing : State :=
  { page with
    mode := .exec, current := [0x00010018, 0x00010001, 0x00000041]
    work := some (glyphWork page (page.font 0) 1 1 0x41 1 0).tail }

/-- The invariant holds in a state that is in the middle of a command's work. -/
theorem witness_inv_drawing : drawing.Inv where
  params := by decide +kernel
  memory := by decide +kernel
  bounded := by decide +kernel
  rotation := by decide +kernel
  depth := by decide +kernel
  fits := by decide +kernel
  configured := by decide +kernel
  unconfigured := by decide +kernel
  slots := by decide +kernel
  glyphs := by decide +kernel
  fifo := by decide +kernel
  held := by decide +kernel
  idle := nofun
  halted := nofun
  receiving := nofun
  work := by
    intro ms h i vs hm
    rw [← Option.some.inj h] at hm
    have := List.mem_of_mem_tail hm
    simp only [glyphWork] at this
    split_ifs at this <;> simp [glyphRow] at this
  running := by
    intro left h
    rw [← Option.some.inj h]
    exact ⟨.drawChar 0 1 1 1 0x41 0, [], glyphWork page (page.font 0) 1 1 0x41 1 0, by decide +kernel,
      by decide +kernel, List.tail_suffix _⟩
  changes := nofun

theorem witness_TicksReachCommandEnd : receiving.Inv ∧ receiving.nextInput = none := ⟨witness_inv_receiving, rfl⟩

theorem witness_StepKeepsInvariant : receiving.Inv ∧ step receiving = .next (next receiving) ∧
    drawing.Inv ∧ step drawing = .next (next drawing) :=
  ⟨witness_inv_receiving, rfl, witness_inv_drawing, rfl⟩

/-- A command with its work, a number of small steps and a soft reset to come. -/
def aborted (s : State) (work : List Micro) (n : Nat) : State :=
  { s with mode := .exec, work := some work, inputs := [.ticks n, .hostWrite 4 0x08 1] }

/-- Pixels, bytes, glyph pixels and tokens, each part way. -/
theorem witness_AbortKeepsPixelsDrawn :
    (∀ e, Micro.emit e ∉ [Micro.pixel 0 0 1]) ∧ (aborted raster [.pixel 0 0 1, .pixel 1 0 1] 1).mode = .exec ∧
      (1 : Word).getLsbD 0 = true ∧ raster.held = none ∧
      (aborted raster [.pixel 0 0 1, .pixel 1 0 1] 1).work = some ([.pixel 0 0 1] ++ [.pixel 1 0 1]) ∧
      (aborted raster [.pixel 0 0 1, .pixel 1 0 1] 1).inputs =
        .ticks [Micro.pixel 0 0 1].length :: .hostWrite 4 0x08 1 :: [] ∧
      ([Micro.pixel 0 0 1] = [((0 : Int), (0 : Int), (1 : Half))].map fun p => .pixel p.1 p.2.1 p.2.2) ∧
      (let s := surface 4 1 0 0 16 0
       depthOf s.depth.toNat = some .sixteen ∧ 3 < s.wm.toNat ∧ 0 < s.hm.toNat ∧
         [.fill 0 [0x12, 0x34], .fill 2 [0x12, 0x34]] ++ [.fill 4 [0x12, 0x34], .fill 6 [0x12, 0x34]] =
           clearWork 0x1234 s) ∧
      (glyphWork page (page.font 0) 1 1 0x41 1 0).take 1 = [.cell 1 1 99 3 99 7 1 0] ∧
      (let s := aborted (frame [.accepted]) ([Emission.row 0, .colA 0, .colB 0].map .emit) 2
       s.work = some (([Emission.row 0] ++ Emission.colA 0 :: [Emission.colB 0]).map .emit) ∧
         s.answers = List.replicate [Emission.row 0].length .accepted ++ [] ∧
         s.inputs = .ticks ([Emission.row 0].length + 1) :: .hostWrite 4 0x08 1 :: []) :=
  ⟨by simp, rfl, by decide, by decide, by decide +kernel, by decide +kernel, by decide +kernel, by decide +kernel,
    by decide +kernel, by decide +kernel⟩

/-- An aborted CLEAR at 16 bits leaves whole pixels. -/
theorem test_abort_clear :
    (next (next (aborted (surface 2 1 0 0 16 0) (clearWork 0x1234 (surface 2 1 0 0 16 0)) 1))).fb.map Prod.snd =
      [0x12, 0x34, 0, 0] := by decide +kernel

theorem witness_ResetSatisfiesInvariant :
    Params.wf { fbCapacity := 1, fontSlots := 2, transparent := 0, fifoDepth := 1 } = true ∧
      Params.wf { fbCapacity := 2 ^ 32 - 1, fontSlots := 16, transparent := 0, fifoDepth := 9 } = true := by decide

theorem witness_ResetValues : 3 < Params.vectors.fontSlots := by decide

/-- A command that ends, and a PUSH_FRAME that waits. -/
theorem witness_EveryCommandAnswers :
    (exec .nop State.reset = .next (State.reset.begin.complete .ok)) ∧
      (after (frame []) [0x20]).map (fun t => (t.mode, t.offered)) = some (.exec, some (.row 0)) := by
  exact ⟨rfl, by decide +kernel⟩

theorem witness_OnlyConfigurationWritesRegisters :
    exec (.setFont 3 4 3 9) raster = .next (raster.runPlan (planSetFont 3 4 3 9 raster)) ∧
      (Instr.setFont 3 4 3 9).op ≠ .surfInit ∧ (Instr.setFont 3 4 3 9).op ≠ .setRotation ∧
      (Instr.setFont 3 4 3 9).op ≠ .setMirror ∧ (Instr.setFont 3 4 3 9).op ≠ .setDepth ∧
      Instr.nop.op ≠ .setFont ∧ raster.cfgValid = true := by
  exact ⟨rfl, by decide +kernel⟩

theorem witness_OnlyDrawingWritesFramebuffer :
    exec .pushFrame raster = .next (raster.runPlan (planPushFrame raster)) ∧ Instr.pushFrame.op = .pushFrame ∧
      (Instr.clear 1).op ≠ .surfInit ∧ (Instr.clear 1).op ≠ .setDepth ∧ (Instr.clear 1).op ≠ .pushFrame ∧
      raster.fbLen ≤ 32 := by
  exact ⟨rfl, by decide +kernel⟩

theorem witness_SurfInitCreatesSurface :
    ConfigRejects State.reset (.surfInit 0 0 4 0) ∧ ConfigRejects State.reset (.surfInit 0 8 0 0) ∧
      ConfigRejects State.reset (.surfInit 0 8 4 45) ∧ ConfigRejects State.reset (.surfInit 0 513 512 0) ∧
      ¬ ConfigRejects State.reset (.surfInit 0 512 512 270) := by
  unfold ConfigRejects; decide +kernel

theorem witness_SetRotationWritesRot :
    ConfigRejects State.reset (.setRotation 90) ∧ ConfigRejects raster (.setRotation 360) ∧
      ¬ ConfigRejects raster (.setRotation 270) := by
  unfold ConfigRejects; decide +kernel

theorem witness_SetMirrorWritesMirror :
    ConfigRejects State.reset (.setMirror 0) ∧ ConfigRejects raster (.setMirror 4) ∧
      ¬ ConfigRejects raster (.setMirror 3) := by
  unfold ConfigRejects; decide +kernel

theorem witness_SetDepthReallocates :
    ConfigRejects State.reset (.setDepth 1) ∧ ConfigRejects raster (.setDepth 8) ∧
      ConfigRejects { raster with wm := 129, hm := 128 } (.setDepth 16) ∧
      ¬ ConfigRejects { raster with wm := 128, hm := 128 } (.setDepth 16) := by
  unfold ConfigRejects; decide +kernel

theorem witness_SetFontLoadsSlot :
    State.reset.fonts.length = State.reset.params.fontSlots ∧ ConfigRejects State.reset (.setFont 4 4 3 0) ∧
      ConfigRejects State.reset (.setFont 3 0 3 0) ∧ ConfigRejects State.reset (.setFont 3 4 0 0) ∧
      ¬ ConfigRejects State.reset (.setFont 3 4 3 0) := by
  unfold ConfigRejects; decide +kernel

theorem witness_RejectedConfigurationChangesNothing :
    (Instr.setDepth 8).op = .setDepth ∧ ∃ t, exec (.setDepth 8) raster = .next t ∧ t.result ≠ .ok := by
  exact ⟨rfl, _, rfl, by decide +kernel⟩

theorem witness_UnconfiguredCommandsRejected :
    (State.reset.loadCommand [0x20, 0]).cfgValid = false ∧ ¬ NeedsNoSurface .pushFrame ∧
      (State.reset.loadCommand [0x20, 0]).Ready ∧
      decode ((State.reset.loadCommand [0x20, 0]).fifo ++ (State.reset.loadCommand [0x20, 0]).held.toList) =
        .command .pushFrame [0] :=
  ⟨rfl, by unfold NeedsNoSurface; decide, by unfold State.Ready; decide +kernel, by decide +kernel⟩

/-- A 4 × 8 Surface at 270 degrees: the last logical and the last physical place; the row of each table. -/
theorem witness_TransformIsBijection :
    let s := surface 8 4 270 1 1 0
    s.rot = 270 ∧ (0 : Int) ≤ 3 ∧ (3 : Int) < s.width ∧ (0 : Int) ≤ 7 ∧ (7 : Int) < s.height ∧
      (7 : Int) < s.wm.toNat ∧ (3 : Int) < s.hm.toNat ∧
      transform s.rot s.mirror s.wm s.hm 3 7 = transform s.rot s.mirror s.wm s.hm 3 7 ∧
      (7 : Int) = 7 ∧ (0 : Int) = s.hm.toNat - 3 - 1 ∧ s.mirror = 1 ∧ (45 : Half) ≠ 0 ∧ (45 : Half) ≠ 90 ∧
      (45 : Half) ≠ 180 ∧ (45 : Half) ≠ 270 := by decide +kernel

theorem witness_PixelRoundTrip :
    let s := surface 8 4 90 2 16 0
    depthOf s.depth.toNat = some .sixteen ∧ s.rot = 90 ∧ (3 : Int) < s.width ∧ (7 : Int) < s.height := by
  decide +kernel

theorem witness_PixelKeepsItsNeighbours :
    let s := surface 16 2 0 0 2 0
    depthOf s.depth.toNat = some .two ∧ transform s.rot s.mirror s.wm s.hm 6 1 = some (6, 1) ∧
      6 < s.wm.toNat ∧ 1 < s.hm.toNat ∧ 7 < s.wm.toNat ∧ (((7 : Nat) : Int), ((1 : Nat) : Int)) ≠ (6, 1) := by
  decide +kernel

/-- The last pixel of the rectangle, one whose byte is beyond the buffer, and a byte's bits. -/
theorem witness_PackWritesItsField :
    (let s := surface 16 2 0 0 2 0
     depthOf s.depth.toNat = some .two ∧ (15 : Int) ≤ s.width ∧ (1 : Int) ≤ s.height ∧
       transform s.rot s.mirror s.wm s.hm 15 1 = some (15, 1) ∧ (15 : Int) < s.wm.toNat ∧ (1 : Int) < s.hm.toNat ∧
       15 / 4 + 1 * s.stride + 1 ≤ s.fbLen ∧ (16 : Int) ≤ s.width ∧
       transform s.rot s.mirror s.wm s.hm 16 1 = some (16, 1) ∧ 16 / 4 + 1 * s.stride + 1 > s.fbLen) ∧
    (7 < 8) ∧ (3 ≠ 2) ∧ (Depth.one ≠ .sixteen ∨ 3 ≠ 2 + 1) := by decide +kernel

/-- Section 5: (16, 1) is beyond the buffer, (16, 0) is in it; (0, 2) is at physical `Y = HM`. -/
theorem witness_MemoryGuard :
    let s := surface 16 2 0 0 1 0
    depthOf s.depth.toNat = some .one ∧ transform s.rot s.mirror s.wm s.hm 16 1 = some (16, 1) ∧
      (16 : Int) ≤ s.width ∧ (byteIndex .one s.stride 16 1).1 + (byteIndex .one s.stride 16 1).2 > s.fbLen ∧
      transform s.rot s.mirror s.wm s.hm 16 0 = some (16, 0) ∧
      (byteIndex .one s.stride 16 0).1 + (byteIndex .one s.stride 16 0).2 ≤ s.fbLen ∧
      transform s.rot s.mirror s.wm s.hm 0 2 = some (0, 2) ∧ (2 : Int) ≤ s.height ∧
      (byteIndex .one s.stride 0 2).1 + (byteIndex .one s.stride 0 2).2 > s.fbLen ∧ s.wm ≠ 0 ∧ s.fbLen ≤ 4 := by
  decide +kernel

/-- Section 5: (17, 0) fails the logical check, (8, 0) at 180 degrees the physical one; (7, 3) is inside. -/
theorem witness_BoundsChecksDrop :
    (17 : Int) > (surface 16 2 0 0 1 0).width ∧
      let s := surface 8 4 180 0 1 0
      (8 : Int) ≤ s.width ∧ transform s.rot s.mirror s.wm s.hm 8 0 = some (-1, 3) ∧
        transform s.rot s.mirror s.wm s.hm 7 3 = some (0, 0) ∧ depthOf s.depth.toNat = some .one := by
  decide +kernel

theorem witness_LenientEdge :
    (let s := surface 16 2 0 0 1 0
     s.rot = 0 ∧ s.mirror = 0 ∧ depthOf s.depth.toNat = some .one ∧ s.wm ≠ 0 ∧ 0 + 1 < s.hm.toNat ∧
       s.wm.toNat * s.depth.toNat % 8 = 0 ∧ 1 + 1 = s.hm.toNat ∧ 16 ≤ s.wm.toNat) ∧
    let s := surface 12 2 0 0 1 0
    s.rot = 0 ∧ s.mirror = 0 ∧ depthOf s.depth.toNat = some .one ∧ s.wm ≠ 0 ∧ 1 < s.hm.toNat ∧
      s.wm.toNat * s.depth.toNat % 8 ≠ 0 ∧ 11 < s.wm.toNat := by decide +kernel

theorem witness_ClearFillsBuffer :
    let s := surface 4 1 0 0 4 0
    s.cfgValid = true ∧ depthOf s.depth.toNat = some .four ∧ 1 < s.fbLen ∧ s.fbLen ≤ 2 ∧ 3 < s.wm.toNat ∧
      0 < s.hm.toNat := by decide +kernel

theorem witness_SetPixelWritesOnePixel :
    raster.cfgValid = true ∧ raster.pixelTarget 9 2 = .place .one 5 9 ∧ 4 < 5 ∧ 5 + 1 ≤ 6 := by decide +kernel

theorem witness_LinePointsCount :
    (linePoints 5 3 0 0)[4]? = some (1, 1) ∧ (linePoints 5 3 0 0)[4 + 1]? = some (0, 0) := by decide +kernel

/-- Q1's rectangle, and the three shapes' cells. -/
theorem witness_RasterCommandsPaintTheirCells :
    raster.cfgValid = true ∧ raster.fbLen ≤ 32 ∧
      pointCells .square 0 0 2 = [(-1, -1), (-1, 0), (0, -1), (0, 0)] ∧
      (rectCells .outline 2 2 5 4).length = 14 ∧ (circleCells .outline 50 50 10).length = 64 := by decide +kernel

theorem witness_DrawLineColoursItsPoints :
    raster.cfgValid = true ∧ (linePoints 0 0 10 0)[2]? = some (2, 0) ∧ (2 + 1) % 3 = 0 := by decide +kernel

theorem witness_PointCells : pointCells .around 0 0 1 = [(0, 0)] ∧ (0, 1) ∈ pointCells .around 0 0 2 := by
  decide +kernel

/-- Q3: `YE = YS`. -/
theorem witness_FilledRectCells : (4 : Int) ≤ 4 ∧ (2, 3) ∈ rectCells .filled 5 2 2 4 := by decide +kernel

/-- Steps of radius 10 on both sides of the error test, and the last one. -/
theorem witness_CircleStepsFollowRule :
    (circleSteps 10)[2]? = some (2, 10, -1) ∧ (circleSteps 10)[3]? = some (3, 10, 13) ∧
      (circleSteps 10)[7]? = some (7, 7, 13) := by decide +kernel

/-- Slot 4 does not exist, slot 3 was never loaded. -/
theorem witness_SlotCheckRejectsText :
    (4 : BitVec 4).toNat ≥ page.params.fontSlots ∧ (3 : BitVec 4).toNat < page.params.fontSlots ∧
      (page.font 3).w = 0 := by decide +kernel

/-- `page` with the middle row of the glyph of 'A' changed while the command at hand was queued. -/
def unstable : State := { page with fontChanges := [{ addr := 100, queued := 3 }] }

/-- A glyph that is drawn, the four ways a character is dropped, and a changed glyph beside one that is not. -/
theorem witness_DrawCharPaintsGlyph :
    page.cfgValid = true ∧ (0 : BitVec 4).toNat < page.params.fontSlots ∧ (page.font 0).w ≠ 0 ∧
      ¬ page.CharDropped (page.font 0) 12 8 0x7F ∧
      page.CharDropped (page.font 0) 1 1 0x1F ∧ page.CharDropped (page.font 0) 13 1 0x41 ∧
      page.CharDropped (page.font 0) 1 9 0x41 ∧ page.CharDropped (page.font 0) 1 1 0x80 ∧
      (∃ c ∈ unstable.fontChanges, 0x63 ≤ c.addr ∧ c.addr < 0x63 + 3) ∧
      ¬ unstable.CharChanged (page.font 0) 0x42 := by
  unfold State.CharChanged; decide +kernel

/-- A changed glyph's pixels are free, its neighbour's are not. -/
theorem test_changed_glyph :
    unstable.glyphChanged (glyphAddr (page.font 0) 0x41) 3 = true ∧
      unstable.glyphChanged (glyphAddr (page.font 0) 0x42) 3 = false ∧ unstable.CharChanged (page.font 0) 0x41 := by
  unfold State.CharChanged; decide +kernel

theorem witness_DrawStringPaintsItsGlyphs :
    page.cfgValid = true ∧ (0 : BitVec 4).toNat < page.params.fontSlots ∧ (page.font 0).w ≠ 0 ∧
      page.fbLen ≤ 16 ∧ unstable.cfgValid = true := by decide +kernel

/-- In T10 the second character fits at (4, 0) and the fourth wraps from (12, 0); in T11 the fifth wraps from (10, 3)
and restarts; a character at (0, 6) restarts without a wrap. -/
theorem witness_CursorStaysInside :
    (let path := cursorPath page (page.font 0) 0 0 (0, 0) (List.replicate 4 0x41)
     path[0]? = some (0, 0, 0x41) ∧ path[1]? = some (4, 0, 0x41) ∧ path[2]? = some (8, 0, 0x41) ∧
       path[3]? = some (0, 3, 0x41) ∧ (4 : Int) + (page.font 0).w.toNat ≤ page.width ∧
       (8 + 4 : Int) + (page.font 0).w.toNat > page.width ∧
       (0 : Int) + (page.font 0).h.toNat + (page.font 0).h.toNat ≤ page.height) ∧
    (let path := cursorPath page (page.font 0) 2 0 (2, 0) (List.replicate 5 0x41)
     path[3]? = some (6, 3, 0x41) ∧ path[4]? = some (2, 0, 0x41) ∧
       (6 + 4 : Int) + (page.font 0).w.toNat > page.width ∧
       (3 : Int) + (page.font 0).h.toNat + (page.font 0).h.toNat > page.height) ∧
    (cursorPath page (page.font 0) 0 6 (0, 6) [0x41])[0]? = some (0, 6, 0x41) ∧
      (0 : Int) + (page.font 0).w.toNat ≤ page.width ∧ (6 : Int) + (page.font 0).h.toNat > page.height := by
  decide +kernel

/-- Infinity and 254 digits are rejected, 253 digits are drawn. -/
theorem witness_DrawNumberDrawsItsString :
    page.cfgValid = true ∧ (0 : BitVec 4).toNat < page.params.fontSlots ∧ (page.font 0).w ≠ 0 ∧
      (0x7FF0000000000000 : BitVec 64).extractLsb' 52 11 = 0x7FF ∧
      (numberChars 0x3FE0000000000000 (254 : Byte).toNat).length > 255 ∧
      (0x3FE0000000000000 : BitVec 64).extractLsb' 52 11 ≠ 0x7FF ∧
      (numberChars 0x3FE0000000000000 (253 : Byte).toNat).length ≤ 255 := by decide +kernel

/-- The digits of 10 and 0; −5.0 is negative, and finite; a subnormal's exponent is 0. -/
theorem witness_NumberDigits :
    (0x31 : Byte) ∈ decimal 10 ∧ (decimal 0).head? = some 0x30 ∧ 0 < 2 ∧
      (0xC014000000000000 : BitVec 64).getLsbD 63 = true ∧ (magnitude 0xC014000000000000).sig ≠ 0 ∧
      (0xC014000000000000 : BitVec 64).extractLsb' 52 11 ≠ 0x7FF ∧
      (0x8000000000000001 : BitVec 64).extractLsb' 52 11 = 0 := by decide +kernel

/-- An exact tie: 2^53 + 1 lies halfway between 2^53 and 2^53 + 2. -/
theorem witness_RoundNearestEven :
    roundNearestEven { sig := 2 ^ 53 + 1, exp := 0 } = { sig := 2 ^ 52, exp := 1 } := by decide +kernel

theorem witness_PushFrameSendsFrame :
    7 < 8 ∧ rev8 0x12 = 0x48 ∧
    let s := frame (List.replicate 8 .accepted ++ [.error])
    s.cfgValid = true ∧ s.answers = List.replicate s.frameTokens.length .accepted ++ [.error] := by decide +kernel

theorem witness_PushFrameStopsAtError :
    let s := frame (List.replicate 4 .accepted ++ [.error])
    s.cfgValid = true ∧
      s.frameTokens = [.row 0, .colA 0, .colB 0, .data 0x01] ++ .row 1 :: [.colA 0, .colB 0, .data 0x48] ∧
      s.answers = List.replicate 4 .accepted ++ .error :: [] := by decide +kernel

theorem witness_PushFrameWaitsForAnswer :
    let s := frame (List.replicate 4 .accepted)
    s.cfgValid = true ∧ s.inputs = [] ∧
      s.frameTokens = [.row 0, .colA 0, .colB 0, .data 0x01] ++ .row 1 :: [.colA 0, .colB 0, .data 0x48] ∧
      s.answers = List.replicate 4 .accepted ∧
      (given (.answer .error) s).nextInput = some (.answer .error, []) := by decide +kernel

/-- A sticky bit cleared by the host, and a result the engine changed. -/
theorem witness_StickyBitsRule :
    (let s := given (.hostWrite 4 0x04 0x100) { raster with result := .oob, sticky := 1 }
     step s = .next (next s) ∧ s.sticky.getLsbD 0 = true ∧ (next s).sticky.getLsbD 0 = false) ∧
    let s := raster.loadCommand [6]
    step s = .next (next s) ∧ (next s).result ≠ s.result ∧ s.nextInput = none := by
  exact ⟨⟨rfl, by decide +kernel⟩, rfl, by decide +kernel⟩

/-- The host interface holds a word, because the FIFO of one word is full. -/
def stalled : State :=
  { receiving with params := { receiving.params with fifoDepth := 1 }, held := some 0x20 }

theorem witness_SoftReset :
    (given (.hostWrite 4 0x08 0xFFFFFFFF) receiving).nextInput = some (.hostWrite 4 0x08 0xFFFFFFFF, []) ∧
      (0xFFFFFFFF : Word).getLsbD 0 = true ∧ (0xFFFFFFFE : Word).getLsbD 0 = false ∧
      let s := given (.hostWrite 4 0x08 1) stalled
      s.held = some 0x20 ∧ s.inputs = .hostWrite 4 0x08 1 :: [] ∧ step s = .next (next s) :=
  ⟨by decide, by decide, by decide, rfl, rfl, rfl⟩

theorem witness_HardReset :
    (given .hardReset receiving).nextInput = some (.hardReset, []) ∧
      ({ stalled with inputs := [.hostWrite 4 0x00 7, .hardReset] } : State).nextInput =
        some (.hardReset, [.hostWrite 4 0x00 7]) := by decide

/-- Each writable offset, and the last of the others; room in the FIFO, and none. -/
theorem witness_HostWrites :
    (∀ off ∈ [0x00, 0x04, 0x0C, 0xFC],
      (given (.hostWrite 4 off 5) receiving).nextInput = some (.hostWrite 4 off 5, [])) ∧
      receiving.mode ≠ .halted ∧ 0xFC < 0x100 ∧ 0xFC % 4 = 0 ∧ receiving.fifo.length < receiving.params.fifoDepth ∧
      (given (.hostWrite 4 0x00 5) { stalled with held := none }).nextInput = some (.hostWrite 4 0x00 5, []) ∧
      stalled.params.fifoDepth ≤ stalled.fifo.length := by decide +kernel

/-- A word for a full FIFO is held, and the host's next access waits for the engine. -/
theorem test_host_stalls :
    let s := { stalled with held := none, inputs := [.hostWrite 4 0x00 5, .hostRead 4 0x04] }
    (next s).held = some 5 ∧ (next (next s)).held = none ∧ (next (next s)).inputs = [.hostRead 4 0x04] ∧
      (next (next (next s))).inputs = [] := by decide +kernel

/-- The first offset outside the window, a narrow and a misaligned access, and the last aligned offset. -/
theorem witness_HostAccessForm :
    (given (.hostRead 4 0x100) raster).nextInput = some (.hostRead 4 0x100, []) ∧ 0x100 ≤ 0x100 ∧
      (given (.hostWrite 2 0xFC 0) raster).nextInput = some (.hostWrite 2 0xFC 0, []) ∧ 2 ≠ 4 ∧ 0x1A % 4 ≠ 0 ∧
      0xFC < 0x100 ∧ 0xFC % 4 = 0 := by decide +kernel

/-- Reads of an idle and of a busy block: every kind of offset, the first and the last font register; `FB_INDEX` at the
last byte and one beyond it. -/
theorem witness_HostReads :
    raster.fonts.length = raster.params.fontSlots ∧ raster.params.fontSlots ≤ 16 ∧ raster.busy = false ∧
      receiving.fonts.length = receiving.params.fontSlots ∧ receiving.busy = true ∧
      0x44 + 8 * 15 = 0xBC ∧ 0x40 + 8 * 0 = 0x40 ∧
      (∀ off ∈ [0x00, 0x04, 0x08, 0x0C, 0x14, 0x18, 0x1C, 0x20, 0x24, 0x28, 0x2C, 0x30, 0x3C, 0x40, 0xBC, 0xC0, 0xFC],
        (given (.hostRead 4 off) raster).nextInput = some (.hostRead 4 off, []) ∧ off < 0x100 ∧ off % 4 = 0) ∧
      ({ raster with fbIndex := 31 } : State).fbIndex.toNat < raster.fbLen ∧
      raster.fbLen ≤ ({ raster with fbIndex := 32 } : State).fbIndex.toNat := by
  decide +kernel

/-- A stalled host whose read waits while font memory is written; one whose accesses are all there is; and one whose
word waits behind a frame. -/
theorem witness_HostStalls :
    stalled.held = some 0x20 ∧ stalled.work = none ∧ stalled.mode ≠ .halted ∧ stalled.fifo = 0x00040005 :: [] ∧
      (∀ e, decode (stalled.current ++ [0x00040005]) ≠ .illegal e) ∧
      decode (stalled.current ++ (stalled.fifo ++ [0x20])) = .command (.drawRect .filled 1 2 2 5 4) [0x20] ∧
      decode ([0x00010019] ++ ([0] ++ [0x20])) = .incomplete ∧
      ({ stalled with inputs := [.hostRead 4 0x04] ++ .fontByte 0 1 :: [] } : State).nextInput =
        some (.fontByte 0 1, [.hostRead 4 0x04]) ∧
      (given (.hostRead 4 0x04) stalled).nextInput = none ∧
      step (given (.hostRead 4 0x04) stalled) = .next (next (given (.hostRead 4 0x04) stalled)) ∧
      let s := { aborted (frame []) [.emit (.row 0)] 0 with inputs := [], offered := some (.row 0), held := some 7 }
      s.nextInput = none ∧ s.mode = .exec ∧ s.work = some (.emit (.row 0) :: []) ∧ s.answers = [] ∧
        s.offered = some (s.tokenOf (.row 0)) :=
  have decoded : decode (stalled.current ++ [0x00040005]) = .command (.drawRect .filled 1 2 2 5 4) [] := by decide
  ⟨rfl, rfl, nofun, by decide, by rw [decoded]; exact nofun, by decide, by decide, rfl, rfl, rfl,
    rfl, rfl, rfl, rfl, rfl⟩

/-- A byte that keeps its value and one beyond font memory; an idle block; a glyph that is not drawn; and one that is
drawn in part. -/
theorem witness_FontByteInput :
    (given (.fontByte 99 0x40) page).nextInput = some (.fontByte 99 0x40, []) ∧ page.fontMem.getD 99 0 = 0x40 ∧
      page.fontMem.length ≤ 288 ∧ 99 < page.fontMem.length ∧ page.fontMem.getD 99 0 ≠ 0xFF ∧
      (page.current ++ (page.fifo ++ page.held.toList)).length = 0 ∧ page.work = none ∧
      (drawing.current ++ (drawing.fifo ++ drawing.held.toList)).length ≠ 0 ∧
      drawing.workDone = [.cell 1 1 99 3 99 7 1 0] ∧ (∀ m ∈ drawing.workDone, ¬ m.DrawnFrom 102) ∧
      ∃ m ∈ drawing.workDone, m.DrawnFrom 99 := by
  have e : drawing.workDone = [.cell 1 1 99 3 99 7 1 0] := by decide +kernel
  refine ⟨rfl, by decide, by decide +kernel, by decide +kernel, by decide +kernel, by decide +kernel,
    rfl, by decide +kernel, e, ?_, ?_⟩ <;>
    rw [e] <;> simp only [List.mem_singleton, forall_eq, exists_eq_left]
  · rintro ⟨_, _, _, _, _, _, _, _, h, _, h2⟩
    cases h
    omega
  · exact ⟨_, _, _, _, _, _, _, _, rfl, by decide, by decide⟩

/-- The work of that command, done and left. -/
theorem witness_FontByteInput_work :
    let all := drawing.charPieces (drawing.font 0) 1 0 (((1 : Half).toNat : Int), ((1 : Half).toNat : Int), 0x41)
    drawing.RunsText all ∧ drawing.work = some all.tail ∧ all = [.cell 1 1 99 3 99 7 1 0] ++ all.tail ∧
      ∀ all, ¬ page.RunsText all := by
  refine ⟨⟨by decide, 0, 1, 1, 1, 0, [], by decide, by decide, Or.inl ⟨0x41, by decide +kernel, rfl⟩⟩,
    by decide +kernel, by decide +kernel, ?_⟩
  rintro all ⟨-, slot, fg, x, y, bg, rest, -, -, ⟨ch, h, -⟩ | ⟨cs, h | ⟨d, v, h, -⟩, -⟩⟩ <;> cases h

end Sys2Proof.Tests
end

section
/-! PROOF. The invariant holds after a hard reset. -/

namespace Sys2Proof.Machine

/-- A block without a Surface has an empty framebuffer (R39, R52). -/
@[simp] theorem resetWith_fbLen (p : Params) (m : List Byte) : (State.resetWith p m).fbLen = 0 :=
  Nat.mul_zero _

/-- Every slot of the font table is unloaded after a hard reset (R43, R52). -/
theorem eq_unloaded_of_mem_resetWith_fonts {p : Params} {m : List Byte} {f : Font}
    (h : f ∈ (State.resetWith p m).fonts) : f = Font.unloaded :=
  List.eq_of_mem_replicate h

/-- The registers and memories of reset: no byte is written, no slot is loaded, no word waits (R52). -/
theorem static_resetWith {p : Params} (hp : p.wf = true) (m : List Byte) : Static (State.resetWith p m) where
  params := hp
  memory := List.Pairwise.nil
  bounded := nofun
  rotation := rfl
  depth := rfl
  fits := by simp
  configured := nofun
  unconfigured _ := ⟨rfl, rfl⟩
  slots := List.length_replicate
  glyphs f hf := by
    rw [eq_unloaded_of_mem_resetWith_fonts hf]
    exact Iff.rfl
  fifo := Nat.zero_le _
  held h := absurd rfl h

/-- The engine is idle and holds nothing of a command, so what the invariant asks beyond `Static` is at hand. -/
theorem inv_resetWith {p : Params} (hp : p.wf = true) (m : List Byte) : (State.resetWith p m).Inv :=
  (static_resetWith hp m).inv (fun _ => ⟨rfl, rfl, rfl, rfl⟩) nofun nofun nofun nofun nofun

theorem vectors_wf : Params.vectors.wf = true := by decide

/-- Settles O12: every value of R52 meets the invariant, and the parameters of the test vectors lie in the ranges
of R8. -/
theorem resetSatisfiesInvariant : Obligations.ResetSatisfiesInvariant :=
  ⟨fun _ m hp => inv_resetWith hp m, inv_resetWith vectors_wf _⟩

end Sys2Proof.Machine
end

section
/-! PROOF. A whole step of the engine is a run of its small steps, so every step keeps the invariant (R300, R343). -/

namespace Sys2Proof

/-- The words a command was read from are a whole command on their own (R105, R112). -/
theorem decode_used {ws rest : List Word} {i : Instr} (h : decode ws = .command i rest) :
    ∃ used, ws = used ++ rest ∧ decode used = .command i [] := by
  cases ws with
  | nil => cases h
  | cons w ws =>
    cases hh : headerOp w with
    | error e => simp only [decode, hh, reduceCtorEq] at h
    | ok op =>
      rw [decode_cons hh] at h
      obtain ⟨_, used, rfl, _, hread, _⟩ := decodeOperands_spec h
      exact ⟨w :: used, rfl, by rw [decode_cons hh]; simpa using hread []⟩

/-- Fewer of a command's words than all are not a complete command (R105). -/
theorem decode_initial_incomplete {ws more : List Word} {i : Instr} (h : decode (ws ++ more) = .command i [])
    (hm : more ≠ []) : decode ws = .incomplete := by
  cases hd : decode ws with
  | command j rest =>
    rw [decode_extend hd] at h
    simp [hm] at h
  | illegal e => rw [decode_illegal_extend hd] at h; cases h
  | incomplete => rfl

end Sys2Proof

namespace Sys2Proof.Machine

variable {s t : State}

/-! ### The engine's step is a run of its small steps -/

/-- Only an engine in `EXEC` has work left (R48, R50). -/
theorem State.Inv.mode_of_work (h : s.Inv) {ms : List Micro} (hw : s.work = some ms) : s.mode = .exec := by
  cases hm : s.mode with
  | exec => rfl
  | idle =>
    obtain ⟨-, hnone, -⟩ := h.idle hm
    rw [hnone] at hw
    cases hw
  | halted =>
    obtain ⟨-, -, -, hnone, -⟩ := h.halted hm
    rw [hnone] at hw
    cases hw

/-- The words an engine without work has received are not yet a command (R300). -/
theorem State.Inv.current_incomplete (h : s.Inv) (hw : s.work = none) : decode s.current = .incomplete := by
  cases hm : s.mode with
  | exec =>
    obtain ⟨-, hpart, -⟩ := h.receiving hm hw
    exact hpart
  | idle =>
    obtain ⟨hnil, -⟩ := h.idle hm
    rw [hnil]; rfl
  | halted =>
    obtain ⟨-, -, hnil, -⟩ := h.halted hm
    rw [hnil]; rfl

/-- Small steps take the words that complete a command and run its rule (R300). -/
theorem ticks_command {i : Instr} {taken rest : List Word} (hm : s.mode ≠ .halted) (hw : s.work = none)
    (hs : s.stream = taken ++ rest) (ht : taken ≠ []) (hd : decode (s.current ++ taken) = .command i []) :
    ∃ n, ticks n s = (s.takeCommand (s.current ++ taken) rest).runPlan
      (planOf i (s.takeCommand (s.current ++ taken) rest)) := by
  induction taken generalizing s with
  | nil => exact absurd rfl ht
  | cons w taken ih =>
    have hword := tick_word s w (taken ++ rest) hm hw hs
    cases taken with
    | nil =>
      rw [hd] at hword
      obtain ⟨n, hn⟩ := ticks_startPlan (s.takeCommand (s.current ++ [w]) rest)
        (planOf i (s.takeCommand (s.current ++ [w]) rest))
      exact ⟨n + 1, (congrArg (ticks n) hword).trans hn⟩
    | cons v taken =>
      rw [List.append_cons] at hd ⊢
      rw [decode_initial_incomplete hd (List.cons_ne_nil _ _)] at hword
      obtain ⟨n, hn⟩ := ih (s := s.takeCommand (s.current ++ [w]) (v :: taken ++ rest)) nofun hw
        (takeCommand_stream ..) (List.cons_ne_nil _ _) hd
      exact ⟨n + 1, (congrArg (ticks n) hword).trans hn⟩

/-- Where the words written complete a command, it takes at least one beyond those the engine had received. -/
theorem stream_split {i : Instr} {rest : List Word} (hc : decode s.current = .incomplete)
    (hd : decode (s.current ++ s.stream) = .command i rest) :
    ∃ taken, s.stream = taken ++ rest ∧ taken ≠ [] ∧ decode (s.current ++ taken) = .command i [] := by
  obtain ⟨used, hsplit, hused⟩ := decode_used hd
  rcases List.append_eq_append_iff.1 hsplit with ⟨taken, rfl, hs⟩ | ⟨more, hcur, -⟩
  · refine ⟨taken, hs, ?_, hused⟩
    rintro rfl
    rw [List.append_nil, hc] at hused
    cases hused
  · rw [hcur] at hc
    rw [decode_prefix_incomplete hc] at hused
    cases hused

/-- An illegal header is the first word of the stream, with nothing of a command received before it (R302). -/
theorem illegal_opens_stream {e : DecodeError} (hc : decode s.current = .incomplete)
    (hd : decode (s.current ++ s.stream) = .illegal e) :
    s.current = [] ∧ ∃ w rest, s.stream = w :: rest ∧ decode [w] = .illegal e := by
  cases hcur : s.current with
  | cons w ws =>
    rw [hcur, List.cons_append, decode_illegal_iff] at hd
    rw [hcur, (decode_illegal_iff w ws e).2 hd] at hc
    cases hc
  | nil =>
    rw [hcur, List.nil_append] at hd
    cases hs : s.stream with
    | nil => rw [hs] at hd; cases hd
    | cons w rest =>
      rw [hs, decode_illegal_iff] at hd
      exact ⟨rfl, w, rest, rfl, (decode_illegal_iff w [] e).2 hd⟩

/-- A whole step of the engine is a number of its small steps (R300, R343; log entry 3). -/
theorem engineStep_eq_ticks (hI : s.Inv) : ∃ n, engineStep s = .next (ticks n s) := by
  by_cases hh : s.mode = .halted
  · exact ⟨1, by rw [engineStep_halted hh]; exact congrArg _ (tick_halted hh).symm⟩
  cases hw : s.work with
  | some ms =>
    obtain ⟨n, hn⟩ := ticks_work ms s (hI.mode_of_work hw) hw
    exact ⟨n, by rw [engineStep_some hh hw, hn]⟩
  | none =>
    have hc := hI.current_incomplete hw
    rw [engineStep_none hh hw]
    cases hd : decode (s.current ++ s.stream) with
    | command i rest =>
      obtain ⟨taken, hs, ht, hdt⟩ := stream_split hc hd
      obtain ⟨n, hn⟩ := ticks_command hh hw hs ht hdt
      refine ⟨n, ?_⟩
      have htake : (s.current ++ s.stream).take ((s.current ++ s.stream).length - rest.length) =
          s.current ++ taken := by
        rw [hs, ← List.append_assoc, List.length_append, Nat.add_sub_cancel, List.take_left]
      dsimp only
      rw [htake, exec_eq, hn]
    | illegal e =>
      obtain ⟨hcur, w, rest, hs, hword⟩ := illegal_opens_stream hc hd
      have ht := tick_word s w rest hh hw hs
      rw [hcur, List.nil_append, hword] at ht
      exact ⟨1, congrArg _ ht.symm⟩
    | incomplete =>
      cases hs : s.stream with
      | nil => exact ⟨0, by simp [State.collect, hs, ticks]⟩
      | cons w ws =>
        have hne : s.stream ≠ [] := by rw [hs]; exact List.cons_ne_nil _ _
        have hall : s.stream.take (ws.length + 1) = s.stream := by rw [hs]; simp
        refine ⟨ws.length + 1, ?_⟩
        rw [ticks_collect s hh hw ws.length (by rw [hs]; simp) (by rw [hall]; exact hd), collect_eq s hne, hall,
          hs]
        simp

theorem inv_engineStep (hI : s.Inv) (h : engineStep s = .next t) : t.Inv := by
  obtain ⟨n, hn⟩ := engineStep_eq_ticks hI
  rw [hn] at h
  cases h
  exact inv_ticks hI n

/-! ### What comes from outside -/

/-- The count of the buffer's renewals and everything outside the block are no part of what `Static` says. -/
theorem Static.outside (h : Static s) (e : Nat) (o : List Token) (a : List Answer) (d : Word) (k : Nat) (r : List Input) :
    Static { s with fbEpoch := e, tokens := o, answers := a, readData := d, freeCtr := k, inputs := r } :=
  ⟨h.params, h.memory, h.bounded, h.rotation, h.depth, h.fits, h.configured, h.unconfigured, h.slots, h.glyphs, h.fifo,
    h.held⟩

/-- What the transport has answered, what a read returned and which free value comes next are no part of the
invariant. -/
theorem inv_outside (hI : s.Inv) (a : List Answer) (d : Word) (k : Nat) :
    ({ s with answers := a, readData := d, freeCtr := k } : State).Inv :=
  (hI.static.outside s.fbEpoch s.tokens a d k s.inputs).inv hI.idle hI.halted hI.receiving hI.work
    (hI.keepsRunning rfl rfl ⟨⟨rfl, rfl, rfl, rfl, rfl, rfl, rfl⟩, rfl, rfl, rfl⟩) hI.changes

/-- A hard reset needs nothing of the state but parameters in their ranges (R340). -/
theorem inv_hardReset (hp : s.params.wf = true) : s.hardReset.Inv :=
  ((static_resetWith hp s.fontMem).outside _ _ _ _ _ _).inv (fun _ => ⟨rfl, rfl, rfl, rfl⟩) nofun nofun nofun nofun nofun

/-- Whatever reaches the block keeps the invariant; an access of the host comes only while it is not stalled (R355). -/
theorem inv_inputStep {inp : Input} (hI : s.Inv) (hheld : inp.isHostAccess = true → s.held = none)
    (h : inputStep inp s = .next t) : t.Inv := by
  cases inp with
  | hostWrite size off v =>
    rw [hostAccess_next h]
    exact inv_hostWrite hI (hheld rfl) off v
  | hostRead size off =>
    rw [hostAccess_next h]
    exact inv_outside hI s.answers _ _
  | answer a => cases h; exact inv_outside hI _ s.readData s.freeCtr
  | fontByte a v => cases h; exact inv_fontByte hI a v
  | ticks n => cases h; exact inv_ticks hI n
  | hardReset => cases h; exact inv_hardReset hI.params

/-- Settles O11: what comes from outside keeps the invariant, and a whole step of the engine is a run of small steps,
each of which keeps it. -/
theorem stepKeepsInvariant : Obligations.StepKeepsInvariant := by
  intro s t hI h
  cases hn : s.nextInput with
  | none =>
    rw [step_engine hn] at h
    exact inv_engineStep hI h
  | some next =>
    obtain ⟨inp, rest⟩ := next
    rw [step_input hn] at h
    exact inv_inputStep (inv_inputs hI rest) (nextInput_access (s := s) hn) h

end Sys2Proof.Machine
end

section
/-! PROOF. What a command may change: registers, framebuffer, token stream (R32 to R47, R70, R82, R86). -/

namespace Sys2Proof.Machine

variable {s t : State} {i : Instr}

/-- Each register is as before unless the command is one of its writers (R32 to R36, R40, R41, R43), `CFG_VALID` is
not cleared, and what no command writes is as before (R47, R86). -/
def KeepsRegisters (s : State) (i : Instr) (t : State) : Prop :=
  (i.op ≠ .surfInit → t.wm = s.wm ∧ t.hm = s.hm ∧ t.bg = s.bg ∧ t.cfgValid = s.cfgValid) ∧
    (i.op ≠ .surfInit → i.op ≠ .setRotation → t.rot = s.rot) ∧
    (i.op ≠ .surfInit → i.op ≠ .setMirror → t.mirror = s.mirror) ∧
    (i.op ≠ .surfInit → i.op ≠ .setDepth → t.depth = s.depth) ∧
    (i.op ≠ .setFont → t.fonts = s.fonts) ∧
    (s.cfgValid = true → t.cfgValid = true) ∧
    t.fontMem = s.fontMem ∧ s.SameOutside t

/-- What leaves the registers, the fonts and the outside alone writes no register. -/
theorem keepsRegisters_of_same (hs : s.SameSurface t) (hf : s.SameFonts t) (ho : s.SameOutside t) :
    KeepsRegisters s i t := by
  obtain ⟨hwm, hhm, hrot, hmir, hdep, hbg, hcfg⟩ := hs
  exact ⟨fun _ => ⟨hwm, hhm, hbg, hcfg⟩, fun _ _ => hrot, fun _ _ => hmir, fun _ _ => hdep, fun _ => hf.1,
    hcfg.trans, hf.2, ho⟩

/-- A configuration command keeps what no command writes: font memory, the outside and the transport's side (R86). -/
theorem configures_outside (h : Configures s i t) : t.fontMem = s.fontMem ∧ s.SameOutside t ∧ s.SameTransport t := by
  cases i <;> simp only [Configures] at h
  case nop | surfInit | setFont => subst h; exact ⟨rfl, ⟨rfl, rfl, rfl, rfl, rfl, rfl⟩, rfl, rfl⟩
  case setRotation | setMirror | setDepth => obtain ⟨-, rfl⟩ := h; exact ⟨rfl, ⟨rfl, rfl, rfl, rfl, rfl, rfl⟩, rfl, rfl⟩

/-- A configuration command writes its own registers only (R140 to R150). -/
theorem configures_keepsRegisters (h : Configures s i t) : KeepsRegisters s i t := by
  obtain ⟨hfont, hout, -⟩ := configures_outside h
  cases i <;> simp only [Configures] at h
  case nop => subst h; exact keepsRegisters_of_same (sameButDrawing_refl t).1 ⟨rfl, rfl⟩ hout
  case surfInit =>
    subst h
    exact ⟨fun h => absurd rfl h, fun h => absurd rfl h, fun h => absurd rfl h, fun h => absurd rfl h, fun _ => rfl,
      fun _ => rfl, hfont, hout⟩
  case setRotation =>
    obtain ⟨-, rfl⟩ := h
    exact ⟨fun _ => ⟨rfl, rfl, rfl, rfl⟩, fun _ h => absurd rfl h, fun _ _ => rfl, fun _ _ => rfl, fun _ => rfl, id,
      hfont, hout⟩
  case setMirror =>
    obtain ⟨-, rfl⟩ := h
    exact ⟨fun _ => ⟨rfl, rfl, rfl, rfl⟩, fun _ _ => rfl, fun _ h => absurd rfl h, fun _ _ => rfl, fun _ => rfl, id,
      hfont, hout⟩
  case setDepth =>
    obtain ⟨-, rfl⟩ := h
    exact ⟨fun _ => ⟨rfl, rfl, rfl, rfl⟩, fun _ _ => rfl, fun _ _ => rfl, fun _ h => absurd rfl h, fun _ => rfl, id,
      hfont, hout⟩
  case setFont =>
    subst h
    exact ⟨fun _ => ⟨rfl, rfl, rfl, rfl⟩, fun _ _ => rfl, fun _ _ => rfl, fun _ _ => rfl, fun h => absurd rfl h, id,
      hfont, hout⟩

/-- A command's rule, run to its end, writes the command's own registers only. -/
theorem runPlan_keepsRegisters (i : Instr) (s : State) : KeepsRegisters s i (s.runPlan (planOf i s)) := by
  rcases planOf_cases i s with ⟨c, e, -⟩ | ⟨s', e, -, -, hc⟩ | ⟨ms, e, -⟩ <;> rw [e]
  · obtain ⟨hs, hf, -, ho, -⟩ := runPlan_reject s c
    exact keepsRegisters_of_same hs hf ho
  · have hkeep : KeepsRegisters s i s' := configures_keepsRegisters hc
    exact hkeep
  · obtain ⟨hs, hf, ho, -⟩ := draws_same (s := s) (ms := ms)
    exact keepsRegisters_of_same hs hf ho

/-- A command's rule leaves the words still to be taken and the host's side alone (R86). -/
theorem runPlan_outside (i : Instr) (s : State) : s.SameOutside (s.runPlan (planOf i s)) := by
  obtain ⟨-, -, -, -, -, -, -, hout⟩ := runPlan_keepsRegisters i s
  exact hout

/-- Settles O15: a rejection and a drawing write no register, and a configuration command writes its own. -/
theorem onlyConfigurationWritesRegisters : Obligations.OnlyConfigurationWritesRegisters := by
  intro i s t h
  rw [exec_eq] at h
  cases h
  exact runPlan_keepsRegisters i s

/-- Only SURF_INIT and SET_DEPTH make the framebuffer unspecified, and no configuration writes a byte of it (R42). -/
theorem configures_sameFb (h : Configures s i t) (h1 : i.op ≠ .surfInit) (h2 : i.op ≠ .setDepth) : s.SameFb t := by
  cases i <;> simp only [Configures] at h
  case surfInit => exact absurd rfl h1
  case setDepth => exact absurd rfl h2
  case nop | setFont => subst h; exact fun _ => rfl
  case setRotation | setMirror => obtain ⟨-, rfl⟩ := h; exact fun _ => rfl

/-- A frame is read from the framebuffer, which it leaves as it was (R282). -/
theorem runPlan_emit_sameFb (s : State) (es : List Emission) : s.SameFb (s.runPlan (.draw (es.map .emit))) :=
  readFb_congr (runWork_emit_fb s.begin es) draws_same.2.2.2

theorem op_pushFrame_iff : i.op = .pushFrame ↔ i = .pushFrame := by
  cases i <;> simp [Instr.op]

/-- Settles O16: a rejection writes neither; a configuration writes no byte, though SURF_INIT and SET_DEPTH forget
them all; work fills and paints below `FB_LEN` only, and hands tokens over only when it is a frame's. -/
theorem onlyDrawingWritesFramebuffer : Obligations.OnlyDrawingWritesFramebuffer := by
  intro i s t h
  rw [exec_eq] at h
  cases h
  rcases planOf_cases i s with ⟨c, e, -⟩ | ⟨s', e, -, -, hc⟩ | ⟨ms, e, hi, -, hlocal, hframe, hfill⟩ <;> rw [e]
  · obtain ⟨-, -, hfb, -, ht, -⟩ := runPlan_reject s c
    exact ⟨fun _ => hfb, fun _ _ j _ => hfb j, fun _ => ht⟩
  · rw [runPlan_configure]
    have hfb := configures_sameFb hc
    refine ⟨fun hop => hfb ?_ ?_, fun h1 h2 j _ => hfb h1 h2 j, fun _ => (configures_outside hc).2.2⟩
    · rintro h; simp [h] at hop
    · rintro h; simp [h] at hop
  · refine ⟨fun hop => ?_, fun _ _ j hj => ?_, fun hp => ?_⟩
    · have hp : i = .pushFrame := op_pushFrame_iff.1 (by simp only [IsConfig] at hi; tauto)
      rw [hframe hp]
      exact runPlan_emit_sameFb s _
    · exact runWork_outside s.begin ms hfill hj
    · exact (runWork_local s.begin (hlocal (mt op_pushFrame_iff.2 hp))).2

end Sys2Proof.Machine
end

section
/-! PROOF. `STATUS`: its value and the rest of the state after a hard reset (R52), its fields (R44), and what a step
does to the sticky bits and the result (R45). -/

namespace Sys2Proof.Machine

variable {s t : State}

/-- A block without a Surface has empty rows (R38, R52). -/
@[simp] theorem resetWith_stride (p : Params) (m : List Byte) : (State.resetWith p m).stride = 0 := by
  change strideOf 0 1 = 0
  decide

/-- No field of `STATUS` is set after a hard reset (R44, R52). -/
@[simp] theorem resetWith_statusWord (p : Params) (m : List Byte) : (State.resetWith p m).statusWord = 0 := by
  change (0 : BitVec 13) ++ BitVec.ofBool false ++ BitVec.ofBool false ++ BitVec.ofBool false ++ (0 : BitVec 3) ++
    (0 : BitVec 5) ++ (0 : BitVec 5) ++ (0 : BitVec 3) = 0
  decide

/-- Settles O13: each value stands in `State.resetWith`; the geometry is that of no Surface (R37 to R39). -/
theorem resetValues : Obligations.ResetValues := by
  intro p m
  have hslot : ∀ k, k < p.fontSlots → (State.resetWith p m).fonts[k]? = some Font.unloaded := fun k hk =>
    (List.getElem?_replicate).trans (if_pos hk)
  exact ⟨rfl, rfl, rfl, rfl, rfl, rfl, rfl, rfl, rfl, resetWith_stride p m, resetWith_fbLen p m, fun _ => rfl, hslot,
    List.length_replicate, resetWith_statusWord p m, rfl, rfl, rfl, rfl⟩

/-! ### The fields of `STATUS` -/

/-- Bits of `STATUS` that the table reserves read 0. -/
theorem statusWord_reserved (s : State) {a n : Nat}
    (h : ∀ i, a ≤ i → i < a + n → s.statusWord.getLsbD i = false) : s.statusWord.extractLsb' a n = 0 := by
  apply BitVec.eq_of_getLsbD_eq
  intro i hi
  rw [BitVec.getLsbD_extractLsb', h (a + i) (by omega) (by omega)]
  simp

theorem statusWord_code (s : State) : s.statusWord.extractLsb' 0 3 = s.result.code := extract_append_low _ _

theorem busy_iff : s.busy = true ↔ s.mode = .exec ∨ s.fifo ≠ [] := by simp [State.busy]

theorem halted_iff : s.halted = true ↔ s.mode = .halted := by simp [State.halted]

/-- Settles O52: each bit of the word is the field the table puts there. -/
theorem statusFields : Obligations.StatusFields := by
  intro s
  have hzero : ∀ i, i < 32 → (3 ≤ i ∧ i < 8) ∨ (13 ≤ i ∧ i < 16) ∨ 19 ≤ i → s.statusWord.getLsbD i = false := by
    intro i hi h
    rw [statusWord_bit s i hi]
    grind
  refine ⟨?_, ?_, statusWord_bit s 8 (by decide), statusWord_bit s 9 (by decide), statusWord_bit s 10 (by decide),
    statusWord_bit s 11 (by decide), statusWord_bit s 12 (by decide), ?_, ?_, ?_, statusWord_bit s 18 (by decide), ?_⟩
  · rw [statusWord_code]
    cases s.result <;> rfl
  · exact statusWord_reserved s fun i h1 h2 => hzero i (by omega) (by omega)
  · exact statusWord_reserved s fun i h1 h2 => hzero i (by omega) (by omega)
  · rw [statusWord_bit s 16 (by decide)]
    exact busy_iff
  · rw [statusWord_bit s 17 (by decide)]
    exact halted_iff
  · exact statusWord_reserved s fun i h1 h2 => hzero i (by omega) (by omega)

/-! ### What a step does to the sticky bits and the result -/

/-- A soft or a hard reset reaches the block (R340, R342). -/
def State.Resets (s : State) : Prop :=
  (∃ v rest, s.nextInput = some (.hostWrite 4 0x08 v, rest) ∧ v.getLsbD 0 = true) ∨
    ∃ rest, s.nextInput = some (.hardReset, rest)

/-- The next step is the engine's, whole or by small steps (R300). -/
def State.RunsEngine (s : State) : Prop := s.nextInput = none ∨ ∃ n rest, s.nextInput = some (.ticks n, rest)

theorem State.Resets.not_runsEngine (h : s.Resets) : ¬ s.RunsEngine := by
  rcases h with ⟨v, rest, h, -⟩ | ⟨rest, h⟩ <;> simp [State.RunsEngine, h]

/-- A sticky bit that a host write to `STATUS` clears is one it writes as 1 (R45). -/
theorem clearSticky_bit {v : Word} {j : Nat} (h1 : s.sticky.getLsbD j = true)
    (h2 : (s.clearSticky v).sticky.getLsbD j = false) : v.getLsbD (8 + j) = true := by
  have hj : j < 5 := BitVec.lt_of_getLsbD h1
  simpa [State.clearSticky, h1, hj] using h2

/-- The platform's write of a font memory byte leaves `STATUS` alone (R351). -/
theorem fontByte_status (s : State) (a : Nat) (v : Byte) :
    (s.fontByte a v).result = s.result ∧ (s.fontByte a v).sticky = s.sticky := by
  rcases fontByte_cases s a v with ⟨-, e⟩ | ⟨-, -, ⟨-, e⟩ | ⟨-, -, e⟩ | ⟨-, -, -, _, _, -, e⟩⟩ <;> rw [e] <;>
    exact ⟨rfl, rfl⟩

theorem pushWord_status (s : State) (v : Word) :
    (s.pushWord v).result = s.result ∧ (s.pushWord v).sticky = s.sticky := by
  rcases pushWord_cases s v with ⟨-, e⟩ | ⟨-, -, e⟩ | ⟨-, -, e⟩ <;> rw [e] <;> exact ⟨rfl, rfl⟩

/-- Everything a step can do to the result and the sticky bits: a reset clears them, the host's write to `STATUS`
clears sticky bits, the engine only adds to them, and nothing else touches them (R45). -/
theorem step_status (h : step s = .next t) : s.Resets ∨ s.RunsEngine ∧ Grows s t ∨ t.result = s.result ∧
    (t.sticky = s.sticky ∨
      ∃ v rest, s.nextInput = some (.hostWrite 4 0x04 v, rest) ∧ t.sticky = (s.clearSticky v).sticky) := by
  cases hn : s.nextInput with
  | none =>
    rw [step_engine hn] at h
    exact Or.inr (Or.inl ⟨Or.inl hn, grows_engine h⟩)
  | some next =>
    obtain ⟨inp, rest⟩ := next
    rw [step_input hn] at h
    cases inp with
    | hostWrite size off v =>
      obtain ⟨rfl, -, rfl, -⟩ := hostAccess_form h
      rcases hostWrite_cases { s with inputs := rest } off v with
        ⟨-, e⟩ | ⟨rfl, e⟩ | ⟨rfl, hv, e⟩ | ⟨-, e⟩ | e
      · obtain ⟨hr, hs⟩ := pushWord_status { s with inputs := rest } v
        rw [e]
        exact Or.inr (Or.inr ⟨hr, Or.inl hs⟩)
      · rw [e]
        exact Or.inr (Or.inr ⟨rfl, Or.inr ⟨v, rest, rfl, rfl⟩⟩)
      · exact Or.inl (Or.inl ⟨v, rest, hn, hv⟩)
      · rw [e]
        exact Or.inr (Or.inr ⟨rfl, Or.inl rfl⟩)
      · rw [e]
        exact Or.inr (Or.inr ⟨rfl, Or.inl rfl⟩)
    | hostRead size off =>
      rw [hostAccess_next h]
      exact Or.inr (Or.inr ⟨rfl, Or.inl rfl⟩)
    | answer a => cases h; exact Or.inr (Or.inr ⟨rfl, Or.inl rfl⟩)
    | fontByte a v =>
      cases h
      obtain ⟨hr, hs⟩ := fontByte_status { s with inputs := rest } a v
      exact Or.inr (Or.inr ⟨hr, Or.inl hs⟩)
    | ticks n =>
      cases h
      exact Or.inr (Or.inl ⟨Or.inr ⟨n, rest, hn⟩, grows_ticks n { s with inputs := rest }⟩)
    | hardReset => exact Or.inl (Or.inr ⟨rest, hn⟩)

/-- Settles O53, from everything a step can do to the status. -/
theorem stickyBitsRule : Obligations.StickyBitsRule := by
  intro s t h
  change (∀ j, s.sticky.getLsbD j = true → t.sticky.getLsbD j = false → s.Resets ∨ _) ∧
    (t.result ≠ s.result → s.Resets ∨ s.RunsEngine) ∧ (s.RunsEngine → t.result ≠ s.result → _)
  rcases step_status h with hreset | ⟨hrun, hgrow, hmask⟩ | ⟨hr, hs⟩
  · exact ⟨fun _ _ _ => Or.inl hreset, fun _ => Or.inl hreset, fun he => absurd he hreset.not_runsEngine⟩
  · refine ⟨fun j h1 h2 => ?_, fun _ => Or.inr hrun, fun _ hne => ?_⟩
    · rw [hgrow j h1] at h2
      cases h2
    · exact hmask.resolve_left fun h => hne h.1
  · refine ⟨fun j h1 h2 => ?_, fun hne => absurd hr hne, fun _ hne => absurd hr hne⟩
    rcases hs with hs | ⟨v, rest, hn, hs⟩
    · rw [hs, h1] at h2
      cases h2
    · rw [hs] at h2
      exact Or.inr ⟨v, rest, hn, clearSticky_bit h1 h2⟩

end Sys2Proof.Machine
end

section
/-! PROOF. A full FIFO stalls the host until the engine takes a word (R49, R285, R355). -/

namespace Sys2Proof.Machine

variable {s t : State} {w : Word}

/-! ### What reaches the block past a stalled host -/

/-- With accesses of the stalled host only, nothing reaches the block. -/
theorem nextInput_waiting (hh : s.held = some w) (hw : ∀ a ∈ s.inputs, a.FromHost) : s.nextInput = none := by
  have hnext := nextOf_stalled s.inputs [] fun a ha => (fromHost_iff a).1 (hw a ha)
  rw [List.append_nil] at hnext
  rw [State.nextInput, hh]
  exact hnext

/-- Anything but an access passes the accesses that wait, which keep their order. -/
theorem nextInput_passes {inp : Input} {waiting rest : List Input} (hh : s.held = some w)
    (hw : ∀ a ∈ waiting, a.FromHost) (hi : ¬ inp.FromHost) (hs : s.inputs = waiting ++ inp :: rest) :
    s.nextInput = some (inp, waiting ++ rest) := by
  have hfirst : nextOf true (inp :: rest) = some (inp, rest) := by
    rw [fromHost_iff] at hi
    simp [nextOf, hi]
  have hnext := nextOf_stalled waiting (inp :: rest) fun a ha => (fromHost_iff a).1 (hw a ha)
  rw [hfirst] at hnext
  rw [State.nextInput, hh, hs]
  exact hnext

/-! ### The engine takes words -/

theorem stream_of_held (hh : s.held = some w) : s.stream = s.fifo ++ [w] := by rw [State.stream, hh]; rfl

/-- The start of a command's rule leaves the words still to be taken and the host's side alone. -/
theorem startPlan_outside (i : Instr) (s : State) : s.SameOutside (s.startPlan (planOf i s)) := by
  rcases planOf_cases i s with ⟨c, e, -⟩ | ⟨s', e, -, -, hc⟩ | ⟨ms, e, -⟩ <;> rw [e]
  · obtain ⟨-, -, -, hout, -⟩ := runPlan_reject s c
    exact hout
  · have hout : s.SameOutside s' := (configures_outside hc).2.1
    exact hout
  · exact ⟨rfl, rfl, rfl, rfl, rfl, rfl⟩

/-- A step of the engine that is not amid a command's work takes the held word: a command that runs leaves the words
after it in the FIFO, and without a complete command all are taken (R49, R355). -/
theorem engineStep_takes_held (hh : s.held = some w) (hk : s.work = none) (h : engineStep s = .next t) :
    t.held = none ∧ t.inputs = s.inputs ∧
      (s.mode ≠ .halted →
        (∀ i rest, decode (s.current ++ (s.fifo ++ [w])) = .command i rest → t.fifo = rest) ∧
        (decode (s.current ++ (s.fifo ++ [w])) = .incomplete →
          t.fifo = [] ∧ t.current = s.current ++ (s.fifo ++ [w]))) := by
  by_cases hm : s.mode = .halted
  · rw [engineStep_halted hm] at h
    cases h
    exact ⟨rfl, rfl, fun hne => absurd hm hne⟩
  have hstream := stream_of_held hh
  rw [engineStep_none hm hk] at h
  rw [← hstream]
  cases hd : decode (s.current ++ s.stream) with
  | command i rest =>
    rw [hd] at h
    dsimp only at h
    rw [exec_eq] at h
    cases h
    obtain ⟨-, -, hfifo, hheld, hinputs, -⟩ := runPlan_outside i (s.takeCommand
      ((s.current ++ s.stream).take ((s.current ++ s.stream).length - rest.length)) rest)
    refine ⟨hheld, hinputs, fun _ => ⟨fun j r hj => ?_, nofun⟩⟩
    cases hj
    exact hfifo
  | illegal e =>
    rw [hd] at h
    cases h
    exact ⟨rfl, rfl, fun _ => ⟨nofun, nofun⟩⟩
  | incomplete =>
    rw [hd] at h
    cases h
    rw [collect_eq s (by rw [hstream]; simp)]
    exact ⟨rfl, rfl, fun _ => ⟨nofun, fun _ => ⟨rfl, rfl⟩⟩⟩

/-- A small step that takes the first word of the stream leaves the others in the FIFO, unless it meets an illegal
header, and the host goes on (R49, R302, R355). -/
theorem tick_takes_word {v : Word} {rest : List Word} (hm : s.mode ≠ .halted) (hk : s.work = none)
    (hs : s.stream = v :: rest) :
    (tick s).held = none ∧ (tick s).inputs = s.inputs ∧
      ((∀ e, decode (s.current ++ [v]) ≠ .illegal e) → (tick s).fifo = rest) := by
  rw [tick_word s v rest hm hk hs]
  cases hd : decode (s.current ++ [v]) with
  | command i r =>
    obtain ⟨-, -, hfifo, hheld, hinputs, -⟩ := startPlan_outside i (s.takeCommand (s.current ++ [v]) rest)
    exact ⟨hheld, hinputs, fun _ => hfifo⟩
  | illegal e => exact ⟨rfl, rfl, fun hne => absurd rfl (hne e)⟩
  | incomplete => exact ⟨rfl, rfl, fun _ => rfl⟩

/-- A held word gives the engine a word to take, and stays behind those of the FIFO. -/
theorem tick_takes_held (hh : s.held = some w) (hm : s.mode ≠ .halted) (hk : s.work = none) :
    (tick s).held = none ∧ (tick s).inputs = s.inputs ∧
      ∀ (v : Word) (fs : List Word), s.fifo = v :: fs → (∀ e, decode (s.current ++ [v]) ≠ .illegal e) →
        (tick s).fifo = fs ++ [w] := by
  have hs := stream_of_held hh
  cases hf : s.fifo with
  | nil =>
    rw [hf] at hs
    obtain ⟨hheld, hinputs, -⟩ := tick_takes_word hm hk hs
    exact ⟨hheld, hinputs, nofun⟩
  | cons u us =>
    rw [hf] at hs
    obtain ⟨hheld, hinputs, hfifo⟩ := tick_takes_word hm hk hs
    refine ⟨hheld, hinputs, fun v fs hv hne => ?_⟩
    cases hv
    exact hfifo hne

/-- A frame whose token is offered and has no answer stays as it is (R285). -/
theorem engineStep_waits {e : Emission} {ms : List Micro} (hm : s.mode = .exec) (hk : s.work = some (.emit e :: ms))
    (ha : s.answers = []) (ho : s.offered = some (s.tokenOf e)) : engineStep s = .next s := by
  have hrun : s.runWork (.emit e :: ms) =
      { s with offered := some (s.tokenOf e), mode := .exec, work := some (.emit e :: ms) } := by
    simp only [State.runWork, State.perform, State.emitToken, ha]
  rw [engineStep_some (by rw [hm]; exact nofun) hk, hrun, ← ho, ← hm, ← hk]

/-- Settles O59: the parts are what passes a stalled host, what a step and a small step of the engine take, and the
wait of a frame. -/
theorem hostStalls : Obligations.HostStalls := by
  refine fun s => ⟨nextInput_free, fun w waiting hh hw => ⟨?_, fun inp rest hi hs => nextInput_passes hh hw hi hs⟩,
    fun w hh hm hk => tick_takes_held hh hm hk, fun e ms hn hm hk ha ho => ?_⟩
  · rintro rfl
    have hn := nextInput_waiting hh hw
    have hstep := step_engine hn
    exact ⟨hn, hstep, fun hk t ht => engineStep_takes_held hh hk (hstep.symm.trans ht)⟩
  · exact (step_engine hn).trans (engineStep_waits hm hk ha ho)

end Sys2Proof.Machine
end

section
/-! PROOF. A pixel write keeps every other pixel of the rectangle (R79, R183 to R187). -/

namespace Sys2Proof.Machine

/-- Two pixels whose rows of `st` bytes hold `n` pixels to a byte share a byte only at different fields of it. -/
theorem narrow_pixels_apart {n st X X' Y Y' : Nat} (hX : X / n < st) (hX' : X' / n < st) (hne : X' ≠ X ∨ Y' ≠ Y) :
    X' / n + Y' * st ≠ X / n + Y * st ∨ X % n ≠ X' % n := by
  by_contra h
  push Not at h
  obtain ⟨hindex, hfield⟩ := h
  obtain ⟨hrow, hbyte⟩ := rows_apart hindex hX' hX
  refine hne.elim (fun hx => hx ?_) (fun hy => hy hrow)
  rw [← Nat.div_add_mod X' n, hbyte, ← hfield, Nat.div_add_mod]

/-- Two 16-bit pixels take two pairs of bytes that do not overlap: each pair begins at an even index. -/
theorem wide_pixels_apart {wm X X' Y Y' : Nat} (hX : X < wm) (hX' : X' < wm) (hne : X' ≠ X ∨ Y' ≠ Y) :
    X' * 2 + Y' * (wm * 2) ≠ X * 2 + Y * (wm * 2) ∧ X' * 2 + Y' * (wm * 2) ≠ X * 2 + Y * (wm * 2) + 1 ∧
      X' * 2 + Y' * (wm * 2) + 1 ≠ X * 2 + Y * (wm * 2) := by
  have hpixel : X' + Y' * wm ≠ X + Y * wm := fun h => by
    obtain ⟨hrow, hcol⟩ := rows_apart h hX' hX
    omega
  rw [← Nat.mul_assoc, ← Nat.mul_assoc]
  omega

/-- Settles O27: the write packs one pixel, and the field of any other pixel of the rectangle lies in another byte or
at other bits of the same byte. -/
theorem pixelKeepsItsNeighbours : Obligations.PixelKeepsItsNeighbours := by
  intro s d x y X Y c X' Y' hd ht hX0 hX hY0 hY hX' hY' hne
  have hwrite : s.writePixel x y c = s.pack d (byteIndex d s.stride X.toNat Y.toNat).1 X.toNat c := by
    simp only [State.writePixel, target_inside hd ht hX0 hX hY0 hY]
  have hplace : X' ≠ X.toNat ∨ Y' ≠ Y.toNat := by
    rw [Ne, Prod.mk.injEq] at hne
    omega
  have hcol : X.toNat < s.wm.toNat := by omega
  have hstride := stride_of_depth hd
  rw [hwrite]
  refine getPixel_pack_ne s d c ?_
  cases d with
  | one | two | four =>
    rw [Depth.bits] at hstride
    exact narrow_pixels_apart (by omega) (by omega) hplace
  | sixteen =>
    rw [stride_even hd]
    exact wide_pixels_apart hcol hX' hplace

end Sys2Proof.Machine
end

section
/-! PROOF. The host's accesses: which are answered, what a write does, what a read shows (R70, R75 to R80, R350). -/

namespace Sys2Proof.Machine

variable {s : State} {size off : Nat} {v : Word} {rest : List Input}

/-! ### The form of an access -/

theorem hostAccess_outside (size : Nat) (s : State) (h : 0x100 ≤ off) :
    hostAccess size off s = .fault .hostOffsetOutsideWindow := if_pos h

theorem hostAccess_misformed (s : State) (h : off < 0x100) (hform : size ≠ 4 ∨ off % 4 ≠ 0) :
    hostAccess size off s = .refused .hostAccessForm := by
  rw [hostAccess, if_neg (by omega), if_pos hform]

/-- Settles O57: a read and a write are both checked by `hostAccess`, whose three answers exclude each other. -/
theorem hostAccessForm : Obligations.HostAccessForm := by
  intro s size off v inp rest hn hinp
  obtain ⟨u, hstep⟩ : ∃ u, step s = hostAccess size off u := by
    rcases hinp with rfl | rfl <;> exact ⟨_, step_input hn⟩
  rw [hstep]
  refine ⟨hostAccess_outside size u, hostAccess_misformed u, fun hoff hsize hal => ⟨u, ?_⟩⟩
  rw [hsize]
  exact hostAccess_ok u hoff hal

/-! ### Writes -/

/-- A word written to `CMD` of an engine that is not halted joins a FIFO that has room (R49). -/
theorem pushWord_room (hm : s.mode ≠ .halted) (h : s.fifo.length < s.params.fifoDepth) :
    s.pushWord v = { s with fifo := s.fifo ++ [v] } := by
  rcases pushWord_cases s v with ⟨hh, -⟩ | ⟨-, -, e⟩ | ⟨-, hfull, -⟩
  · exact absurd hh hm
  · exact e
  · omega

/-- A word written to `CMD` of an engine that is not halted waits at the host interface while the FIFO is full
(R49). -/
theorem pushWord_full (hm : s.mode ≠ .halted) (h : s.params.fifoDepth ≤ s.fifo.length) :
    s.pushWord v = { s with held := some v } := by
  rcases pushWord_cases s v with ⟨hh, -⟩ | ⟨-, hroom, -⟩ | ⟨-, -, e⟩
  · exact absurd hh hm
  · omega
  · exact e

/-- A sticky bit stays set exactly when the write to `STATUS` has a 0 in its place (R45). -/
theorem clearSticky_getLsbD (s : State) (v : Word) {j : Nat} (hj : j < 5) :
    (s.clearSticky v).sticky.getLsbD j = (s.sticky.getLsbD j && !v.getLsbD (8 + j)) := by
  simp [State.clearSticky, hj]

/-- Settles O56: a write in the window is answered by `hostWrite`, which has one case for each writable offset. -/
theorem hostWrites : Obligations.HostWrites := by
  intro s v off rest hn
  have hstep := step_hostWrite hn
  refine ⟨?_, ?_, ?_, fun hoff hal h0 h1 h2 h3 => ?_⟩
  · rintro rfl hm
    rw [hstep (by decide) (by decide), hostWrite_cmd]
    exact ⟨fun hroom => congrArg _ (pushWord_room hm hroom), fun hfull => congrArg _ (pushWord_full hm hfull)⟩
  · rintro rfl
    exact ⟨_, hstep (by decide) (by decide), fun j hj => clearSticky_getLsbD _ v hj, rfl⟩
  · rintro rfl
    exact hstep (by decide) (by decide)
  · rw [hstep hoff hal, hostWrite_other _ v h0 h1 h2 h3]

/-! ### Reads -/

/-- The offsets of the Surface and font registers, as R350 lists them. -/
theorem isConfigOffset_iff : isConfigOffset off = true ↔ off = 0x14 ∨ off = 0x18 ∨ off = 0x1C ∨ off = 0x20 ∨
    off = 0x24 ∨ off = 0x28 ∨ (0x40 ≤ off ∧ off < 0xC0) := by
  simp [isConfigOffset, or_assoc]

/-- A read does not depend on what is still to come from outside. -/
theorem hostReadValue_inputs (s : State) (r : List Input) (off : Nat) :
    ({ s with inputs := r } : State).hostReadValue off = s.hostReadValue off := by
  rw [State.hostReadValue, atStreamPoint_inputs]
  rfl

/-- The offsets with no readable register read as 0, busy or not (R75). -/
theorem hostReadValue_zero (s : State)
    (h : off = 0x00 ∨ off = 0x08 ∨ off = 0x34 ∨ off = 0x38 ∨ off = 0x3C ∨ 0xC0 ≤ off) : s.hostReadValue off = 0 := by
  have hplain : isConfigOffset off = false := by
    rw [← Bool.not_eq_true, isConfigOffset_iff]
    omega
  rw [hostReadValue_plain (by omega) hplain, register_zero s h]

/-- `FB_DATA` shows the byte that `FB_INDEX` selects (R76). -/
theorem fbData_inside (h : s.fbIndex.toNat < s.fbLen) : s.fbData.toNat = (s.readFb s.fbIndex.toNat).toNat := by
  rw [State.fbData, if_pos h, BitVec.toNat_setWidth, Nat.mod_eq_of_lt (by omega)]

/-- `FB_DATA` shows 0 where `FB_INDEX` is beyond the buffer (R76). -/
theorem fbData_outside (h : s.fbLen ≤ s.fbIndex.toNat) : s.fbData = 0 := if_neg (by omega)

/-- `FONTCAPS` shows the number of slots, which its five bits can hold (R8, R75). -/
theorem register_fontCaps (h : s.params.fontSlots ≤ 16) : (s.register 0x30).toNat = s.params.fontSlots := by
  obtain ⟨-, -, -, -, -, -, -, -, -, -, hcaps⟩ := register_cases s
  rw [hcaps, BitVec.toNat_setWidth, BitVec.toNat_ofNat, Nat.mod_eq_of_lt (by omega), Nat.mod_eq_of_lt (by omega)]

/-- While the block is busy, a Surface or font register shows the state at a point of the command stream (R350). -/
theorem hostReadValue_busy (hb : s.busy = true) (hc : isConfigOffset off = true) :
    s.hostReadValue off = (s.atStreamPoint (Config.streamPoint s.freeCtr)).register off := by
  have hne : off ≠ 0x10 := by
    rintro rfl
    cases hc
  rw [State.hostReadValue, if_pos hb, if_neg hne, if_pos hc]

/-- What a Surface or font register shows at a point of the stream is what it shows once the commands before it have
run. -/
theorem showsConfig_atStreamPoint (hf : s.fonts.length = s.params.fontSlots) (k off : Nat) :
    ∃ u, AfterCommands k (s.current ++ s.stream) s u ∧ u.ShowsConfig off ((s.atStreamPoint k).register off) := by
  obtain ⟨u, hafter, hsurface, hfonts, hparams⟩ :=
    afterCommands_stream k _ _ s s le_rfl (sameButDrawing_refl s).1 ⟨rfl, rfl⟩ rfl
  exact ⟨u, hafter, showsConfig_congr hsurface hfonts hparams (showsConfig_register _ off (atStreamPoint_slots s k hf))⟩

/-- Settles O58: a read answers `hostReadValue` of the state it finds, which shows the register as it stands, or at a
point of the command stream while the block is busy. -/
theorem hostReads : Obligations.HostReads := by
  intro s off rest hn hoff hal hslots hmax
  have hvalue := hostReadValue_inputs s rest off
  have hplain : ∀ {o : Nat}, off = o → o ≠ 0x10 → isConfigOffset o = false → s.hostReadValue off = s.register o := by
    rintro _ rfl
    exact hostReadValue_plain
  refine ⟨_, step_hostRead hn hoff hal, rfl, ?_⟩
  dsimp only [State.hostRead]
  rw [hvalue]
  refine ⟨fun h => ?_, fun h => ?_, fun h => ?_, fun h => ?_, fun h => ?_, fun h => ?_, fun hidle => ?_, fun hb hc => ?_⟩
  · exact hostReadValue_zero s (by omega)
  · exact hplain h (by decide) (by decide)
  · exact hplain h (by decide) (by decide)
  · exact hplain h (by decide) (by decide)
  · rw [hplain h (by decide) (by decide)]
    exact register_fontCaps hmax
  · exact hostReadValue_zero s (by omega)
  · rw [hostReadValue_idle hidle]
    refine ⟨?_, showsConfig_register s off hslots⟩
    rintro rfl
    exact ⟨fbData_inside, fbData_outside⟩
  · rw [hostReadValue_busy hb (isConfigOffset_iff.2 hc)]
    exact showsConfig_atStreamPoint hslots _ off

end Sys2Proof.Machine
end

section
/-! PROOF. Encoding and decoding agree: the round trip, the words a command takes, and the header that selects a row
(R100 to R117). -/

namespace Sys2Proof.Machine

/-! ### The round trip -/

/-- The encoding of every command opens with a legal header of its row and has the number of words of its row. -/
theorem header_statement (i : Instr) : Laws.Header.Statement i := by
  cases i with
  | nop => exact Laws.Header.nop
  | surfInit => exact Laws.Header.surfInit ..
  | setRotation => exact Laws.Header.setRotation ..
  | setMirror => exact Laws.Header.setMirror ..
  | setDepth => exact Laws.Header.setDepth ..
  | setFont => exact Laws.Header.setFont ..
  | clear => exact Laws.Header.clear ..
  | setPixel => exact Laws.Header.setPixel ..
  | drawPoint => exact Laws.Header.drawPoint ..
  | drawLine => exact Laws.Header.drawLine ..
  | drawRect => exact Laws.Header.drawRect ..
  | drawCircle => exact Laws.Header.drawCircle ..
  | drawChar => exact Laws.Header.drawChar ..
  | drawString => exact Laws.Header.drawString ..
  | drawNumber => exact Laws.Header.drawNumber ..
  | pushFrame => exact Laws.Header.pushFrame

/-- With the row known, each field of the header and of the operand words reads back. Two operands are not fields of
one word: the characters of a string (`payload_payloadWords`) and the number of DRAW_NUMBER (`value_halves`). -/
theorem decodeOperands_encode {i : Instr} {h : Word} {ws : List Word} (he : encode i = h :: ws)
    (hwf : i.wellFormed = true) (rest : List Word) : decodeOperands i.op h (ws ++ rest) = .command i rest := by
  cases i with
  | drawString slot fg x y bg16 chars =>
    cases he
    simp [Instr.op, decodeOperands, payload_payloadWords chars hwf]
  | drawNumber slot fg x y digits bg16 value =>
    cases he
    simp [Instr.op, decodeOperands, value_halves]
  | _ =>
    cases he
    simp [Instr.op, decodeOperands]

theorem decode_encode {i : Instr} (hwf : i.wellFormed = true) (rest : List Word) :
    decode (encode i ++ rest) = .command i rest := by
  obtain ⟨h, ws, he, hop, -⟩ := header_statement i
  rw [he, List.cons_append, decode_cons hop]
  exact decodeOperands_encode he hwf rest

theorem length_encode (i : Instr) : (encode i).length = wordCount i := by
  obtain ⟨h, ws, he, -, hlen⟩ := header_statement i
  rw [he, List.length_cons, hlen]

/-- Settles O1: the header selects the command's row, and the row's operands read back. -/
theorem encodeDecodeRoundTrip : Obligations.EncodeDecodeRoundTrip :=
  fun i rest hwf => ⟨decode_encode hwf rest, length_encode i⟩

/-! ### The words a command takes -/

/-- A command is read from a legal header and the operands of its row. -/
theorem decode_eq_command {ws rest : List Word} {i : Instr} (h : decode ws = .command i rest) :
    ∃ w ops op, ws = w :: ops ∧ headerOp w = .ok op ∧ decodeOperands op w ops = .command i rest := by
  cases ws with
  | nil => cases h
  | cons w ops =>
    cases hw : headerOp w with
    | error e => simp only [decode, hw, reduceCtorEq] at h
    | ok op => exact ⟨w, ops, op, rfl, hw, by rwa [decode_cons hw] at h⟩

/-- Settles O2: the header is one word more than the operands, of which `decodeOperands_spec` says the rest. -/
theorem decodeReadsWholeCommand : Obligations.DecodeReadsWholeCommand := by
  intro ws rest i h
  obtain ⟨w, ops, op, rfl, hw, hops⟩ := decode_eq_command h
  obtain ⟨hwf, used, rfl, hlen, hread, hshort⟩ := decodeOperands_spec hops
  refine ⟨hwf, w :: used, rfl, hlen, fun rest' => ?_, fun k hk => ?_⟩
  · rw [List.cons_append, decode_cons hw, hread]
  · cases k with
    | zero => rfl
    | succ k =>
      rw [List.take_succ_cons, decode_cons hw]
      exact hshort k (Nat.lt_of_succ_lt_succ hk)

/-! ### Headers and the masks of R107 -/

/-- The opcode field is the low byte of the header. -/
theorem and_low_mask (h : Word) : h &&& 0xFF = (opField h).setWidth 32 := by
  apply BitVec.eq_of_getLsbD_eq
  intro i hi
  have hmask : (0xFF : Word).getLsbD i = decide (i < 8) := low_mask_bit hi
  rw [BitVec.getLsbD_and, BitVec.getLsbD_setWidth, hmask]
  by_cases hlow : i < 8
  · rw [opField_bit h hlow]
    simp only [hlow, hi, decide_true, Bool.and_true, Bool.true_and]
  · rw [BitVec.getLsbD_of_ge (opField h) i (by omega)]
    simp only [hlow, decide_false, Bool.and_false]

theorem rowMatch_eq (op : Op) : rowMatch op = op.code.setWidth 32 := by cases op <;> rfl

theorem reservedMask_eq (op : Op) : op.reservedMask = rowMask op &&& 0xFFFFFF00 := by cases op <;> rfl

/-- The mask of a row is its reserved bits and the opcode field. -/
theorem rowMask_eq (op : Op) : rowMask op = op.reservedMask ||| 0xFF := by cases op <;> rfl

theorem rowMask_and_low (op : Op) : rowMask op &&& 0xFF = 0xFF := by cases op <;> rfl

theorem rowMask_and_reserved (op : Op) : rowMask op &&& op.reservedMask = op.reservedMask := by cases op <;> rfl

theorem rowMatch_and_low (op : Op) : rowMatch op &&& 0xFF = rowMatch op := by cases op <;> rfl

theorem rowMatch_and_reserved (op : Op) : rowMatch op &&& op.reservedMask = 0 := by cases op <;> rfl

/-- A header has the opcode of a row exactly when its low byte is the row's match. -/
theorem rowMatch_eq_low_iff {h : Word} {op : Op} : rowMatch op = h &&& 0xFF ↔ op.code = opField h := by
  rw [rowMatch_eq, and_low_mask]
  exact ⟨fun e => by simpa using congrArg (BitVec.setWidth 8) e, congrArg _⟩

theorem headerOp_eq_ok_iff_low {h : Word} {op : Op} :
    headerOp h = .ok op ↔ rowMatch op = h &&& 0xFF ∧ h &&& op.reservedMask = 0 := by
  rw [headerOp_eq_ok_iff, rowMatch_eq_low_iff]

/-- The masked header is compared in two parts that share no bit: the opcode field and the reserved bits. -/
theorem and_rowMask_eq_iff {h : Word} {op : Op} :
    h &&& rowMask op = rowMatch op ↔ rowMatch op = h &&& 0xFF ∧ h &&& op.reservedMask = 0 := by
  constructor
  · intro e
    constructor
    · rw [← rowMatch_and_low, ← e, BitVec.and_assoc, rowMask_and_low]
    · rw [← rowMatch_and_reserved op, ← e, BitVec.and_assoc, rowMask_and_reserved]
  · rintro ⟨hcode, hres⟩
    rw [rowMask_eq, BitVec.and_or_distrib_left, hres, hcode]
    exact BitVec.zero_or

theorem headerOp_eq_ok_iff_mask {h : Word} {op : Op} : headerOp h = .ok op ↔ h &&& rowMask op = rowMatch op := by
  rw [headerOp_eq_ok_iff_low, and_rowMask_eq_iff]

/-- Settles O3: `headerOp` gives one row, the one whose masked bits match. -/
theorem headerSelectsRowByMask : Obligations.HeaderSelectsRowByMask := by
  refine fun h op => ⟨headerOp_eq_ok_iff_mask, fun op' hm hm' => ?_, reservedMask_eq op⟩
  rw [← headerOp_eq_ok_iff_mask] at hm hm'
  rw [hm'] at hm
  exact Except.ok.inj hm

/-! ### Illegal headers -/

theorem rowMatch_inj {a b : Op} (h : rowMatch a = rowMatch b) : a = b := by
  rw [rowMatch_eq, rowMatch_eq] at h
  exact code_inj (by simpa using congrArg (BitVec.setWidth 8) h)

/-- A header is illegal exactly when no row accepts it. -/
theorem exists_decode_illegal_iff (h : Word) (ws : List Word) :
    (∃ e, decode (h :: ws) = .illegal e) ↔ ∀ op, headerOp h ≠ .ok op := by
  simp only [decode_illegal_iff]
  cases headerOp h <;> simp

/-- Settles O4: no row accepts a header when none has its opcode, or when the one that has it reserves a bit that is
set. -/
theorem illegalHeaders : Obligations.IllegalHeaders := by
  intro h ws
  simp only [exists_decode_illegal_iff, Ne, headerOp_eq_ok_iff_low]
  constructor
  · intro hnone
    by_cases hrow : ∃ op : Op, rowMatch op = h &&& 0xFF
    · obtain ⟨op, hop⟩ := hrow
      exact .inr ⟨op, hop, fun hres => hnone op ⟨hop, hres⟩⟩
    · exact .inl fun op hop => hrow ⟨op, hop⟩
  · rintro (hno | ⟨op, hop, hset⟩) op' ⟨hop', hres⟩
    · exact hno op' hop'
    · obtain rfl : op = op' := rowMatch_inj (hop.trans hop'.symm)
      exact hset hres

/-! ### Samples -/

/-- Settles O5: the decoder is run on each list of words. -/
theorem sampleWordsDecode : Obligations.SampleWordsDecode := by
  unfold Obligations.SampleWordsDecode
  decide

end Sys2Proof.Machine
end

section
/-! PROOF. The configuration commands: each is rejected and changes only `STATUS`, or ends OK with its own registers
written (R140 to R150). -/

namespace Sys2Proof.Machine

variable {s s' : State} {i : Instr}

/-! ### What the accepted commands have in common -/

/-- Configuring writes registers and the framebuffer only: nothing outside the block, no token, no sticky bit. -/
theorem configures_frame (h : Configures s i s') :
    s.SameOutside s' ∧ s.SameTransport s' ∧ s'.sticky = s.sticky := by
  have hkept : ∀ {u : State}, s' = u → s.SameOutside u ∧ s.SameTransport u ∧ u.sticky = s.sticky →
      s.SameOutside s' ∧ s.SameTransport s' ∧ s'.sticky = s.sticky := fun e hu => e ▸ hu
  cases i with
  | nop | surfInit | setFont => exact hkept h ⟨⟨rfl, rfl, rfl, rfl, rfl, rfl⟩, ⟨rfl, rfl⟩, rfl⟩
  | setRotation | setMirror | setDepth => exact hkept h.2 ⟨⟨rfl, rfl, rfl, rfl, rfl, rfl⟩, ⟨rfl, rfl⟩, rfl⟩
  | _ => exact h.elim

/-- A configuration command that is not rejected ends OK in the state it configures, and changes nothing but that
state's registers and framebuffer (R300, R343). -/
theorem config_accepted (hi : IsConfig i) (h : ¬ ConfigRejects s i) :
    ∃ s', Configures s i s' ∧ exec i s = .next (s'.begin.complete .ok) ∧ s.SameOutside (s'.begin.complete .ok) ∧
      s.SameTransport (s'.begin.complete .ok) ∧ s.Ended (s'.begin.complete .ok) .ok := by
  obtain ⟨s', hc, hexec⟩ := config_ok hi h
  obtain ⟨hout, htransport, hsticky⟩ := configures_frame hc
  refine ⟨s', hc, hexec, hout, htransport, ?_⟩
  simp [State.Ended, hsticky]

/-! ### The values the accepted operands give -/

/-- The extents under a recognized rotation (R37). -/
theorem extents_of_recognized (h : rotOf s.rot ≠ none) :
    s.width = (if s.rot = 0 ∨ s.rot = 180 then s.wm.toNat else s.hm.toNat) ∧
      s.height = (if s.rot = 0 ∨ s.rot = 180 then s.hm.toNat else s.wm.toNat) := by
  have hrot : s.rot = 0 ∨ s.rot = 90 ∨ s.rot = 180 ∨ s.rot = 270 := by
    rw [Ne, rotOf_eq_none_iff] at h
    tauto
  rcases hrot with h | h | h | h <;> simp [State.width, State.height, rotOf, h]

/-- A mirror code fits the register's two bits (R35, R146). -/
theorem mirrorCode_toNat {m : Byte} (h : m.toNat ≤ 3) : (m.setWidth 2).toNat = m.toNat := by
  rw [BitVec.toNat_setWidth, Nat.mod_eq_of_lt (by omega)]

/-- A recognized depth fits the register's five bits (R36, R148). -/
theorem depthCode_toNat {d : Byte} (h : depthOf d.toNat ≠ none) : (d.setWidth 5).toNat = d.toNat := by
  have hd : d = 1 ∨ d = 2 ∨ d = 4 ∨ d = 16 := by
    rw [Ne, depthOf_eq_none_iff] at h
    tauto
  rcases hd with rfl | rfl | rfl | rfl <;> rfl

/-- Loading a slot of the font table leaves the other slots (R43). -/
theorem getD_set_fonts (fonts : List Font) {n : Nat} (hn : n < fonts.length) (f : Font) :
    (fonts.set n f).getD n Font.unloaded = f ∧
      ∀ k, k ≠ n → (fonts.set n f).getD k Font.unloaded = fonts.getD k Font.unloaded := by
  refine ⟨by simp [List.getD, hn], fun k hk => ?_⟩
  simp [List.getD, List.getElem?_set_ne hk.symm]

/-! ### The commands -/

/-- Settles O18: the configured state has every Surface register as given and a framebuffer of free values. -/
theorem surfInitCreatesSurface : Obligations.SurfInitCreatesSurface := by
  intro s bg wm hm rot
  have hi : IsConfig (.surfInit bg wm hm rot) := by simp [IsConfig, Instr.op]
  refine ⟨config_reject hi, fun h => ?_⟩
  obtain ⟨_, rfl, hexec, hout, htransport, hended⟩ := config_accepted hi h
  exact ⟨_, hexec, rfl, rfl, rfl, rfl, rfl, rfl, rfl, rfl, fun _ => rfl, ⟨rfl, rfl⟩, hout, htransport, hended⟩

/-- Settles O19: only `ROT` differs in the configured state, and the rotation accepted is a recognized one. -/
theorem setRotationWritesRot : Obligations.SetRotationWritesRot := by
  intro s rot
  have hi : IsConfig (.setRotation rot) := by simp [IsConfig, Instr.op]
  refine ⟨config_reject hi, fun h => ?_⟩
  obtain ⟨_, ⟨-, rfl⟩, hexec, hout, htransport, hended⟩ := config_accepted hi h
  obtain ⟨-, hrot⟩ := not_or.1 h
  rw [← rotOf_eq_none_iff] at hrot
  obtain ⟨hwidth, hheight⟩ := extents_of_recognized (s := { s with rot := rot }) hrot
  exact ⟨_, hexec, rfl, rfl, rfl, rfl, rfl, rfl, rfl, hwidth, hheight, fun _ => rfl, ⟨rfl, rfl⟩, hout, htransport,
    hended⟩

/-- Settles O20: only `MIRROR` differs in the configured state, and the code accepted fits it. -/
theorem setMirrorWritesMirror : Obligations.SetMirrorWritesMirror := by
  intro s mcode
  have hi : IsConfig (.setMirror mcode) := by simp [IsConfig, Instr.op]
  refine ⟨config_reject hi, fun h => ?_⟩
  obtain ⟨_, ⟨-, rfl⟩, hexec, hout, htransport, hended⟩ := config_accepted hi h
  obtain ⟨-, hcode⟩ := not_or.1 h
  exact ⟨_, hexec, mirrorCode_toNat (not_lt.1 hcode), rfl, rfl, rfl, rfl, rfl, rfl, fun _ => rfl, ⟨rfl, rfl⟩, hout,
    htransport, hended⟩

/-- Settles O21: the depth accepted is a recognized one, so the register holds it whole, and `STRIDE` and `FB_LEN`
are made from it. -/
theorem setDepthReallocates : Obligations.SetDepthReallocates := by
  intro s dcode
  have hi : IsConfig (.setDepth dcode) := by simp [IsConfig, Instr.op]
  refine ⟨config_reject hi, fun h => ?_⟩
  obtain ⟨t, ⟨-, ht⟩, hexec, hout, htransport, hended⟩ := config_accepted hi h
  obtain ⟨-, hcode⟩ := not_or.1 h
  obtain ⟨hcode, -⟩ := not_or.1 hcode
  rw [← depthOf_eq_none_iff] at hcode
  have hdepth : t.depth.toNat = dcode.toNat := by rw [ht]; exact depthCode_toNat hcode
  have hstride : t.stride = (s.wm.toNat * dcode.toNat + 7) / 8 := by
    rw [State.stride, strideOf, hdepth, ceilDiv_eight, ht]
    rfl
  have hlen : t.fbLen = (s.wm.toNat * dcode.toNat + 7) / 8 * s.hm.toNat := by
    rw [State.fbLen, hstride, ht]
    rfl
  subst ht
  exact ⟨_, hexec, hdepth, rfl, rfl, rfl, rfl, rfl, rfl, hstride, hlen, rfl, fun _ => rfl, ⟨rfl, rfl⟩, hout,
    htransport, hended⟩

/-- Settles O22: the slot accepted lies in the font table, so the descriptor written there reads back. -/
theorem setFontLoadsSlot : Obligations.SetFontLoadsSlot := by
  intro s slot gw gh base hslots
  have hi : IsConfig (.setFont slot gw gh base) := by simp [IsConfig, Instr.op]
  refine ⟨config_reject hi, fun h => ?_⟩
  obtain ⟨_, rfl, hexec, hout, htransport, hended⟩ := config_accepted hi h
  obtain ⟨hslot, -⟩ := not_or.1 h
  rw [ge_iff_le, not_le, ← hslots] at hslot
  obtain ⟨hloaded, hothers⟩ := getD_set_fonts s.fonts hslot { base := base, w := gw, h := gh }
  exact ⟨_, hexec, hloaded, hothers, List.length_set, rfl, ⟨rfl, rfl, rfl, rfl, rfl, rfl, rfl⟩, fun _ => rfl, hout,
    htransport, hended⟩

/-- Settles O23: an accepted command ends OK, so one that does not is a rejected one. -/
theorem rejectedConfigurationChangesNothing : Obligations.RejectedConfigurationChangesNothing := by
  intro i s t hi hexec hne
  by_cases h : ConfigRejects s i
  · obtain ⟨u, hrejected, hstatus⟩ := config_reject (.inr hi) h
    obtain rfl : u = t := Host.Outcome.next.inj (hrejected.symm.trans hexec)
    have hresult : u.result = .unsupported := by
      obtain ⟨-, -, -, -, -, hresult, -⟩ := hstatus
      exact hresult
    exact ⟨hresult ▸ hstatus, hresult⟩
  · obtain ⟨s', -, haccepted, -, -, hended⟩ := config_accepted (.inr hi) h
    obtain rfl : s'.begin.complete .ok = t := Host.Outcome.next.inj (haccepted.symm.trans hexec)
    exact absurd hended.1 hne

/-- Settles O17: no rule rejects NOP, and the state it configures is the one it began in. -/
theorem nopOnlyReports : Obligations.NopOnlyReports := by
  intro s
  obtain ⟨_, rfl, hexec, hout, htransport, hended⟩ := config_accepted (s := s) (i := .nop) (.inl rfl) id
  exact ⟨_, hexec, ⟨rfl, rfl, rfl, rfl, rfl, rfl, rfl⟩, ⟨rfl, rfl⟩, fun _ => rfl, hout, htransport, hended⟩

end Sys2Proof.Machine
end

section
/-! PROOF. The transform: the rotation table, then the mirror table, a bijection of the two rectangles (R170 to R175). -/

namespace Sys2Proof.Machine

variable {s : State} {r : Rotation}

/-- A place of the physical rectangle (R175). -/
def OnSurface (wm hm : Int) (p : Int × Int) : Prop := 0 ≤ p.1 ∧ p.1 < wm ∧ 0 ≤ p.2 ∧ p.2 < hm

theorem transform_of_rotOf (hr : rotOf s.rot = some r) (x y : Int) : transform s.rot s.mirror s.wm s.hm x y =
    some (mirrorStep (mirrorOf s.mirror) s.wm.toNat s.hm.toNat (rotateStep r s.wm.toNat s.hm.toNat x y)) := by
  simp only [transform, hr]

theorem transform_of_unrecognized (hr : rotOf s.rot = none) (x y : Int) :
    transform s.rot s.mirror s.wm s.hm x y = none := by
  simp only [transform, hr]

theorem exists_rotOf (h : s.rot = 0 ∨ s.rot = 90 ∨ s.rot = 180 ∨ s.rot = 270) : ∃ r, rotOf s.rot = some r := by
  rcases h with h | h | h | h <;> exact ⟨_, by rw [h]; rfl⟩

/-- The rows of the rotation table (R171). -/
theorem rotateStep_row {x y X Y : Int}
    (h : (s.rot = 0 ∧ X = x ∧ Y = y) ∨ (s.rot = 90 ∧ X = s.wm.toNat - y - 1 ∧ Y = x) ∨
      (s.rot = 180 ∧ X = s.wm.toNat - x - 1 ∧ Y = s.hm.toNat - y - 1) ∨
      (s.rot = 270 ∧ X = y ∧ Y = s.hm.toNat - x - 1)) :
    ∃ r, rotOf s.rot = some r ∧ rotateStep r s.wm.toNat s.hm.toNat x y = (X, Y) := by
  rcases h with ⟨hr, rfl, rfl⟩ | ⟨hr, rfl, rfl⟩ | ⟨hr, rfl, rfl⟩ | ⟨hr, rfl, rfl⟩ <;>
    exact ⟨_, by rw [hr]; rfl, rfl⟩

/-! ### Each step is a bijection -/

/-- Counting a coordinate from the other end undoes itself. -/
theorem flip_flip (n a : Int) : n - (n - a - 1) - 1 = a := by omega

/-- A mirror undoes itself (R172). -/
theorem mirrorStep_mirrorStep (m : Mirror) (wm hm : Int) (p : Int × Int) :
    mirrorStep m wm hm (mirrorStep m wm hm p) = p := by
  cases m <;> simp only [mirrorStep, flip_flip]

theorem mirrorStep_injective (m : Mirror) (wm hm : Int) : Function.Injective (mirrorStep m wm hm) :=
  Function.Involutive.injective (mirrorStep_mirrorStep m wm hm)

theorem onSurface_mirrorStep (m : Mirror) {wm hm : Int} {p : Int × Int} (h : OnSurface wm hm p) :
    OnSurface wm hm (mirrorStep m wm hm p) := by
  obtain ⟨h1, h2, h3, h4⟩ := h
  cases m <;> simp only [OnSurface, mirrorStep] <;> omega

theorem rotateStep_injective {wm hm x y x' y' : Int} (h : rotateStep r wm hm x y = rotateStep r wm hm x' y') :
    x = x' ∧ y = y' := by
  cases r <;> simp only [rotateStep, Prod.mk.injEq] at h <;> omega

theorem exists_rotateStep_eq (r : Rotation) (wm hm : Int) (p : Int × Int) : ∃ x y, rotateStep r wm hm x y = p := by
  cases r with
  | deg0 => exact ⟨p.1, p.2, rfl⟩
  | deg90 => exact ⟨p.2, wm - p.1 - 1, by simp only [rotateStep, flip_flip]⟩
  | deg180 => exact ⟨wm - p.1 - 1, hm - p.2 - 1, by simp only [rotateStep, flip_flip]⟩
  | deg270 => exact ⟨hm - p.2 - 1, p.1, by simp only [rotateStep, flip_flip]⟩

/-- The rotation takes the logical rectangle of R37 into the physical one. -/
theorem onSurface_rotateStep (hr : rotOf s.rot = some r) {x y : Int} (h1 : 0 ≤ x) (h2 : x < s.width) (h3 : 0 ≤ y)
    (h4 : y < s.height) : OnSurface s.wm.toNat s.hm.toNat (rotateStep r s.wm.toNat s.hm.toNat x y) := by
  unfold State.width at h2
  unfold State.height at h4
  cases r <;> simp only [hr] at h2 h4 <;> simp only [OnSurface, rotateStep] <;> omega

/-! ### The transform is one -/

/-- A point of the logical rectangle has a place in the physical one (R175). -/
theorem physical_of_logical (hr : rotOf s.rot = some r) {x y : Int} (h1 : 0 ≤ x) (h2 : x < s.width) (h3 : 0 ≤ y)
    (h4 : y < s.height) : ∃ X Y : Int, transform s.rot s.mirror s.wm s.hm x y = some (X, Y) ∧
      0 ≤ X ∧ X < s.wm.toNat ∧ 0 ≤ Y ∧ Y < s.hm.toNat :=
  ⟨_, _, transform_of_rotOf hr x y, onSurface_mirrorStep _ (onSurface_rotateStep hr h1 h2 h3 h4)⟩

theorem transform_injective (hr : rotOf s.rot = some r) {x y x' y' : Int}
    (h : transform s.rot s.mirror s.wm s.hm x y = transform s.rot s.mirror s.wm s.hm x' y') : x = x' ∧ y = y' := by
  rw [transform_of_rotOf hr, transform_of_rotOf hr] at h
  exact rotateStep_injective (mirrorStep_injective _ _ _ (Option.some.inj h))

theorem exists_transform_eq (hr : rotOf s.rot = some r) (X Y : Int) :
    ∃ x y, transform s.rot s.mirror s.wm s.hm x y = some (X, Y) := by
  obtain ⟨x, y, h⟩ := exists_rotateStep_eq r s.wm.toNat s.hm.toNat
    (mirrorStep (mirrorOf s.mirror) s.wm.toNat s.hm.toNat (X, Y))
  exact ⟨x, y, by rw [transform_of_rotOf hr, h, mirrorStep_mirrorStep]⟩

/-- Settles O25: both steps are bijections, and they take the one rectangle into the other. -/
theorem transformIsBijection : Obligations.TransformIsBijection := by
  refine ⟨fun s x y X Y h => ?_, fun s x y h0 h90 h180 h270 => ?_, fun s h => ?_⟩
  · obtain ⟨r, hr, hrow⟩ := rotateStep_row h
    rw [transform_of_rotOf hr, hrow]
    refine ⟨fun hm => ?_, fun hm => ?_, fun hm => ?_, fun hm => ?_⟩ <;> rw [hm] <;> rfl
  · exact transform_of_unrecognized (rotOf_eq_none_iff.2 ⟨h0, h90, h180, h270⟩) x y
  · obtain ⟨r, hr⟩ := exists_rotOf h
    refine ⟨fun x y h1 h2 h3 h4 => physical_of_logical hr h1 h2 h3 h4, fun x y x' y' => transform_injective hr,
      fun X Y h1 h2 h3 h4 => ?_⟩
    obtain ⟨x, y, ht⟩ := exists_transform_eq hr X Y
    obtain ⟨hx, hx', hy, hy'⟩ := logical_of_physical ht h1 h2 h3 h4
    exact ⟨x, y, hx, hx', hy, hy', ht⟩

end Sys2Proof.Machine
end

section
/-! PROOF. The pixel write: its checks, the byte and the bits it sets, the memory guard and the lenient boundary
(R177 to R189). -/

namespace Sys2Proof.Machine

variable {s : State} {d : Depth} {x y X Y : Int}

/-! ### What the place of a pixel decides -/

theorem writePixel_of_place {i k : Nat} (h : s.pixelTarget x y = .place d i k) (c : Half) :
    s.writePixel x y c = s.pack d i k c := by
  simp only [State.writePixel, h]

theorem writePixel_of_dropped (h : s.pixelTarget x y = .dropped) (c : Half) :
    s.writePixel x y c = { s with dropped := true } := by
  simp only [State.writePixel, h]

theorem pixelOutcome_of_place {i k : Nat} (h : s.pixelTarget x y = .place d i k) : s.pixelOutcome x y = .written := by
  simp only [State.pixelOutcome, h]

/-- The logical check (R177, R181). -/
theorem pixelTarget_outside_logical (h : x < 0 ∨ y < 0 ∨ x > s.width ∨ y > s.height) : s.pixelTarget x y = .dropped := by
  by_cases hneg : x < 0 ∨ y < 0
  · rw [State.pixelTarget, if_pos hneg]
  · rw [State.pixelTarget, if_neg hneg, if_pos (by omega)]

/-- The physical check (R178). -/
theorem pixelTarget_outside_physical (h1 : 0 ≤ x) (h2 : x ≤ s.width) (h3 : 0 ≤ y) (h4 : y ≤ s.height)
    (ht : transform s.rot s.mirror s.wm s.hm x y = some (X, Y))
    (h : X < 0 ∨ Y < 0 ∨ X > s.wm.toNat ∨ Y > s.hm.toNat) : s.pixelTarget x y = .dropped := by
  rw [State.pixelTarget, if_neg (by omega), if_neg (by omega)]
  simp only [ht]
  rw [if_pos h]

section Checked

variable (hd : depthOf s.depth.toNat = some d) (h1 : 0 ≤ x) (h2 : x ≤ s.width) (h3 : 0 ≤ y) (h4 : y ≤ s.height)
  (ht : transform s.rot s.mirror s.wm s.hm x y = some (X, Y)) (h5 : 0 ≤ X) (h6 : X ≤ s.wm.toNat) (h7 : 0 ≤ Y)
  (h8 : Y ≤ s.hm.toNat)

include hd h1 h2 h3 h4 ht h5 h6 h7 h8

/-- The memory guard lets a pixel pass whose bytes lie wholly below `FB_LEN` (R182). -/
theorem pixelTarget_of_fits
    (h : (byteIndex d s.stride X.toNat Y.toNat).1 + (byteIndex d s.stride X.toNat Y.toNat).2 ≤ s.fbLen) :
    s.pixelTarget x y = .place d (byteIndex d s.stride X.toNat Y.toNat).1 X.toNat := by
  rw [pixelTarget_of_checks hd h1 h2 h3 h4 ht h5 h6 h7 h8, if_neg (not_lt.2 h)]

/-- The memory guard drops every other pixel (R182). -/
theorem pixelTarget_of_not_fits
    (h : (byteIndex d s.stride X.toNat Y.toNat).1 + (byteIndex d s.stride X.toNat Y.toNat).2 > s.fbLen) :
    s.pixelTarget x y = .dropped := by
  rw [pixelTarget_of_checks hd h1 h2 h3 h4 ht h5 h6 h7 h8, if_pos h]

/-- Where a write goes that passes the bounds checks, and what it leaves (R182, R183). -/
theorem writePixel_checked (c : Half) :
    (X < s.wm.toNat → Y < s.hm.toNat →
      (byteIndex d s.stride X.toNat Y.toNat).1 + (byteIndex d s.stride X.toNat Y.toNat).2 ≤ s.fbLen) ∧
    ((byteIndex d s.stride X.toNat Y.toNat).1 + (byteIndex d s.stride X.toNat Y.toNat).2 ≤ s.fbLen →
      s.pixelTarget x y = .place d (byteIndex d s.stride X.toNat Y.toNat).1 X.toNat ∧
        s.writePixel x y c = s.pack d (byteIndex d s.stride X.toNat Y.toNat).1 X.toNat c) ∧
    ((byteIndex d s.stride X.toNat Y.toNat).1 + (byteIndex d s.stride X.toNat Y.toNat).2 > s.fbLen →
      s.pixelTarget x y = .dropped ∧ s.writePixel x y c = { s with dropped := true }) := by
  refine ⟨fun hX hY => index_fits hd (by omega) (by omega), fun h => ?_, fun h => ?_⟩
  · have hp := pixelTarget_of_fits hd h1 h2 h3 h4 ht h5 h6 h7 h8 h
    exact ⟨hp, writePixel_of_place hp c⟩
  · have hp := pixelTarget_of_not_fits hd h1 h2 h3 h4 ht h5 h6 h7 h8 h
    exact ⟨hp, writePixel_of_dropped hp c⟩

end Checked

/-- Settles O26: the transform puts the pixel inside the rectangle, where it is packed, and a packed field reads
back. -/
theorem pixelRoundTrip : Obligations.PixelRoundTrip := by
  intro s d x y c hd hrot h1 h2 h3 h4
  obtain ⟨r, hr⟩ := exists_rotOf hrot
  obtain ⟨X, Y, ht, hX, hX', hY, hY'⟩ := physical_of_logical hr h1 h2 h3 h4
  have hp := target_inside hd ht hX hX' hY hY'
  refine ⟨X, Y, ht, pixelOutcome_of_place hp, ?_⟩
  rw [writePixel_of_place hp]
  exact getPixel_pack_self s d X.toNat c Y.toNat

/-! ### The bits of a byte -/

/-- The two bits of R185. -/
theorem packTwo_bit_cases (old : Byte) (X : Nat) (c : Half) {j : Nat} (hj : j < 8) : (packTwo old X c).getLsbD j =
    if j = 7 - 2 * (X % 4) then c.getLsbD 1 else if j = 6 - 2 * (X % 4) then c.getLsbD 0 else old.getLsbD j := by
  have hk : X % 4 < 4 := Nat.mod_lt _ (by norm_num)
  rw [packTwo_bit old X c hj]
  by_cases hhigh : j = 7 - 2 * (X % 4)
  · rw [if_pos (by omega), if_pos hhigh, show j - (6 - 2 * (X % 4)) = 1 by omega]
  by_cases hlow : j = 6 - 2 * (X % 4)
  · rw [if_pos (by omega), if_neg hhigh, if_pos hlow, show j - (6 - 2 * (X % 4)) = 0 by omega]
  · rw [if_neg (by omega), if_neg hhigh, if_neg hlow]

/-- The two nibbles of R186. -/
theorem packFour_bit_cases (old : Byte) (X : Nat) (c : Half) {j : Nat} (hj : j < 8) : (packFour old X c).getLsbD j =
    if X % 2 = 0 then (if 4 ≤ j then c.getLsbD (j - 4) else old.getLsbD j)
    else if j < 4 then c.getLsbD j else old.getLsbD j := by
  rw [packFour_bit old X c hj]
  by_cases heven : X % 2 = 0 <;> by_cases hlow : j < 4
  · rw [if_neg (by omega), if_pos heven, if_neg (by omega)]
  · rw [if_pos (by omega), if_pos heven, if_pos (by omega), show j % 4 = j - 4 by omega]
  · rw [if_pos (by omega), if_neg heven, if_pos hlow, Nat.mod_eq_of_lt hlow]
  · rw [if_neg (by omega), if_neg heven, if_neg hlow]

/-- `Pack` leaves every byte but the one at `i`, at 16 bits the two from `i` on (R79). -/
theorem readFb_pack_other (s : State) {d : Depth} {i k : Nat} (X : Nat) (c : Half) (hk : k ≠ i)
    (hk' : d ≠ .sixteen ∨ k ≠ i + 1) : (s.pack d i X c).readFb k = s.readFb k := by
  refine readFb_pack_ne s d X c ?_
  split
  · have := hk'.resolve_left (not_not.2 ‹_›)
    omega
  · omega

/-- Settles O28: the byte is `byteIndex`'s at each depth, and the bits are those the packed byte has. -/
theorem packWritesItsField : Obligations.PackWritesItsField := by
  refine ⟨fun s d x y X Y c hd h1 h2 h3 h4 ht h5 h6 h7 h8 => ?_, fun s i X c =>
    ⟨fun j hj => ?_, fun j hj => ?_, fun j hj => ?_, readFb_pack_hi s i X c, readFb_pack_lo s i X c,
      fun d k => readFb_pack_other s X c⟩⟩
  · have hw := writePixel_checked hd h1 h2 h3 h4 ht h5 h6 h7 h8 c
    cases d <;> exact hw
  · rw [readFb_pack_one, packOne_bit _ _ _ hj]
  · rw [readFb_pack_two, packTwo_bit_cases _ _ _ hj]
  · rw [readFb_pack_four, packFour_bit_cases _ _ _ hj]

/-! ### The bounds checks -/

/-- Settles O30: each check that fails drops the pixel, and a pixel of the rectangle passes them all. -/
theorem boundsChecksDrop : Obligations.BoundsChecksDrop := by
  intro s x y c
  refine ⟨fun h => outcome_of_dropped (pixelTarget_outside_logical h) c, fun X Y h1 h3 h2 h4 ht => ⟨fun h => ?_, ?_⟩⟩
  · exact outcome_of_dropped (pixelTarget_outside_physical h1 h2 h3 h4 ht h) c
  · intro d hd hX hY hX' hY'
    have hp := target_inside hd ht hX hX' hY hY'
    exact ⟨pixelOutcome_of_place hp, by rw [writePixel_of_place hp, pack_dropped]⟩

/-! ### The column beyond a row, and the row beyond the last -/

/-- The row beyond the last begins where the buffer ends. -/
theorem fbLen_le_byteIndex_row (s : State) (d : Depth) (k : Nat) :
    s.fbLen ≤ (byteIndex d s.stride k s.hm.toNat).1 := by
  rw [State.fbLen, Nat.mul_comm]
  cases d <;> exact Nat.le_add_left _ _

theorem lt_byteIndex_end (d : Depth) (st k row : Nat) :
    (byteIndex d st k row).1 < (byteIndex d st k row).1 + (byteIndex d st k row).2 := by
  cases d <;> simp [byteIndex]

/-- Without padding the column beyond a row is the first of the next row (R179). -/
theorem byteIndex_edge (hd : depthOf s.depth.toNat = some d) (h : s.wm.toNat * s.depth.toNat % 8 = 0) (row : Nat) :
    byteIndex d s.stride s.wm.toNat row = byteIndex d s.stride 0 (row + 1) := by
  have hst := stride_of_depth hd
  rw [depthOf_bits hd] at h
  have hrow : s.wm.toNat * d.bits / 8 + row * s.stride = (row + 1) * s.stride := by
    rw [Nat.succ_mul, Nat.add_comm]
    omega
  cases d <;> simp only [byteIndex, Depth.bits] at h hrow ⊢ <;> rw [← hrow] <;> congr 1 <;> omega

/-- What `Pack` does at the column beyond an unpadded row is what it does at the first of a row (R184 to R187). -/
theorem pack_edge (hd : depthOf s.depth.toNat = some d) (h : s.wm.toNat * s.depth.toNat % 8 = 0) (i : Nat) (c : Half) :
    s.pack d i s.wm.toNat c = s.pack d i 0 c := by
  rw [depthOf_bits hd] at h
  cases d with
  | one =>
    have hX : s.wm.toNat % 8 = 0 := by simp only [Depth.bits] at h; omega
    simp only [State.pack, packOne, hX, Nat.zero_mod]
  | two =>
    have hX : s.wm.toNat % 4 = 0 := by simp only [Depth.bits] at h; omega
    simp only [State.pack, packTwo, hX, Nat.zero_mod]
  | four =>
    have hX : s.wm.toNat % 2 = 0 := by simp only [Depth.bits] at h; omega
    simp only [State.pack, packFour, hX, Nat.zero_mod]
  | sixteen => rfl

/-- A pixel has its bits in its row (R38). -/
def InRow (s : State) (d : Depth) (k : Nat) : Prop := k * d.bits + d.bits ≤ s.stride * 8

theorem inRow_of_lt (hd : depthOf s.depth.toNat = some d) {k : Nat} (h : k < s.wm.toNat) : InRow s d k := by
  have hst := stride_of_depth hd
  cases d <;> simp only [InRow, Depth.bits] at hst ⊢ <;> omega

/-- With padding the column beyond a row is still in it (R179). -/
theorem inRow_edge (hd : depthOf s.depth.toNat = some d) (h : s.wm.toNat * s.depth.toNat % 8 ≠ 0) :
    InRow s d s.wm.toNat := by
  have hst := stride_of_depth hd
  rw [depthOf_bits hd] at h
  cases d <;> simp only [InRow, Depth.bits] at h hst ⊢ <;> omega

theorem fits_of_inRow {k row : Nat} (h : InRow s d k) (hrow : row < s.hm.toNat) :
    (byteIndex d s.stride k row).1 + (byteIndex d s.stride k row).2 ≤ s.fbLen := by
  have hend := row_fits (st := s.stride) hrow
  rw [State.fbLen]
  cases d <;> simp only [InRow, Depth.bits, byteIndex] at h ⊢ <;> omega

/-- Two pixels that share a byte, `n` of them to the byte, have different places in it. -/
theorem byte_or_place_apart {n st k row k' row' : Nat} (h : k / n < st) (h' : k' / n < st)
    (hne : (k, row) ≠ (k', row')) : k' / n + row' * st ≠ k / n + row * st ∨ k % n ≠ k' % n := by
  by_contra! hsame
  obtain ⟨hbyte, hplace⟩ := hsame
  obtain ⟨hrow, hdiv⟩ := rows_apart hbyte h' h
  have hk : k = k' := by rw [← Nat.div_add_mod k n, ← Nat.div_add_mod k' n, hdiv, hplace]
  exact hne (by rw [hk, hrow])

/-- Two pixels with their bits in their rows share none (R183). -/
theorem getPixel_pack_apart {k row k' row' : Nat} (h : InRow s d k) (h' : InRow s d k') (hne : (k, row) ≠ (k', row'))
    (c : Half) : (s.pack d (byteIndex d s.stride k row).1 k c).getPixel d k' row' = s.getPixel d k' row' := by
  refine getPixel_pack_ne s d c ?_
  cases d <;> simp only [InRow, Depth.bits] at h h' <;> simp only [byteIndex]
  case sixteen =>
    refine ⟨fun e => ?_, fun e => ?_, fun e => ?_⟩
    · obtain ⟨hrow, hk⟩ := rows_apart e (by omega) (by omega)
      exact hne (by rw [hrow, show k = k' by omega])
    · obtain ⟨-, hk⟩ := rows_apart (e.trans (Nat.add_right_comm ..)) (by omega) (by omega)
      omega
    · obtain ⟨-, hk⟩ := rows_apart ((Nat.add_right_comm ..).trans e) (by omega) (by omega)
      omega
  all_goals exact byte_or_place_apart (by omega) (by omega) hne

theorem wm_pos (h : s.wm ≠ 0) : 0 < s.wm.toNat :=
  Nat.pos_of_ne_zero fun h0 => h (BitVec.eq_of_toNat_eq h0)

/-- The only places on a Surface that has pixels whose bytes pass the end of the buffer (R182). -/
theorem edge_of_not_fits (hd : depthOf s.depth.toNat = some d) (hwm : s.wm ≠ 0) {k row : Nat} (hk : k ≤ s.wm.toNat)
    (hrow : row ≤ s.hm.toNat) (h : (byteIndex d s.stride k row).1 + (byteIndex d s.stride k row).2 > s.fbLen) :
    row = s.hm.toNat ∨ (k = s.wm.toNat ∧ row + 1 = s.hm.toNat ∧ s.wm.toNat * s.depth.toNat % 8 = 0) := by
  by_contra! hnot
  obtain ⟨hlast, hcorner⟩ := hnot
  have hrow' : row < s.hm.toNat := lt_of_le_of_ne hrow hlast
  refine absurd h (not_lt.2 ?_)
  by_cases hedge : k = s.wm.toNat
  · subst hedge
    by_cases hpad : s.wm.toNat * s.depth.toNat % 8 = 0
    · rw [byteIndex_edge hd hpad]
      exact index_fits hd (wm_pos hwm) (lt_of_le_of_ne hrow' fun e => hcorner rfl e hpad)
    · exact fits_of_inRow (inRow_edge hd hpad) hrow'
  · exact index_fits hd (lt_of_le_of_ne hk hedge) hrow'

/-- Settles O29: `byteIndex` inside the rectangle and at its two edges. -/
theorem memoryGuard : Obligations.MemoryGuard := by
  refine ⟨fun s d x y X Y c hd h1 h2 h3 h4 ht h5 h6 h7 h8 => ⟨fun h => ?_, fun h => ?_⟩,
    fun s x y c j hj => readFb_writePixel_outside s x y c hj⟩
  · obtain ⟨hdrop, hfb, -⟩ := outcome_of_dropped (pixelTarget_of_not_fits hd h1 h2 h3 h4 ht h5 h6 h7 h8 h) c
    refine ⟨hdrop, hfb, fun hwm => ?_⟩
    have hedge := edge_of_not_fits hd hwm (by omega) (by omega) h
    omega
  · exact pixelOutcome_of_place (pixelTarget_of_fits hd h1 h2 h3 h4 ht h5 h6 h7 h8 h)

/-! ### The lenient boundary without rotation and mirror -/

section Upright

variable (hrot : s.rot = 0) (hmir : s.mirror = 0) (hd : depthOf s.depth.toNat = some d) {k row : Nat}
  (hk : k ≤ s.wm.toNat) (hrow : row ≤ s.hm.toNat)

include hrot hmir hd hk hrow

/-- Physical and logical coordinates are the same, so the memory guard alone decides (R171, R179). -/
theorem pixelTarget_upright : s.pixelTarget k row =
    if (byteIndex d s.stride k row).1 + (byteIndex d s.stride k row).2 > s.fbLen then .dropped
    else .place d (byteIndex d s.stride k row).1 k := by
  have ht : transform s.rot s.mirror s.wm s.hm k row = some ((k : Int), (row : Int)) := by rw [hrot, hmir]; rfl
  have hwidth : s.width = s.wm.toNat := by rw [State.width, hrot]; rfl
  have hheight : s.height = s.hm.toNat := by rw [State.height, hrot]; rfl
  exact pixelTarget_of_checks hd (by omega) (by omega) (by omega) (by omega) ht (by omega) (by omega) (by omega)
    (by omega)

theorem pixelTarget_upright_fits
    (h : (byteIndex d s.stride k row).1 + (byteIndex d s.stride k row).2 ≤ s.fbLen) :
    s.pixelTarget k row = .place d (byteIndex d s.stride k row).1 k := by
  rw [pixelTarget_upright hrot hmir hd hk hrow, if_neg (not_lt.2 h)]

theorem pixelOutcome_upright_past (h : s.fbLen ≤ (byteIndex d s.stride k row).1) :
    s.pixelOutcome k row = .dropped := by
  have hpast := lt_of_le_of_lt h (lt_byteIndex_end d s.stride k row)
  rw [State.pixelOutcome, pixelTarget_upright hrot hmir hd hk hrow, if_pos hpast]

end Upright

/-- Settles O31: the column beyond a row is the next row's first, or padding, or past the end of the buffer. -/
theorem lenientEdge : Obligations.LenientEdge := by
  intro s d c hrot hmir hd hwm
  refine ⟨fun row hrow hpad => ?_, fun row k' row' hrow hpad hk' hrow' => ?_, fun row hrow hpad => ?_, fun k hk => ?_⟩
  · have hfits := index_fits hd (wm_pos hwm) hrow
    have hnext := pixelTarget_upright_fits hrot hmir hd (Nat.zero_le _) hrow.le hfits
    rw [← byteIndex_edge hd hpad] at hfits hnext
    have hedge := pixelTarget_upright_fits hrot hmir hd le_rfl (by omega) hfits
    refine ⟨pixelOutcome_of_place hedge, ?_⟩
    rw [writePixel_of_place hedge, pack_edge hd hpad]
    exact (writePixel_of_place hnext c).symm
  · have hin := inRow_edge hd hpad
    have hedge := pixelTarget_upright_fits hrot hmir hd le_rfl hrow.le (fits_of_inRow hin hrow)
    refine ⟨pixelOutcome_of_place hedge, ?_⟩
    rw [writePixel_of_place hedge]
    exact getPixel_pack_apart hin (inRow_of_lt hd hk') (fun e => hk'.ne (Prod.mk.inj e).1.symm) c
  · refine pixelOutcome_upright_past hrot hmir hd le_rfl (by omega) ?_
    rw [byteIndex_edge hd hpad, hrow]
    exact fbLen_le_byteIndex_row s d 0
  · exact pixelOutcome_upright_past hrot hmir hd hk le_rfl (fbLen_le_byteIndex_row s d k)

end Sys2Proof.Machine
end

section
/-! PROOF. The two commands that write pixels directly: CLEAR and SET_PIXEL (R190 to R192). -/

namespace Sys2Proof.Machine

variable {s : State} {d : Depth}

/-! ### CLEAR -/

/-- Runs of bytes after the start of a command are nothing but a new framebuffer, and drop nothing. -/
theorem runPlan_fillWork (s : State) (l : List (Nat × List Byte)) :
    (∀ j, (s.runPlan (.draw (fillWork l))).readFb j = (fillFb s.begin l).readFb j) ∧
      s.SameButDrawing (s.runPlan (.draw (fillWork l))) ∧ s.SameTransport (s.runPlan (.draw (fillWork l))) ∧
      s.Ended (s.runPlan (.draw (fillWork l))) .ok := by
  have hrun : s.runPlan (.draw (fillWork l)) = (fillFb s.begin l).completeDrawn := by
    rw [State.runPlan, runWork_after (local_fillWork l), after_fillWork]
  obtain ⟨m, hm⟩ := fillFb_eq s.begin l
  refine ⟨fun j => ?_, draws_same, ?_, ?_⟩ <;> rw [hrun]
  · rfl
  · rw [hm]
    exact ⟨rfl, rfl⟩
  · rw [hm]
    simp [State.completeDrawn, State.Ended]

/-- CLEAR's fills leave the fill byte of the depth below `FB_LEN` and the other bytes as they were, and end OK (R190). -/
theorem runPlan_clearWork (hd : depthOf s.depth.toNat = some d) (c : Half) :
    (∀ j, (s.runPlan (.draw (clearWork c s))).readFb j = if j < s.fbLen then clearByte d c j else s.readFb j) ∧
      s.SameButDrawing (s.runPlan (.draw (clearWork c s))) ∧ s.SameTransport (s.runPlan (.draw (clearWork c s))) ∧
      s.Ended (s.runPlan (.draw (clearWork c s))) .ok := by
  rw [clearWork_eq hd]
  obtain ⟨hread, hrest⟩ := runPlan_fillWork s ((List.range (s.fbLen / (clearBytes d c).length)).map fun k =>
    ((clearBytes d c).length * k, clearBytes d c))
  refine ⟨fun j => ?_, hrest⟩
  rw [hread, readFb_fillFb_repeat, clear_whole hd]
  rfl

/-- Every physical pixel reads back as the colour after a CLEAR (R191). -/
theorem getPixel_clear (hd : depthOf s.depth.toNat = some d) (c : Half) {X Y : Nat} (hX : X < s.wm.toNat)
    (hY : Y < s.hm.toNat) :
    (s.runPlan (.draw (clearWork c s))).getPixel d X Y = BitVec.ofNat 16 (c.toNat % 2 ^ d.bits) := by
  obtain ⟨hread, hsame, -⟩ := runPlan_clearWork hd c
  have hst := sameSurface_stride hsame.1
  refine clear_field _ d c X Y (fun k hk => ?_) fun h16 => ?_
  · rw [hst] at hk ⊢
    have hfits := index_fits hd hX hY
    rw [hread, if_pos (by omega)]
  · rw [hst, stride_even (h16 ▸ hd), Nat.mul_mod_left]

/-- Settles O32: with a Surface CLEAR comes to its fills, which take up the whole buffer and no more. -/
theorem clearFillsBuffer : Obligations.ClearFillsBuffer := by
  intro s color d hcfg hd
  have hplan : planOf (.clear color) s = .draw (clearWork color s) := needsSurface_true hcfg
  obtain ⟨hread, hsame, htransport, hended⟩ := runPlan_clearWork hd color
  refine ⟨_, by rw [exec_eq, hplan], fun i hi => ?_, fun X Y => getPixel_clear hd color, fun i hi => ?_, hsame, htransport,
    hended⟩
  · rw [hread, if_pos hi]
    cases d with
    | one => exact clearByte_one color i
    | two => exact clearByte_two color i
    | four => exact clearByte_four color i
    | sixteen => exact clearByte_sixteen color i
  · rw [hread, if_neg (not_lt.2 hi)]

/-! ### SET_PIXEL -/

/-- `WritePixel` changes no byte but those of the place it writes (R79, R180). -/
theorem readFb_writePixel_other (s : State) {x y : Int} (c : Half) {j : Nat}
    (h : ∀ d i X, s.pixelTarget x y = .place d i X → j < i ∨ i + (if d = .sixteen then 2 else 1) ≤ j) :
    (s.writePixel x y c).readFb j = s.readFb j := by
  rcases writePixel_cases s x y c with ⟨d, i, X, hp, -, hw⟩ | ⟨-, -, hw⟩ | ⟨-, -, hw⟩ <;> rw [hw]
  · exact readFb_pack_ne s d X c (h d i X hp)
  · rfl

/-- Settles O33: SET_PIXEL paints a list of one pixel. -/
theorem setPixelWritesOnePixel : Obligations.SetPixelWritesOnePixel := by
  intro s color x y hcfg
  have hplan : planOf (.setPixel color x y) s = .draw (pixelWork [((x.toNat : Int), (y.toNat : Int), color)]) :=
    needsSurface_true hcfg
  obtain ⟨t, hexec, hread, -, hended, hsame, htransport⟩ := pixel_cmd hplan
  refine ⟨t, hexec, hread, fun j hj => (hread j).trans (readFb_writePixel_other s color hj), ?_, hsame, htransport⟩
  simpa [State.paintResult] using hended

end Sys2Proof.Machine
end

section
/-! PROOF. The rasterizer: the points of a line, the cells of each shape, and the commands that paint them
(R200 to R233). -/

namespace Sys2Proof.Machine

/-! ### Lines -/

/-- The first point of a line is its start (R210, R211). -/
theorem linePoints_head? (x0 y0 x1 y1 : Int) : (linePoints x0 y0 x1 y1).head? = some (x0, y0) := by
  obtain ⟨gx, gy, hx0, hy0, -, -, -, -, -, -, e⟩ := linePoints_eq x0 y0 x1 y1
  simp [e, List.head?_range, hx0, hy0]

/-- The last point of a line is its end (R211). -/
theorem linePoints_getLast? (x0 y0 x1 y1 : Int) : (linePoints x0 y0 x1 y1).getLast? = some (x1, y1) := by
  obtain ⟨gx, gy, -, -, -, -, hX, hY, -, -, e⟩ := linePoints_eq x0 y0 x1 y1
  have hx : x0 + (if x0 < x1 then 1 else -1) * (((x1 - x0).natAbs : Nat) : Int) = x1 := by split <;> omega
  have hy : y0 + (if y0 < y1 then 1 else -1) * (((y1 - y0).natAbs : Nat) : Int) = y1 := by split <;> omega
  rw [e, List.getLast?_map, List.getLast?_range, if_neg (Nat.succ_ne_zero _), Option.map_some, Nat.add_sub_cancel, hX,
    hY, hx, hy]

/-- A coordinate whose count climbs moves by at most 1 (R211). -/
theorem climbs_unit_step {g : Nat → Nat} (h : Climbs g) (a b : Int) (k : Nat) :
    (a + (if a < b then 1 else -1) * (g (k + 1) : Int) - (a + (if a < b then 1 else -1) * (g k : Int))).natAbs ≤ 1 := by
  obtain ⟨hle, hstep⟩ := h k
  split <;> omega

/-- Each point of a line is at most 1 away from the one before on each axis (R211). -/
theorem linePoints_unit_step (x0 y0 x1 y1 : Int) {k : Nat} {p q : Int × Int}
    (hp : (linePoints x0 y0 x1 y1)[k]? = some p) (hq : (linePoints x0 y0 x1 y1)[k + 1]? = some q) :
    (q.1 - p.1).natAbs ≤ 1 ∧ (q.2 - p.2).natAbs ≤ 1 := by
  obtain ⟨gx, gy, -, -, hcx, hcy, -, -, -, -, e⟩ := linePoints_eq x0 y0 x1 y1
  rw [e] at hp hq
  obtain ⟨_, rfl⟩ := List.getElem?_eq_some_iff.1 hp
  obtain ⟨_, rfl⟩ := List.getElem?_eq_some_iff.1 hq
  simp only [List.getElem_map, List.getElem_range]
  exact ⟨climbs_unit_step hcx x0 x1 k, climbs_unit_step hcy y0 y1 k⟩

/-- Settles O34: the closed form gives the ends and the unit steps, the iterated error update the points between. -/
theorem linePointsCount : Obligations.LinePointsCount := by
  intro x0 y0 x1 y1
  refine ⟨linePoints_length x0 y0 x1 y1, linePoints_head? x0 y0 x1 y1, linePoints_getLast? x0 y0 x1 y1,
    fun k p q => linePoints_unit_step x0 y0 x1 y1, ?_⟩
  intro dx dy
  refine ⟨fun k => (lineErr dx dy)^[k] (dx + dy), rfl, fun k x y h => ⟨?_, ?_⟩⟩
  · exact Function.iterate_succ_apply' (lineErr dx dy) k (dx + dy)
  · simpa only [apply_ite (x + ·), apply_ite (y + ·), ← sub_eq_add_neg x, ← sub_eq_add_neg y]
      using linePoints_next x0 y0 x1 y1 k x y h

/-! ### Points -/

/-- Settles O37: both styles are blocks, filled-around without its negative cells. -/
theorem pointCells_are_blocks : Obligations.PointCells := by
  intro X Y R
  refine ⟨fun x y => ?_, fun x y => ?_, fun style => ?_, rfl, rfl, fun hX hY => ?_, ?_⟩
  · simp only [pointCells, around_eq, List.mem_filter, block_mem, Bool.and_eq_true, decide_eq_true_eq]
    omega
  · simp only [pointCells, square_eq, block_mem]
    omega
  · cases style with
    | around =>
      rw [pointCells, around_eq]
      exact (block_sorted ..).filter _
    | square =>
      rw [pointCells, square_eq]
      exact block_sorted ..
  · simp [pointCells, aroundCells, hX, hY]
  · simp [pointCells, squareCells]

/-! ### Rectangles -/

/-- How many integers a range holds (R12). -/
theorem length_intsFromTo (a b : Int) : (intsFromTo a b).length = (b - a + 1).toNat := by
  rw [intsFromTo, List.length_map, List.length_range]

/-- A horizontal line visits each of its columns once (R211, R221). -/
theorem length_linePoints_row (x0 x1 y : Int) : (linePoints x0 y x1 y).length = (x1 - x0).natAbs + 1 := by
  rw [linePoints_length, Int.sub_self, Int.natAbs_zero, Nat.max_zero]

theorem length_filledRect (xs ys xe ye : Int) :
    (rectCells .filled xs ys xe ye).length = (ye - ys).toNat * ((xe - xs).natAbs + 1) := by
  have hrows : ye - 1 - ys + 1 = ye - ys := by omega
  simp only [rectCells, List.length_flatMap, length_linePoints_row, List.map_const', List.sum_replicate, length_intsFromTo,
    smul_eq_mul, hrows]

/-- Settles O38: its rows are horizontal lines. -/
theorem filledRectCells : Obligations.FilledRectCells := by
  intro xs ys xe ye
  refine ⟨fun x y => ?_, length_filledRect xs ys xe ye, fun hempty => ?_⟩
  · simp only [rectCells, List.mem_flatMap, mem_intsFromTo, mem_linePoints_row]
    constructor
    · rintro ⟨row, hrow, rfl, hx⟩
      omega
    · rintro ⟨hlo, hhi, htop, hbottom⟩
      exact ⟨y, by omega, rfl, hlo, hhi⟩
  · rw [← List.length_eq_zero_iff, length_filledRect, Int.toNat_eq_zero.2 (by omega), Nat.zero_mul]

/-- Settles O39: the top and the bottom are horizontal lines, the sides vertical ones. -/
theorem outlineRectCells : Obligations.OutlineRectCells := by
  refine fun xs ys xe ye => ⟨rfl, fun x y => ?_⟩
  simp only [rectCells, List.mem_append, mem_linePoints_row, mem_linePoints_column]
  omega

/-! ### Circles -/

/-- A span about a centre, from left to right (R233). -/
theorem span_centred (c r y : Int) :
    span (c - r) (c + r) y = (List.range (2 * r + 1).toNat).map fun (k : Nat) => (c - r + k, y) := by
  have hlen : c + r - (c - r) + 1 = 2 * r + 1 := by omega
  rw [span, intsFromTo, hlen, List.map_map]
  rfl

/-- Settles O40: the loop's steps one at a time, its eight points, and its spans about the centre. -/
theorem circleStepsFollowRule : Obligations.CircleStepsFollowRule := by
  refine ⟨fun R => ⟨?_, fun k x y err => ?_⟩, by decide, fun cx cy R => rfl, fun cx cy R => ?_⟩
  · rw [circleSteps, circleLoop_head (by omega), if_pos (by omega)]
  · exact circleLoop_next k (R + 1) 0 R (3 - 2 * R) (by omega) x y err
  · simp only [circleCells, spans, span_centred]

/-- A step never passes the diagonal, so neither of its coordinates is negative (R231). -/
theorem circleSteps_mem {R : Nat} {a b e : Int} (h : (a, b, e) ∈ circleSteps R) : 0 ≤ a ∧ a ≤ b :=
  circleLoop_mem (R + 1) 0 R (3 - 2 * R) le_rfl (a, b, e) h

/-- The disc holds every cell at most as far from the centre column as an outline point of its row (R232, R233). -/
theorem mem_disc_of_mem_ring {cx cy : Int} {R : Nat} {x x' y : Int} (h : (x', y) ∈ circleCells .outline cx cy R)
    (hx : (x - cx).natAbs ≤ (x' - cx).natAbs) : (x, y) ∈ circleCells .filled cx cy R := by
  obtain ⟨a, b, e, hstep, hring⟩ := mem_ring.1 h
  obtain ⟨ha, hab⟩ := circleSteps_mem hstep
  exact mem_disc.2 ⟨a, b, e, hstep, by omega⟩

/-- Each cell of the disc has outline points of its row on both sides, or is one (R232, R233). -/
theorem ring_around_of_mem_disc {cx cy : Int} {R : Nat} {x y : Int} (h : (x, y) ∈ circleCells .filled cx cy R) :
    ∃ r, cx - r ≤ x ∧ x ≤ cx + r ∧ (cx - r, y) ∈ circleCells .outline cx cy R ∧
      (cx + r, y) ∈ circleCells .outline cx cy R := by
  obtain ⟨a, b, e, hstep, ⟨hrow, hlo, hhi⟩ | ⟨hrow, hlo, hhi⟩⟩ := mem_disc.1 h
  · refine ⟨a, hlo, hhi, ?_, ?_⟩ <;> exact mem_ring.2 ⟨a, b, e, hstep, by tauto⟩
  · refine ⟨b, hlo, hhi, ?_, ?_⟩ <;> exact mem_ring.2 ⟨a, b, e, hstep, by tauto⟩

/-- Settles O41: of two outline points of a row, the one farther from the centre column spans the cells between them. -/
theorem discCoversOutline : Obligations.DiscCoversOutline := by
  intro cx cy R x y
  constructor
  · intro h
    obtain ⟨r, hlo, hhi, hleft, hright⟩ := ring_around_of_mem_disc h
    exact ⟨cx - r, cx + r, hleft, hright, hlo, hhi⟩
  · rintro ⟨x1, x2, h1, h2, hlo, hhi⟩
    have hfar : (x - cx).natAbs ≤ (x1 - cx).natAbs ∨ (x - cx).natAbs ≤ (x2 - cx).natAbs := by omega
    rcases hfar with hx | hx
    · exact mem_disc_of_mem_ring h1 hx
    · exact mem_disc_of_mem_ring h2 hx

/-! ### The commands -/

/-- Settles O35: each of the three comes to one pixel a cell, in its one colour. -/
theorem rasterCommandsPaintTheirCells : Obligations.RasterCommandsPaintTheirCells := by
  intro s color a b c d fill style hcfg i cells hi
  have hplan : planOf i s = .draw (pixelsOf color cells) := by
    rcases hi with ⟨rfl, rfl⟩ | ⟨rfl, rfl⟩ | ⟨rfl, rfl⟩ <;> exact needsSurface_true hcfg
  exact pixel_cmd (hplan.trans (congrArg Plan.draw (pixelsOf_eq color cells)))

/-- The coloured pixels of a line in order (R212 to R214). -/
def linePixels (style : LineStyle) (color bg : Half) (ps : List (Int × Int)) : List (Int × Int × Half) :=
  ps.zipIdx.map fun pk => (pk.1.1, pk.1.2, lineColor style color bg pk.2)

theorem lineWork_eq (style : LineStyle) (color bg : Half) (ps : List (Int × Int)) :
    lineWork style color bg ps = pixelWork (linePixels style color bg ps) := by
  simp [lineWork, pixelWork, linePixels]

theorem linePixels_getElem? (style : LineStyle) (color bg : Half) {ps : List (Int × Int)} {k : Nat} {p : Int × Int}
    (h : ps[k]? = some p) : (linePixels style color bg ps)[k]? = some (p.1, p.2, lineColor style color bg k) := by
  simp [linePixels, h]

theorem lineColor_eq (style : LineStyle) (color bg : Half) (k : Nat) :
    lineColor style color bg k = if style = .dotted ∧ (k + 1) % 3 = 0 then bg else color := by
  cases style <;> simp [lineColor]

/-- Settles O36: DRAW_LINE comes to the coloured pixels of its line. -/
theorem drawLineColoursItsPoints : Obligations.DrawLineColoursItsPoints := by
  intro s style color x0 y0 x1 y1 hcfg
  have hplan : planOf (.drawLine style color x0 y0 x1 y1) s =
      .draw (pixelWork (linePixels style color s.bg (linePoints x0.toNat y0.toNat x1.toNat y1.toNat))) :=
    (needsSurface_true hcfg).trans (congrArg Plan.draw (lineWork_eq ..))
  obtain ⟨t, hexec, hrest⟩ := pixel_cmd hplan
  refine ⟨t, _, hexec, by simp [linePixels], fun k p hp => ?_, hrest⟩
  rw [linePixels_getElem? style color s.bg hp, lineColor_eq]

end Sys2Proof.Machine
end

section
/-! PROOF. The text commands: the slot check, the characters of a command and where the cursor puts them
(R240 to R263). -/

namespace Sys2Proof.Machine

variable {s t : State} {slot : BitVec 4} {fg bg : Half}

/-! ### Rejection and completion -/

theorem exec_of_reject {i : Instr} {c : Result} (h : planOf i s = .reject c) :
    ∃ t, exec i s = .next t ∧ s.OnlyStatus t c :=
  ⟨_, by rw [exec_eq, h], runPlan_reject s c⟩

/-- A command that draws, but has left every byte as it was, has changed nothing but `STATUS`. -/
theorem onlyStatus_of_sameFb {c : Result} (hsame : s.SameButDrawing t) (hfb : s.SameFb t) (htransport : s.SameTransport t)
    (hended : s.Ended t c) : s.OnlyStatus t c := by
  obtain ⟨hsurface, hfonts, houtside, -⟩ := hsame
  exact ⟨hsurface, hfonts, hfb, houtside, htransport, hended⟩

/-- Settles O42: each of the three begins with the slot check. -/
theorem slotCheckRejectsText : Obligations.SlotCheckRejectsText := by
  intro s slot fg x y bg16 ch digits chars value i hi hslot
  refine exec_of_reject ?_
  rcases hi with rfl | rfl | rfl
  · simp only [planOf, planDrawChar, needsFont_reject hslot]
  · simp only [planOf, planDrawString, needsFont_reject hslot]
  · simp only [planOf, planDrawNumber, needsFont_reject hslot]

/-! ### The characters of a command -/

/-- A command whose work is that of placed characters paints what they may write (R250, R255, R351). -/
theorem text_cmd {i : Instr} {f : Font} {cs : List (Int × Int × Byte)}
    (h : planOf i s = .draw (cs.flatMap fun p => glyphWork s f p.1 p.2.1 p.2.2 fg bg)) :
    ∃ t pss, exec i s = .next t ∧ List.Forall₂ (fun p ps => s.CharDraws f p.1 p.2.1 p.2.2 fg bg ps) cs pss ∧
      (∀ j, t.readFb j = (s.paint pss.flatten).readFb j) ∧ (∀ j, s.fbLen ≤ j → t.readFb j = s.readFb j) ∧
      s.Ended t (s.textResult f cs pss.flatten) ∧ s.SameButDrawing t ∧ s.SameTransport t := by
  obtain ⟨pss, hrest⟩ := runPlan_text s f fg bg cs
  exact ⟨_, pss, by rw [exec_eq, h], hrest⟩

/-- DRAW_CHAR places one character, at the command's own place (R250). -/
theorem planOf_drawChar (hcfg : s.cfgValid = true) (hslot : slot.toNat < s.params.fontSlots)
    (hw : (s.font slot.toNat).w ≠ 0) (fg x y bg16 : Half) (ch : Byte) :
    planOf (.drawChar slot fg x y ch bg16) s = .draw ([((x.toNat : Int), (y.toNat : Int), ch)].flatMap fun p =>
      glyphWork s (s.font slot.toNat) p.1 p.2.1 p.2.2 fg bg16) := by
  simp only [planOf, planDrawChar, needsFont_ok hcfg hslot hw, List.flatMap_singleton]

/-- A dropped character writes no pixel (R244, R246, R247). -/
theorem charDraws_dropped {f : Font} {x y : Int} {ch : Byte} {ps : List (Int × Int × Half)}
    (hdraws : s.CharDraws f x y ch fg bg ps) (hdrop : s.CharDropped f x y ch) : ps = [] := by
  obtain ⟨hpixels, -⟩ := hdraws
  rw [hpixels (Or.inl hdrop), State.charPixels, if_pos hdrop]

/-- Settles O43: the command is one placed character, and a dropped one paints nothing. -/
theorem drawCharPaintsGlyph : Obligations.DrawCharPaintsGlyph := by
  intro s slot fg x y bg16 ch hcfg hslot hw
  obtain ⟨t, pss, hexec, hchars, hrest⟩ := text_cmd (planOf_drawChar hcfg hslot hw fg x y bg16 ch)
  obtain ⟨ps, _, hdraws, hnil, rfl⟩ := List.forall₂_cons_left_iff.1 hchars
  cases hnil
  rw [List.flatten_cons, List.flatten_nil, List.append_nil] at hrest
  refine ⟨⟨t, ps, hexec, hdraws, hrest⟩, fun hdrop => ⟨t, hexec, ?_⟩⟩
  obtain ⟨hfb, -, hended, hsame, htransport⟩ := hrest
  rw [charDraws_dropped hdraws hdrop] at hfb
  rw [State.textResult, if_pos (Or.inl ⟨_, List.mem_singleton_self _, hdrop⟩)] at hended
  exact onlyStatus_of_sameFb hsame hfb htransport hended

/-- Settles O44: the command's work is that of its characters on the cursor's path. -/
theorem drawStringPaintsItsGlyphs : Obligations.DrawStringPaintsItsGlyphs := by
  intro s slot fg x y bg16 chars hcfg hslot hw path
  have hplan : planOf (.drawString slot fg x y bg16 chars) s =
      .draw (path.flatMap fun p => glyphWork s (s.font slot.toNat) p.1 p.2.1 p.2.2 fg bg16) := by
    simp only [planOf, planDrawString, needsFont_ok hcfg hslot hw, stringWork, path]
  exact text_cmd hplan

/-! ### The cursor -/

/-- A character stands where the cursor is placed from the command's own place, or from right after the character
before (R255). -/
theorem cursorPath_place {f : Font} {X Y : Int} {chars : List Byte} {k : Nat} {p : Int × Int} {q : Int × Int × Byte}
    (hp : (k = 0 ∧ p = (X, Y)) ∨ ∃ r, 0 < k ∧ (cursorPath s f X Y (X, Y) chars)[k - 1]? = some r ∧
      p = (r.1 + f.w.toNat, r.2.1))
    (hq : (cursorPath s f X Y (X, Y) chars)[k]? = some q) : (q.1, q.2.1) = placeCursor s f X Y p := by
  obtain ⟨hfirst, hlater⟩ := cursorPath_get s f X Y chars (X, Y) k hq
  rcases hp with ⟨hk, rfl⟩ | ⟨r, hk, hr, rfl⟩
  · exact hfirst hk
  · exact hlater r hk hr

/-- Settles O45: every character's place is one that `placeCursor` gives. -/
theorem cursorStaysInside : Obligations.CursorStaysInside := by
  intro s f X Y chars path
  refine ⟨cursorPath_chars s f X Y chars (X, Y), fun k px py x y ch hp hq => ?_, fun p hp => ?_⟩
  · have hplace : (x, y) = placeCursor s f X Y (px, py) := cursorPath_place hp hq
    rw [hplace]
    exact placeCursor_cases s f X Y px py
  · obtain ⟨p', hplace⟩ := cursorPath_mem s f X Y chars (X, Y) hp
    have hinside := placeCursor_inside s f X Y p'
    rwa [← hplace, Prod.mk.injEq] at hinside

/-! ### Numbers as strings -/

/-- When a value has no string (R260, R263). -/
theorem formatNumber_eq_none {v : BitVec 64} {d : Nat}
    (h : v.extractLsb' 52 11 = 0x7FF ∨ (numberChars v d).length > 255) : formatNumber v d = none := by
  refine Option.eq_none_iff_forall_ne_some.2 fun chars hchars => ?_
  obtain ⟨hfinite, rfl, hlen⟩ := formatNumber_eq_some.1 hchars
  rcases h with hinf | hlong
  · exact hfinite hinf
  · omega

/-- With a loaded slot DRAW_NUMBER comes to what its value's string comes to, if it has one (R262). -/
theorem planOf_drawNumber (hcfg : s.cfgValid = true) (hslot : slot.toNat < s.params.fontSlots)
    (hw : (s.font slot.toNat).w ≠ 0) (fg x y bg16 : Half) (digits : Byte) (value : BitVec 64) :
    planOf (.drawNumber slot fg x y digits bg16 value) s =
      (formatNumber value digits.toNat).elim (.reject .resource) fun chars =>
        planOf (.drawString slot fg x y bg16 chars) s := by
  simp only [planOf, planDrawNumber, planDrawString, needsFont_ok hcfg hslot hw]
  cases formatNumber value digits.toNat <;> rfl

/-- Settles O46: what DRAW_NUMBER comes to turns on whether its value has a string. -/
theorem drawNumberDrawsItsString : Obligations.DrawNumberDrawsItsString := by
  intro s slot fg x y bg16 digits value hcfg hslot hw
  have hplan := planOf_drawNumber hcfg hslot hw fg x y bg16 digits value
  refine ⟨fun hbad => ?_, fun hfinite hlen => ?_⟩
  · rw [formatNumber_eq_none hbad] at hplan
    exact exec_of_reject hplan
  · rw [formatNumber_eq_some.2 ⟨hfinite, rfl, hlen⟩] at hplan
    obtain ⟨t, -, hstring, -, -, -, -, hsame, htransport⟩ :=
      drawStringPaintsItsGlyphs s slot fg x y bg16 (numberChars value digits.toNat) hcfg hslot hw
    refine ⟨t, ?_, hstring, hsame, htransport⟩
    rw [← hstring, exec_eq, exec_eq, hplan]
    rfl

end Sys2Proof.Machine
end

section
/-! PROOF. Numbers: the binary64 value, its integer part and fraction, the rounding, and the digits
(R113, R260). -/

namespace Sys2Proof.Machine

/-! ### Rounding -/

/-- A quotient that lies below `m` is rounded to at most `m`. -/
theorem roundShift_le {n k m : Nat} (h : n < m * 2 ^ k) : roundShift n k ≤ m := by
  have hdiv : n / 2 ^ k < m := (Nat.div_lt_iff_lt_mul (Nat.two_pow_pos k)).2 h
  rcases (roundShift_spec n k).1 with e | e <;> omega

/-- With the dropped bits at most 53 significant ones are left. -/
theorem sig_lt_dropped (a : BinReal) : a.sig < 2 ^ 53 * 2 ^ droppedBits a := by
  rw [← Nat.pow_add]
  refine lt_of_lt_of_le Nat.lt_log2_self (Nat.pow_le_pow_right (by norm_num) ?_)
  rw [droppedBits]
  omega

/-- Bits are dropped down to the exponent -1074, or while more than 53 significant ones are left. -/
theorem droppedBits_cases (a : BinReal) :
    droppedBits a = 0 ∨ a.exp + droppedBits a = -1074 ∨ 2 ^ 52 * 2 ^ droppedBits a ≤ a.sig := by
  by_cases h : a.sig.log2 + 1 - 53 ≤ (-1074 - a.exp).toNat
  · rw [droppedBits, max_eq_right h]
    omega
  · have hlog : 52 + droppedBits a = a.sig.log2 := by
      rw [droppedBits]
      omega
    have hsig : a.sig ≠ 0 := fun h0 => h (by rw [h0]; exact Nat.zero_le _)
    rw [← Nat.pow_add, hlog]
    exact Or.inr (Or.inr (Nat.log2_self_le hsig))

/-- Settles O48: the dropped bits are the `k`, and `roundShift` picks the nearest quotient. -/
theorem roundNearestEven_is_nearest : Obligations.RoundNearestEven := by
  intro a
  obtain ⟨-, hnear⟩ := roundShift_spec a.sig (droppedBits a)
  refine ⟨droppedBits a, rfl, roundShift_le (sig_lt_dropped a), ?_, droppedBits_cases a, hnear⟩
  rw [roundNearestEven, droppedBits]
  dsimp only
  omega

/-! ### The value of a number, its integer part and its fraction -/

theorem value_of_exp_nonneg {a : BinReal} (h : 0 ≤ a.exp) : a.value = ((a.sig * 2 ^ a.exp.toNat : Nat) : ℚ) := by
  obtain ⟨n, hn⟩ := Int.eq_ofNat_of_zero_le h
  simp [BinReal.value, hn]

theorem value_of_exp_neg {a : BinReal} (h : a.exp < 0) : a.value = (a.sig : ℚ) / ((2 ^ (-a.exp).toNat : Nat) : ℚ) := by
  obtain ⟨n, hn⟩ := Int.eq_ofNat_of_zero_le (neg_nonneg.2 h.le)
  have hexp : a.exp = -(n : Int) := by omega
  simp [BinReal.value, hexp, div_eq_mul_inv]

/-- The integer part is the floor of the number (R260). -/
theorem truncate_eq_floor (a : BinReal) : (truncate a : ℤ) = ⌊a.value⌋ := by
  rw [truncate]
  split
  case isTrue h => rw [value_of_exp_nonneg h, Int.floor_natCast]
  case isFalse h => rw [value_of_exp_neg (not_le.1 h), Rat.floor_natCast_div_natCast, Int.natCast_div]

/-- The fraction is what the integer part leaves (R260). -/
theorem fractionPart_value (a : BinReal) : (fractionPart a).value = a.value - truncate a := by
  rw [truncate, fractionPart]
  split
  case isTrue h => rw [value_of_exp_nonneg h, sub_self, BinReal.value, Nat.cast_zero, zero_mul]
  case isFalse h =>
    have hneg := not_le.1 h
    have hpow : ((2 ^ (-a.exp).toNat : Nat) : ℚ) ≠ 0 := Nat.cast_ne_zero.2 (Nat.two_pow_pos _).ne'
    have hsplit : (a.sig : ℚ) = (2 ^ (-a.exp).toNat : Nat) * (a.sig / 2 ^ (-a.exp).toNat : Nat) +
        (a.sig % 2 ^ (-a.exp).toNat : Nat) := by
      rw [← Nat.cast_mul, ← Nat.cast_add, Nat.div_add_mod]
    rw [value_of_exp_neg hneg, value_of_exp_neg (a := ⟨a.sig % 2 ^ (-a.exp).toNat, a.exp⟩) hneg, eq_sub_iff_add_eq,
      eq_div_iff hpow, add_mul, div_mul_cancel₀ _ hpow, hsplit]
    ring

/-- Each turn of the scaling rounds ten times the number (R260). -/
theorem timesTenRepeat_succ (d : Nat) (a : BinReal) : ∃ b : BinReal, b.value = 10 * a.value ∧
    timesTenRepeat (d + 1) a = timesTenRepeat d (roundNearestEven b) := by
  refine ⟨{ sig := a.sig * 10, exp := a.exp }, ?_, rfl⟩
  simp only [BinReal.value, Nat.cast_mul, Nat.cast_ofNat]
  ring

/-- The magnitude is the number that the encoding's exponent and fraction stand for (R113). -/
theorem magnitude_value (v : BitVec 64) : (magnitude v).value =
    if v.extractLsb' 52 11 = 0 then ((v.extractLsb' 0 52).toNat : ℚ) * 2 ^ (-1074 : ℤ)
    else (1 + ((v.extractLsb' 0 52).toNat : ℚ) / 2 ^ (52 : ℤ)) * 2 ^ (((v.extractLsb' 52 11).toNat : ℤ) - 1023) := by
  have hzero : biasedExp v = 0 ↔ v.extractLsb' 52 11 = 0 := (BitVec.toNat_inj (y := 0#11))
  by_cases h : v.extractLsb' 52 11 = 0
  · rw [if_pos h, magnitude, if_pos (hzero.2 h)]
    rfl
  · have hexp : ((biasedExp v : ℤ) - 1023) = (biasedExp v : ℤ) - 1075 + 52 := by ring
    rw [if_neg h, magnitude, if_neg (mt hzero.1 h)]
    change ((2 ^ 52 + fractionBits v : Nat) : ℚ) * 2 ^ ((biasedExp v : ℤ) - 1075) =
      (1 + (fractionBits v : ℚ) / 2 ^ (52 : ℤ)) * 2 ^ ((biasedExp v : ℤ) - 1023)
    rw [hexp, zpow_add₀ two_ne_zero, Nat.cast_add, Nat.cast_pow]
    norm_num
    ring

/-! ### The string -/

/-- Digits padded to `d` of them are digits of the same number (R260). -/
theorem padLeft_spec {n d : Nat} (hd : 0 < d) (hn : n < 10 ^ d) : (padLeft (decimal n) d).length = d ∧
    (∀ c ∈ padLeft (decimal n) d, 0x30 ≤ c.toNat ∧ c.toNat ≤ 0x39) ∧ digitsValue (padLeft (decimal n) d) 0 = n := by
  obtain ⟨hvalue, hdigits, -, hlen⟩ := decimal_spec n
  have hshort := hlen d hn hd
  refine ⟨?_, fun c hc => ?_, ?_⟩
  · rw [padLeft, List.length_append, List.length_replicate]
    omega
  · rcases List.mem_append.1 hc with hzero | hdec
    · rw [List.eq_of_mem_replicate hzero, asciiDigit_toNat (by norm_num)]
      omega
    · exact hdigits c hdec
  · rw [padLeft, digitsValue_zeros, hvalue]

/-- The minus sign of a value, if it has one (R260). -/
def signChars (v : BitVec 64) : List Byte := if isNegative v then [0x2D#8] else []

/-- The point and the digits after it (R260). -/
def fractionChars (v : BitVec 64) (d : Nat) : List Byte :=
  if d = 0 then []
  else 0x2E#8 :: padLeft (decimal (truncate (timesTenRepeat d (fractionPart (magnitude v))) % 10 ^ d)) d

theorem numberChars_eq (v : BitVec 64) (d : Nat) :
    numberChars v d = signChars v ++ decimal (truncate (magnitude v)) ++ fractionChars v d := by
  rw [numberChars, fractionChars]
  split <;> simp [signChars]

theorem signChars_cases (v : BitVec 64) : (signChars v = [0x2D] ∨ signChars v = []) ∧
    (signChars v = [0x2D] ↔ v.getLsbD 63 = true ∧ (magnitude v).sig ≠ 0) := by
  have hneg : isNegative v = true ↔ v.getLsbD 63 = true ∧ (magnitude v).sig ≠ 0 := by simp [isNegative]
  rw [← hneg, signChars]
  cases isNegative v <;> simp

/-- Settles O47: digits, the parts of the string, the encoding, and the scaling. -/
theorem numberDigits : Obligations.NumberDigits := by
  refine ⟨fun n => ?_, fun v d => ?_, fun v _ => magnitude_value v, fun a =>
    ⟨truncate_eq_floor a, fractionPart_value a, rfl, fun d => timesTenRepeat_succ d a⟩⟩
  · obtain ⟨hvalue, hdigits, hlead, -⟩ := decimal_spec n
    exact ⟨hvalue, hdigits, hlead⟩
  · obtain ⟨hcases, hsign⟩ := signChars_cases v
    refine ⟨signChars v, fractionChars v d, numberChars_eq v d, hcases, hsign, fun hd => if_pos hd, fun hd => ?_⟩
    exact ⟨_, if_neg hd.ne', padLeft_spec hd (Nat.mod_lt _ (by positivity))⟩

end Sys2Proof.Machine
end

section
/-! PROOF. The frame serializer: reversed bytes, the whole frame, an error answer and an answer that does not come
(R280 to R285, R317). -/

namespace Sys2Proof.Machine

variable {s t : State}

/-! ### The tokens of a frame -/

/-- The eight bits of R281. -/
theorem rev8_bit (v : Byte) {i : Nat} (hi : i < 8) : (rev8 v).getLsbD i = v.getLsbD (7 - i) := by
  simp only [rev8, BitVec.getLsbD_append, BitVec.getLsbD_extractLsb']
  interval_cases i <;> rfl

/-- A row is its row select and three tokens a byte, and a frame has `HM` rows (R283). -/
theorem frameTokens_length (s : State) : s.frameTokens.length = s.hm.toNat * (1 + 3 * s.stride) := by
  simp only [State.frameTokens, List.length_flatMap, List.length_cons, List.length_nil, List.map_const',
    List.length_range, List.sum_replicate, smul_eq_mul]
  ring

/-- The rule's start leaves what the tokens show as it was (R300). -/
theorem begin_tokenOf (s : State) : s.begin.tokenOf = s.tokenOf := tokenOf_congr rfl rfl

/-- A token shows a byte of the framebuffer, and nothing else of the state (R281). -/
theorem tokenOf_of_sameFb (h : s.SameFb t) : t.tokenOf = s.tokenOf := by
  funext e
  cases e with
  | data i => rw [State.tokenOf, State.tokenOf, h i]
  | _ => rfl

/-- With a Surface, PUSH_FRAME's work is the frame's tokens (R282, R303). -/
theorem exec_pushFrame (hcfg : s.cfgValid = true) :
    exec .pushFrame s = .next (s.runPlan (.draw ((frameEmissions s).map .emit))) := by
  rw [exec_eq, planOf, planPushFrame, State.needsSurface, if_pos hcfg]

/-! ### A frame that is answered -/

/-- Settles O49: every token of the frame is one of a run that the transport accepts. -/
theorem pushFrameSendsFrame : Obligations.PushFrameSendsFrame := by
  refine ⟨fun v i => rev8_bit v, fun s rest hcfg hanswers => ⟨frameTokens_length s, _, exec_pushFrame hcfg, ?_⟩⟩
  rw [frameTokens_eq, List.length_map] at hanswers
  obtain ⟨htokens, hrest, -, hended⟩ := runWork_emit_accepted s.begin (frameEmissions s) rest hanswers rfl
  rw [begin_tokenOf, ← frameTokens_eq] at htokens
  exact ⟨htokens, hrest, runPlan_emit_sameFb s _, draws_same, hended⟩

/-- A frame that ends with TRANSPORT offers no token and sets `S_XFER` (R44, R284, R301). -/
theorem ended_transport (h : s.Ended t .transport) : t.offered = none ∧ t.sXfer = true := by
  obtain ⟨-, hsticky, -, -, -, -, hoffered⟩ := h
  exact ⟨hoffered, by simp [State.sXfer, hsticky, Result.stickyMask]⟩

/-- Settles O50: the frame's work splits where its tokens do, and breaks off there. -/
theorem pushFrameStopsAtError : Obligations.PushFrameStopsAtError := by
  intro s before later tok rest hcfg hframe hanswers
  obtain ⟨es, e, ls, hsplit, rfl, -⟩ := split_frame hframe
  rw [List.length_map] at hanswers
  obtain ⟨htokens, hrest, -, hended⟩ := runWork_emit_error s.begin es e ls rest hanswers
  rw [begin_tokenOf] at htokens
  rw [← hsplit] at htokens hrest hended
  obtain ⟨hoffered, hxfer⟩ := ended_transport hended
  exact ⟨_, exec_pushFrame hcfg, htokens, hrest, hoffered, hxfer, runPlan_emit_sameFb s _, draws_same, hended⟩

/-! ### A frame that waits -/

/-- With no input left, a step is the engine's. -/
theorem step_of_no_inputs (h : s.inputs = []) : step s = engineStep s :=
  step_engine (by rw [State.nextInput, h]; rfl)

/-- A frame that waits goes on to its end once all the answers it wants are there (R285). -/
theorem step_resumes {es : List Emission} {n : Nat} (hi : s.inputs = []) (hm : s.mode = .exec)
    (hk : s.work = some (es.map .emit)) (hd : s.dropped = false) (hn : n = es.length) :
    ∃ u, step { s with answers := List.replicate n .accepted } = .next u ∧
      u.tokens = s.tokens ++ es.map s.tokenOf ∧ s.SameFb u ∧ s.Ended u .ok := by
  subst hn
  obtain ⟨htokens, -, hfb, hended⟩ := runWork_emit_accepted
    { s with answers := List.replicate es.length .accepted } es [] (List.append_nil _).symm hd
  obtain ⟨⟨-, -, -, hepoch⟩, -⟩ :=
    runWork_cases { s with answers := List.replicate es.length .accepted } (es.map .emit)
  refine ⟨_, (step_of_no_inputs ?_).trans (engineStep_some ?_ hk), htokens, readFb_congr hfb hepoch, hended⟩
  · exact hi
  · exact hm ▸ nofun

/-- Settles O51: an answer is one input; the frame's work splits where its tokens do, waits there, and is resumed from
there. -/
theorem pushFrameWaitsForAnswer : Obligations.PushFrameWaitsForAnswer := by
  refine ⟨fun s a rest h => step_input h, fun s before later tok hcfg hinputs hframe hanswers => ?_⟩
  obtain ⟨es, e, ls, hsplit, rfl, rfl, rfl⟩ := split_frame hframe
  rw [List.length_map] at hanswers
  have hexec := exec_pushFrame hcfg
  have hfb := runPlan_emit_sameFb s (frameEmissions s)
  have hsame := draws_same (s := s) (ms := (frameEmissions s).map .emit)
  obtain ⟨htokens, hnone, -, hoffered, hmode, hwork, hresult, hsticky, -, hdropped⟩ :=
    runWork_emit_waiting s.begin es e ls hanswers
  rw [begin_tokenOf, begin_tokens] at htokens
  rw [begin_tokenOf] at hoffered
  rw [begin_sticky] at hsticky
  rw [hsplit, State.runPlan] at hexec hfb hsame
  generalize s.begin.runWork ((es ++ e :: ls).map .emit) = t at *
  have htokenOf : t.tokenOf = s.tokenOf := tokenOf_of_sameFb hfb
  have ⟨_, _, ⟨_, _, _, _, htinputs, _⟩, _⟩ := hsame
  rw [hinputs] at htinputs
  have hwait : step t = .next t :=
    (step_of_no_inputs htinputs).trans (engineStep_waits hmode hwork hnone (by rw [hoffered, htokenOf]))
  refine ⟨t, hexec, htokens, hoffered, hmode, busy_iff.2 (Or.inl hmode), hresult, hsticky, hfb, hsame, hwait, ?_⟩
  have hlen : (ls.map s.tokenOf).length + 1 = (e :: ls).length := by rw [List.length_map, List.length_cons]
  obtain ⟨u, hstep, hutokens, hufb, hended⟩ := step_resumes htinputs hmode hwork hdropped hlen
  refine ⟨u, hstep, ?_, fun j => (hufb j).trans (hfb j), ?_⟩
  · rw [hutokens, htokenOf, htokens, List.append_assoc, frameTokens_eq, hsplit, List.map_append]
  · rwa [State.Ended, hsticky] at hended

end Sys2Proof.Machine
end

section
/-! PROOF. The engine cycle: a step runs a whole command or waits for its words, a command always answers, without a
Surface it is rejected, and an illegal header halts the engine until a reset (R300 to R317). -/

namespace Sys2Proof.Machine

variable {s t : State} {i : Instr}

/-! ### The engine's step -/

/-- An engine that has the words of a whole command runs it, at the state that holds them (R300). -/
theorem step_command {rest : List Word} (hn : s.nextInput = none) (hm : s.mode ≠ .halted) (hw : s.work = none)
    (hd : decode (s.current ++ s.stream) = .command i rest) :
    step s = exec i (s.takeCommand ((s.current ++ s.stream).take ((s.current ++ s.stream).length - rest.length)) rest) := by
  rw [step_engine hn, engineStep_none hm hw, hd]

/-- An engine whose words are no whole command collects them (R300, R317). -/
theorem step_incomplete (hn : s.nextInput = none) (hm : s.mode ≠ .halted) (hw : s.work = none)
    (hd : decode (s.current ++ s.stream) = .incomplete) : step s = .next s.collect := by
  rw [step_engine hn, engineStep_none hm hw, hd]

/-- An engine that meets an illegal header halts (R302). -/
theorem step_illegal {e : DecodeError} (hn : s.nextInput = none) (hm : s.mode ≠ .halted) (hw : s.work = none)
    (hd : decode (s.current ++ s.stream) = .illegal e) : step s = .next s.halt := by
  rw [step_engine hn, engineStep_none hm hw, hd]

/-- A ready engine reads its next command from the front of the stream. -/
theorem State.Ready.decode_stream (h : s.Ready) : decode (s.current ++ s.stream) = decode s.stream := by
  obtain ⟨-, -, -, hcurrent⟩ := h
  rw [hcurrent, List.nil_append]

theorem State.Ready.not_halted (h : s.Ready) : s.mode ≠ .halted := by
  obtain ⟨-, hidle, -⟩ := h
  rw [hidle]
  exact nofun

/-- Settles O6: it is `engineStep` where the words decode to a command, and `takeCommand` holds that command's words. -/
theorem stepRunsDecodedCommand : Obligations.StepRunsDecodedCommand :=
  fun _ _ _ hn hm hw hd => step_command hn hm hw hd

/-- Settles O7: it is `engineStep` where the words decode to no command yet, and `collect` takes them, if there are
any. -/
theorem stepWaitsForMoreWords : Obligations.StepWaitsForMoreWords := by
  intro s hn hm hw hd
  have hstep : step s = .next s.collect := step_incomplete hn hm hw hd
  refine ⟨fun hne => ?_, fun hnil => ?_⟩
  · rw [hstep, collect_eq s hne]
    rfl
  · have hstream : s.stream = [] := hnil
    rw [hstep, State.collect, hstream]

/-- Settles O9: with nothing from outside a step is the engine's, which is a run of small steps wherever the invariant
holds. -/
theorem ticksReachCommandEnd : Obligations.TicksReachCommandEnd := by
  intro s hI hn
  rw [step_engine hn]
  exact engineStep_eq_ticks hI

/-! ### Every command answers -/

/-- The command waits in `EXEC` for the transport to answer an offered token, and has written no result (R280, R285). -/
def State.Awaits (s t : State) : Prop :=
  t.mode = .exec ∧ t.answers = [] ∧ t.offered.isSome = true ∧ t.result = s.result ∧ t.sticky = s.sticky

/-- A run of tokens ends its command, OK or OOB after the last or TRANSPORT at an error, or it waits at the first that
has no answer (R284, R285, R300). -/
theorem runWork_emit_answers (s : State) (es : List Emission) :
    (∃ c, s.Ended (s.runWork (es.map .emit)) c ∧ c ≠ .illegal) ∨ s.Awaits (s.runWork (es.map .emit)) := by
  induction es generalizing s with
  | nil =>
    refine Or.inl ⟨if s.dropped then .oob else .ok, ⟨rfl, rfl, rfl, rfl, rfl, rfl, rfl⟩, ?_⟩
    split <;> exact nofun
  | cons e es ih =>
    cases ha : s.answers with
    | nil =>
      have hrun : s.runWork ((e :: es).map .emit) =
          { s with offered := some (s.tokenOf e), mode := .exec, work := some ((e :: es).map .emit) } := by
        simp only [List.map_cons, State.runWork, State.perform, State.emitToken, ha]
      rw [hrun]
      exact Or.inr ⟨rfl, ha, rfl, rfl, rfl⟩
    | cons a rest =>
      cases a with
      | accepted =>
        rw [runWork_emit_cons ha]
        exact ih (s.deliver e rest)
      | error =>
        have hrun : s.runWork ((e :: es).map .emit) =
            ({ s with answers := rest, offered := none } : State).complete .transport := by
          simp only [List.map_cons, State.runWork, State.perform, State.emitToken, ha]
        rw [hrun]
        exact Or.inl ⟨.transport, ⟨rfl, rfl, rfl, rfl, rfl, rfl, rfl⟩, nofun⟩

/-- Settles O14: a rejection, a configuration and work that hands over no token all end the command, and only a
PUSH_FRAME hands over tokens. -/
theorem everyCommandAnswers : Obligations.EveryCommandAnswers := by
  intro i s
  rcases planOf_cases i s with ⟨c, e, hc⟩ | ⟨_, -, hi, haccept, -⟩ | ⟨ms, e, -, -, hlocal, hframe, -⟩
  · obtain ⟨t, hexec, -, -, -, -, -, hended⟩ := exec_of_reject e
    refine ⟨t, hexec, Or.inl ⟨c, hended, ?_⟩⟩
    rcases hc with rfl | rfl <;> exact nofun
  · obtain ⟨_, -, hexec, -, -, hended⟩ := config_accepted hi haccept
    exact ⟨_, hexec, Or.inl ⟨.ok, hended, nofun⟩⟩
  · refine ⟨_, exec_eq i s, ?_⟩
    rw [e]
    by_cases hi : i = .pushFrame
    · rw [hframe hi]
      exact (runWork_emit_answers s.begin (frameEmissions s)).imp_right fun hwait => ⟨hi, hwait⟩
    · obtain ⟨⟨c, hended, hc⟩, -⟩ := runWork_local s.begin (hlocal hi)
      refine Or.inl ⟨c, hended, ?_⟩
      rcases hc with rfl | rfl <;> exact nofun

/-! ### Without a Surface -/

/-- Settles O24: the command comes to a rejection, which leaves the words after the command in the FIFO. -/
theorem unconfiguredCommandsRejected : Obligations.UnconfiguredCommandsRejected := by
  intro s i hcfg hi
  refine ⟨exec_of_reject (planOf_unconfigured hcfg hi), fun rest hready hd => ?_⟩
  have ⟨hn, _, hw, _⟩ := hready
  have hstep := step_command hn hready.not_halted hw (hready.decode_stream.trans hd)
  generalize (s.current ++ s.stream).take _ = words at hstep
  have hcfg' : (s.takeCommand words rest).cfgValid = false := hcfg
  obtain ⟨t, hexec, hsurface, hfonts, hfb, ⟨hparams, hindex, hfifo, hheld, -⟩, htransport, hended⟩ :=
    exec_of_reject (planOf_unconfigured hcfg' hi)
  exact ⟨t, hstep.trans hexec, hfifo, hheld, hsurface, hfonts, hfb, htransport, hparams, hindex, hended⟩

/-! ### HALTED -/

theorem fontByte_mode (s : State) (a : Nat) (v : Byte) : (s.fontByte a v).mode = s.mode := by
  rcases fontByte_cases s a v with ⟨-, e⟩ | ⟨-, -, ⟨-, e⟩ | ⟨-, -, e⟩ | ⟨-, -, -, _, _, -, e⟩⟩ <;> rw [e] <;> rfl

/-- A word written to `CMD` of a halted engine is discarded (R48). -/
theorem pushWord_halted (hm : s.mode = .halted) (v : Word) : s.pushWord v = s := by
  rw [State.pushWord, if_pos (halted_iff.2 hm)]

/-- A write of the host that makes no soft reset leaves a halted engine halted (R48). -/
theorem hostWrite_halted (hm : s.mode = .halted) (off : Nat) (v : Word) :
    (off = 0x08 ∧ v.getLsbD 0 = true) ∨ (s.hostWrite off v).mode = .halted := by
  rcases hostWrite_cases s off v with ⟨-, e⟩ | ⟨-, e⟩ | ⟨hoff, hv, -⟩ | ⟨-, e⟩ | e
  · exact Or.inr ((congrArg State.mode (e.trans (pushWord_halted hm v))).trans hm)
  · exact Or.inr ((congrArg State.mode e).trans hm)
  · exact Or.inl ⟨hoff, hv⟩
  · exact Or.inr ((congrArg State.mode e).trans hm)
  · exact Or.inr ((congrArg State.mode e).trans hm)

/-- The small steps of a halted engine leave it halted (R48). -/
theorem ticks_halted (hm : s.mode = .halted) (n : Nat) : (ticks n s).mode = .halted := by
  induction n generalizing s with
  | zero => exact hm
  | succ n ih =>
    rw [ticks, tick_halted hm]
    exact ih hm

/-- Only a reset takes the engine out of HALTED (R48, R302). -/
theorem step_halted (hm : s.mode = .halted) (h : step s = .next t) : s.Resets ∨ t.mode = .halted := by
  cases hn : s.nextInput with
  | none =>
    rw [step_engine hn, engineStep_halted hm] at h
    cases h
    exact Or.inr hm
  | some next =>
    obtain ⟨inp, rest⟩ := next
    rw [step_input hn] at h
    have hm' : ({ s with inputs := rest } : State).mode = .halted := hm
    cases inp with
    | hostWrite size off v =>
      obtain ⟨rfl, -, rfl, -⟩ := hostAccess_form h
      refine (hostWrite_halted hm' off v).imp_left ?_
      rintro ⟨rfl, hv⟩
      exact Or.inl ⟨v, rest, hn, hv⟩
    | hostRead size off =>
      rw [hostAccess_next h]
      exact Or.inr hm
    | answer a => cases h; exact Or.inr hm
    | fontByte a v => cases h; exact Or.inr ((fontByte_mode _ a v).trans hm)
    | ticks n => cases h; exact Or.inr (ticks_halted hm' n)
    | hardReset => exact Or.inl (Or.inr ⟨rest, hn⟩)

/-- Settles O8: a ready engine meets the header first and halts there; a halted one discards what is written, and each
input that is no reset leaves it halted. -/
theorem illegalHeaderHalts : Obligations.IllegalHeaderHalts := by
  refine ⟨fun s h ws e hready hs he => ?_, fun s v rest hm hn => ?_, fun s hm hn => ?_, fun s t hm hstep hne => ?_⟩
  · have ⟨hnext, _, hw, _⟩ := hready
    have hillegal : decode s.stream = .illegal e := by
      rw [State.stream, hs]
      exact (decode_illegal_iff h ws e).2 he
    refine ⟨s.halt, step_illegal hnext hready.not_halted hw (hready.decode_stream.trans hillegal), rfl, ?_, rfl, rfl, rfl,
      rfl, rfl, rfl, rfl, rfl, ⟨rfl, rfl, rfl, rfl, rfl, rfl, rfl⟩, ⟨rfl, rfl⟩, fun _ => rfl, ⟨rfl, rfl⟩, rfl, rfl, rfl⟩
    simp [State.sIllegal]
  · have hm' : ({ s with inputs := rest } : State).mode = .halted := hm
    rw [step_hostWrite hn (by decide) (by decide), hostWrite_cmd, pushWord_halted hm']
  · rw [step_engine hn, engineStep_halted hm]
  · exact (step_halted hm hstep).resolve_right hne

end Sys2Proof.Machine
end

section
/-! PROOF. The resets: what the hard and the soft reset leave, and that the write to `CTRL` of a stalled host waits
(R340, R342, R355). -/

namespace Sys2Proof.Machine

variable {s t : State} {v w : Word} {rest : List Input}

/-! ### The hard reset -/

/-- Settles O55: the registers, the font table and the engine's place are those of `State.resetWith`, and the epoch
makes every framebuffer byte a new free value. -/
theorem hardReset : Obligations.HardReset := by
  intro s rest hn
  exact ⟨_, step_input hn, rfl, rfl, rfl, rfl, rfl, rfl, rfl, rfl, fun _ => rfl, rfl,
    resetWith_statusWord s.params s.fontMem, rfl, rfl, rfl, rfl, rfl, rfl, rfl, rfl, rfl, rfl⟩

/-! ### The soft reset -/

/-- A write of 1 to `CTRL.SOFT_RESET` that reaches the block is a soft reset (R46). -/
theorem step_softReset (hn : s.nextInput = some (.hostWrite 4 0x08 v, rest)) (hv : v.getLsbD 0 = true) :
    step s = .next { s.softReset with inputs := rest } := by
  rw [step_hostWrite hn (by decide) (by decide), hostWrite_ctrl, if_pos hv]
  rfl

/-- A soft reset while the host is not stalled leaves nothing of a command that has only drawn, and keeps the Surface,
the fonts and `FB_INDEX` (R342). -/
theorem aborted_softReset (hd : s.SameButDrawing t) (hh : s.held = none) : s.Aborted t.softReset := by
  obtain ⟨hsurface, hfonts, ⟨-, hindex, -, hheld, -⟩, -⟩ := hd
  exact ⟨rfl, rfl, rfl, rfl, rfl, rfl, rfl, rfl, hheld.trans hh, hsurface, hfonts, hindex⟩

/-- After a soft reset `STATUS` shows no result, no sticky bit, and an engine that is neither busy nor halted (R44). -/
theorem softReset_status (s : State) : s.softReset.statusWord.extractLsb' 0 18 = 0 := by
  have hcode : s.softReset.result.code = 0 := rfl
  have hsticky : s.softReset.sticky = 0 := rfl
  have hbusy : s.softReset.busy = false := rfl
  have hhalted : s.softReset.halted = false := rfl
  refine statusWord_reserved _ fun i _ hi => ?_
  have hcfg : i ≠ 18 := by omega
  simp [statusWord_bit _ i (by omega), hcode, hsticky, hbusy, hhalted, hcfg]

/-! ### A stalled host's access waits -/

/-- However a piece of work ends, it takes nothing of what is still to come from outside. -/
theorem perform_inputs {m : Micro}
    (h : s.perform m = .done t ∨ (∃ c, s.perform m = .reject c t) ∨ s.perform m = .waiting t) :
    t.inputs = s.inputs := by
  obtain ⟨⟨-, -, ⟨-, -, -, -, hinputs, -⟩, -⟩, -⟩ := perform_frame s m t h
  exact hinputs

/-- A small step takes nothing of what is still to come from outside. -/
theorem tick_inputs (s : State) : (tick s).inputs = s.inputs := by
  by_cases hm : s.mode = .halted
  · rw [tick_halted hm]
  cases hk : s.work with
  | none =>
    cases hs : s.stream with
    | nil => rw [tick_rest hm hk hs]
    | cons u us =>
      obtain ⟨-, hinputs, -⟩ := tick_takes_word hm hk hs
      exact hinputs
  | some ms =>
    cases ms with
    | nil =>
      rw [tick_nil hm hk]
      rfl
    | cons m ms =>
      rw [tick_cons hm hk]
      cases hp : s.perform m with
      | done u => exact perform_inputs (t := u) (Or.inl hp)
      | reject c u => exact perform_inputs (t := u) (Or.inr (Or.inl ⟨c, hp⟩))
      | waiting u => exact perform_inputs (t := u) (Or.inr (Or.inr hp))

theorem ticks_inputs (n : Nat) (s : State) : (ticks n s).inputs = s.inputs := by
  induction n generalizing s with
  | zero => rfl
  | succ n ih => exact (ih (tick s)).trans (tick_inputs s)

/-- The engine of a stalled host takes nothing of what is still to come from outside. -/
theorem engineStep_inputs (hh : s.held = some w) (h : engineStep s = .next t) : t.inputs = s.inputs := by
  cases hk : s.work with
  | none =>
    obtain ⟨-, hinputs, -⟩ := engineStep_takes_held hh hk h
    exact hinputs
  | some ms =>
    by_cases hm : s.mode = .halted
    · rw [engineStep_halted hm] at h
      cases h
      rfl
    · rw [engineStep_some hm hk] at h
      cases h
      obtain ⟨⟨-, -, ⟨-, -, -, -, hinputs, -⟩, -⟩, -⟩ := runWork_cases s ms
      exact hinputs

theorem fontByte_inputs (s : State) (a : Nat) (v : Byte) : (s.fontByte a v).inputs = s.inputs := by
  rcases fontByte_cases s a v with ⟨-, e⟩ | ⟨-, -, ⟨-, e⟩ | ⟨-, -, e⟩ | ⟨-, -, -, _, _, -, e⟩⟩ <;> rw [e] <;> rfl

/-- What is no access of the host takes only itself from what is still to come. -/
theorem inputStep_inputs {inp : Input} (hi : inp.isHostAccess = false) (h : inputStep inp s = .next t) :
    t.inputs = s.inputs := by
  cases inp with
  | hostWrite size off v => cases hi
  | hostRead size off => cases hi
  | answer a => cases h; rfl
  | fontByte a v => cases h; exact fontByte_inputs s a v
  | ticks n => cases h; exact ticks_inputs n s
  | hardReset => cases h; rfl

/-- While the host interface holds a word, an access of the host is still the first of what is to come after a step,
whatever passes it (R355, log entry 7). -/
theorem access_waits {a : Input} (hh : s.held = some w) (ha : a.FromHost) (hs : s.inputs = a :: rest)
    (h : step s = .next t) : ∃ rest', t.inputs = a :: rest' := by
  have hnext := nextOf_stalled [a] rest fun b hb => (fromHost_iff b).1 (List.mem_singleton.1 hb ▸ ha)
  have hfirst : s.nextInput = nextOf true ([a] ++ rest) := by rw [State.nextInput, hh, hs]; rfl
  rw [← hfirst] at hnext
  cases hr : nextOf true rest with
  | none =>
    rw [hr] at hnext
    rw [step_engine hnext] at h
    exact ⟨rest, (engineStep_inputs hh h).trans hs⟩
  | some next =>
    obtain ⟨inp, rest'⟩ := next
    rw [hr] at hnext
    rw [step_input hnext] at h
    exact ⟨rest', inputStep_inputs (by simpa using nextOf_access hr) h⟩

/-- Settles O54: the write that reaches the block is `softReset` or nothing, and one that waits for a stalled host stays
the first of what is to come. -/
theorem softReset : Obligations.SoftReset := by
  refine ⟨fun s v rest hn => ?_, fun s v w rest hh hs t h => access_waits hh (Or.inl ⟨4, 0x08, v, rfl⟩) hs h⟩
  have hh : s.held = none := nextInput_access hn rfl
  refine ⟨hh, fun hv => ?_, fun hv => ?_⟩
  · have haborted : s.Aborted s.softReset := aborted_softReset (sameButDrawing_refl s) hh
    exact ⟨_, step_softReset hn hv, haborted, softReset_status s, fun _ => rfl, ⟨rfl, rfl⟩, rfl, rfl⟩
  · rw [step_hostWrite hn (by decide) (by decide), hostWrite_ctrl, hv]
    rfl

end Sys2Proof.Machine
end

section
/-! PROOF. What a soft reset inside a command keeps: the bytes of the pieces done before it, the tokens accepted, and
nothing of the command (R342, R343). -/

namespace Sys2Proof.Machine

variable {s t u : State} {v : Word} {rest : List Input} {done left : List Micro}

/-! ### Work that hands no token over -/

/-- Work that hands no token over changes what drawing changes, and nothing of the transport. -/
theorem after_frame (hl : Local done) (s : State) :
    s.SameButDrawing (s.after done) ∧ s.SameTransport (s.after done) := by
  have hdraw := (runWork_cases s done).1
  have htransport := (runWork_local s hl).2
  rw [runWork_after hl] at hdraw htransport
  exact ⟨hdraw, htransport⟩

/-- A soft reset after small steps that did the first pieces of a command's work: the bytes are those the pieces left,
and nothing else of the command stays. -/
theorem abort_local (hl : Local done) (hm : s.mode = .exec) (hh : s.held = none) (hw : s.work = some (done ++ left))
    (hi : s.inputs = .hostWrite 4 0x08 v :: rest) (hv : v.getLsbD 0 = true) :
    ∃ u, step (ticks done.length s) = .next u ∧ s.Aborted u ∧ s.SameTransport u ∧ u.inputs = rest ∧
      ∀ j, u.readFb j = (s.after done).readFb j := by
  obtain ⟨hdraw, htransport⟩ := after_frame hl s
  have ⟨_, _, ⟨_, _, _, hheld, hinputs, _⟩, _⟩ := hdraw
  have haborted : s.Aborted (s.after done).softReset := aborted_softReset hdraw hh
  rw [ticks_local done hl left s hm hw]
  exact ⟨_, step_softReset (nextInput_cons (hheld.trans hh) (hinputs.trans hi)) hv, haborted, htransport, rfl,
    fun _ => rfl⟩

/-- What is painted depends on the bytes and the Surface, so not on what is still to come from outside. -/
theorem readFb_paint_inputs (s : State) (r : List Input) (ps : List (Int × Int × Half)) (j : Nat) :
    (({ s with inputs := r } : State).paint ps).readFb j = (s.paint ps).readFb j := by
  have hs : (s.paint ps).fbEpoch = s.fbEpoch := (sameButDrawing_paint s ps).2.2.2
  have ht := (sameButDrawing_paint { s with inputs := r } ps).2.2.2
  have hfb := paint_fb_congr (s := s) (t := { s with inputs := r }) rfl rfl ⟨rfl, rfl, rfl, rfl, rfl, rfl, rfl⟩ ps
  exact readFb_congr hfb (ht.trans hs.symm) j

/-- Runs of bytes read the same wherever the bytes before them do. -/
theorem fillFb_sameFb (h : s.SameFb t) (l : List (Nat × List Byte)) : (fillFb s l).SameFb (fillFb t l) := by
  induction l generalizing s t with
  | nil => exact h
  | cons p l ih => exact ih fun j => by rw [readFb_writeBytes, readFb_writeBytes, h]

/-- The glyph pixels drawn by pieces of text (R245, R351). -/
theorem readFb_after_text (s : State) (r : List Input) (ht : IsText done) : ∃ pss, s.PiecesDraw done pss ∧
    ∀ j, (({ s with inputs := r } : State).after done).readFb j = (s.paint pss.flatten).readFb j := by
  obtain ⟨pss, n, hdraws, hafter⟩ := after_text { s with inputs := r } done ht
  rw [State.PiecesDraw, pieceDraws_congr (s := s) (t := { s with inputs := r }) rfl rfl rfl] at hdraws
  refine ⟨pss, hdraws, fun j => ?_⟩
  rw [hafter]
  exact readFb_paint_inputs s r pss.flatten j

/-! ### CLEAR at 16 bits -/

/-- The first pieces of CLEAR's work are the fills of the first indices. -/
theorem clearWork_initial {d : Depth} {c : Half} (hd : depthOf s.depth.toNat = some d)
    (h : done ++ left = clearWork c s) : ∃ n, done = fillWork ((List.range n).map fun k =>
      ((clearBytes d c).length * k, clearBytes d c)) := by
  rw [clearWork_eq hd] at h
  have htake := congrArg (List.take done.length) h
  rw [List.take_left, fillWork, ← List.map_take, ← List.map_take, List.take_range] at htake
  exact ⟨_, htake⟩

/-- Where only whole pixels have been cleared, from the first byte on, every pixel is cleared or as it was (R343). -/
theorem getPixel_cleared_initial {c : Half} {n : Nat} (hd : depthOf s.depth.toNat = some .sixteen)
    (hs : t.stride = s.stride)
    (h : ∀ j, t.readFb j = if j < 2 * n then clearByte .sixteen c j else s.readFb j) (X Y : Nat) :
    t.getPixel .sixteen X Y = c ∨ t.getPixel .sixteen X Y = s.getPixel .sixteen X Y := by
  have hstride := stride_even hd
  have heven : (byteIndex .sixteen t.stride X Y).1 % 2 = 0 := by
    rw [hs, hstride, byteIndex, ← Nat.mul_assoc]
    omega
  by_cases hn : (byteIndex .sixteen t.stride X Y).1 < 2 * n
  · refine Or.inl ((clear_field t .sixteen c X Y (fun k hk => ?_) fun _ => ?_).trans ?_)
    · rw [byteIndex_count, if_pos rfl] at hk
      rw [h, if_pos (by omega)]
    · rw [hs, hstride, Nat.mul_mod_left]
    · rw [Depth.bits, Nat.mod_eq_of_lt c.isLt, BitVec.ofNat_toNat, BitVec.setWidth_eq]
  · refine Or.inr ?_
    simp only [State.getPixel]
    rw [h, h, if_neg hn, if_neg (by omega), hs]

/-- An aborted CLEAR at 16 bits leaves whole pixels (R343, log entry 22). -/
theorem getPixel_aborted_clear {c : Half} (r : List Input) (hd : depthOf s.depth.toNat = some .sixteen)
    (hdone : done ++ left = clearWork c s) (hs : u.stride = s.stride)
    (hread : ∀ j, u.readFb j = (({ s with inputs := r } : State).after done).readFb j) (X Y : Nat) :
    u.getPixel .sixteen X Y = c ∨ u.getPixel .sixteen X Y = s.getPixel .sixteen X Y := by
  obtain ⟨n, rfl⟩ := clearWork_initial hd hdone
  refine getPixel_cleared_initial hd hs (n := n) (fun j => ?_) X Y
  rw [hread, after_fillWork, readFb_fillFb_repeat]
  rfl

/-! ### PUSH_FRAME -/

/-- A small step at a token that the transport has not answered offers it (R280). -/
theorem tick_unanswered {e : Emission} {ms : List Micro} (hm : s.mode ≠ .halted) (hw : s.work = some (.emit e :: ms))
    (ha : s.answers = []) : tick s = { s with offered := some (s.tokenOf e) } := by
  simp only [tick_cons hm hw, State.perform, State.emitToken, ha]

/-- Small steps of a frame whose first tokens the transport accepts, to the next token or one step on, where the
transport has no answer to it and it is offered (R280, R285). -/
theorem ticks_frame {es later : List Emission} {e : Emission} {more : List Answer} {n : Nat} (hm : s.mode = .exec)
    (hw : s.work = some ((es ++ e :: later).map .emit)) (ha : s.answers = List.replicate es.length .accepted ++ more)
    (hn : n = es.length ∨ (n = es.length + 1 ∧ more = [])) :
    ∃ o, ticks n s = { s with
        work := some ((e :: later).map .emit), tokens := s.tokens ++ es.map s.tokenOf, answers := more, offered := o } ∧
      (n = es.length + 1 → o = some (s.tokenOf e)) := by
  rw [List.map_append] at hw
  obtain ⟨o, ho⟩ := ticks_emit es ((e :: later).map .emit) more s hm hw ha
  rcases hn with rfl | ⟨rfl, rfl⟩
  · exact ⟨o, ho, fun h => by omega⟩
  · refine ⟨some (s.tokenOf e), ?_, fun _ => rfl⟩
    rw [ticks_add, ho]
    exact tick_unanswered (by rw [hm]; exact nofun) rfl rfl

/-- A soft reset inside a frame keeps the tokens accepted and withdraws the one offered (R285, R343). -/
theorem abort_frame {es later : List Emission} {e : Emission} {more : List Answer} {n : Nat} (hm : s.mode = .exec)
    (hh : s.held = none) (hw : s.work = some ((es ++ e :: later).map .emit))
    (ha : s.answers = List.replicate es.length .accepted ++ more)
    (hn : n = es.length ∨ (n = es.length + 1 ∧ more = [])) (hi : s.inputs = .hostWrite 4 0x08 v :: rest)
    (hv : v.getLsbD 0 = true) :
    (n = es.length + 1 → (ticks n s).offered = some (s.tokenOf e)) ∧ ∃ u, step (ticks n s) = .next u ∧ s.Aborted u ∧
      u.tokens = s.tokens ++ es.map s.tokenOf ∧ s.SameFb u := by
  obtain ⟨o, hticks, ho⟩ := ticks_frame hm hw ha hn
  rw [hticks]
  have haborted : s.Aborted s.softReset := aborted_softReset (sameButDrawing_refl s) hh
  exact ⟨ho, _, step_softReset (nextInput_cons hh hi) hv, haborted, rfl, fun _ => rfl⟩

/-- Settles O10: the small steps before the reset do the first pieces, each kind of which leaves its own bytes, or
deliver the first tokens. -/
theorem abortKeepsPixelsDrawn : Obligations.AbortKeepsPixelsDrawn := by
  constructor
  · intro s done left v rest hm hh hw hi hv hl
    obtain ⟨u, hreset, haborted, htransport, hinputs, hread⟩ :=
      abort_local (s := { s with inputs := .hostWrite 4 0x08 v :: rest }) hl hm hh hw rfl hv
    have ⟨_, _, _, _, _, _, _, _, _, hsurface, _⟩ := haborted
    refine ⟨_, u, step_input (nextInput_cons hh hi), hreset, haborted, htransport, hinputs, ?_, ?_, ?_, fun ht => ?_⟩
    · rintro ps rfl j
      rw [hread, ← readFb_paint_inputs s (.hostWrite 4 0x08 v :: rest)]
      exact congrArg (State.readFb · j) (after_pixelWork _ ps)
    · rintro fs rfl j
      have hsame : s.SameFb ({ s with inputs := .hostWrite 4 0x08 v :: rest } : State) := fun _ => rfl
      rw [hread]
      exact (congrArg (State.readFb · j) (after_fillWork _ fs)).trans (fillFb_sameFb hsame fs j)
    · exact fun c hd hdone X Y _ _ => getPixel_aborted_clear _ hd hdone (sameSurface_stride hsurface) hread X Y
    · obtain ⟨pss, hdraws, hpainted⟩ := readFb_after_text s (.hostWrite 4 0x08 v :: rest) ht
      exact ⟨pss, hdraws, fun j => (hread j).trans (hpainted j)⟩
  · intro s es later e more n v rest hm hh hw ha hi hv hn
    obtain ⟨hoffered, u, hreset, habort⟩ :=
      abort_frame (s := { s with inputs := .hostWrite 4 0x08 v :: rest }) hm hh hw ha hn rfl hv
    exact ⟨_, u, step_input (nextInput_cons hh hi), hoffered, hreset, habort⟩

end Sys2Proof.Machine
end

section
/-! PROOF. What the running text command has done, and what the platform's write of a font memory byte changes
(R240 to R247, R351). -/

namespace Sys2Proof.Machine

variable {s : State} {a : Nat} {v : Byte} {rest : List Input}

/-! ### What the running command has done -/

theorem workDone_of_no_work (hw : s.work = none) : s.workDone = [] := by
  rcases workDone_cases s with h | ⟨left, _, _, _, hleft, -⟩
  · exact h
  · rw [hw] at hleft
    cases hleft

/-- A running text command has done its work without what is left of it (R245). -/
theorem workDone_of_runsText {all done left : List Micro} (hr : s.RunsText all) (hw : s.work = some left)
    (h : all = done ++ left) : s.workDone = done := by
  obtain ⟨i, rest, hd, -, hp⟩ := runsText_iff.1 hr
  exact workDone_eq hd (hp.trans (congrArg Plan.draw h)) hw

/-! ### The cases of a font memory write -/

/-- A write beyond font memory, or of the value the byte has, changes nothing. -/
theorem fontByte_same (h : s.fontMem.length ≤ a ∨ s.fontMem.getD a 0 = v) : s.fontByte a v = s := by
  rcases fontByte_cases s a v with ⟨-, e⟩ | ⟨hin, hnew, -⟩
  · exact e
  · exact absurd h (not_or.2 ⟨not_le.2 hin, hnew⟩)

section Changed

variable (hin : a < s.fontMem.length) (hnew : s.fontMem.getD a 0 ≠ v)

include hin hnew

/-- With no word queued, a write changes its byte only. -/
theorem fontByte_unqueued (hq : (s.current ++ s.stream).length = 0) :
    s.fontByte a v = { s with fontMem := s.fontMem.set a v } := by
  rcases fontByte_cases s a v with ⟨hkeep, -⟩ | ⟨-, -, ⟨-, e⟩ | ⟨hne, -⟩ | ⟨hne, -⟩⟩
  · exact absurd hkeep (not_or.2 ⟨not_le.2 hin, hnew⟩)
  · exact e
  · exact absurd hq hne
  · exact absurd hq hne

/-- A write of a byte that the running command has drawn nothing from is noted for the commands queued or running. -/
theorem fontByte_undrawn (hq : (s.current ++ s.stream).length ≠ 0) (hd : ∀ m ∈ s.workDone, ¬ m.DrawnFrom a) :
    s.fontByte a v = s.noteFont a v := by
  rcases fontByte_cases s a v with ⟨hkeep, -⟩ | ⟨-, -, ⟨h0, -⟩ | ⟨-, -, e⟩ | ⟨-, ⟨m, hm, ha⟩, -⟩⟩
  · exact absurd hkeep (not_or.2 ⟨not_le.2 hin, hnew⟩)
  · exact absurd h0 hq
  · exact e
  · exact absurd (drawnFrom_iff.2 ha) (hd m hm)

/-- A write of a byte that the running command has drawn from is noted, and what the command has drawn is drawn again,
with its `dropped` flag (R351, log entry 10). -/
theorem fontByte_drawn (hq : (s.current ++ s.stream).length ≠ 0) (hd : ∃ m ∈ s.workDone, m.DrawnFrom a) :
    ∃ pss n, (s.noteFont a v).PiecesDraw s.workDone pss ∧
      (∀ j, (s.fontByte a v).readFb j = (s.paint pss.flatten).readFb j) ∧ s.fontByte a v = { s.noteFont a v with
        fb := (s.paint pss.flatten).fb
        dropped := decide (∃ q ∈ pss.flatten, s.pixelOutcome q.1 q.2.1 = .dropped) || decide (.dropChar ∈ s.workDone)
        freeCtr := n } := by
  obtain ⟨m, hm, ha⟩ := hd
  rcases fontByte_cases s a v with ⟨hkeep, -⟩ | ⟨-, -, ⟨h0, -⟩ | ⟨-, hno, -⟩ | ⟨-, -, -, pss, n, hdraws, e⟩⟩
  · exact absurd hkeep (not_or.2 ⟨not_le.2 hin, hnew⟩)
  · exact absurd h0 hq
  · rw [drawnFrom_iff, hno m hm] at ha
    cases ha
  · have hfb : (s.fontByte a v).fb = (s.paint pss.flatten).fb := by rw [e]
    have hepoch : (s.fontByte a v).fbEpoch = (s.paint pss.flatten).fbEpoch := by
      rw [e, (sameButDrawing_paint s pss.flatten).2.2.2]
      rfl
    exact ⟨pss, n, hdraws, readFb_congr hfb hepoch, e⟩

end Changed

/-! ### The step -/

theorem step_fontByte (hn : s.nextInput = some (.fontByte a v, rest)) :
    step s = .next (({ s with inputs := rest } : State).fontByte a v) := step_input hn

/-- What is drawn again after a write that reaches the block, in terms of the state the step begins in. -/
theorem step_fontByte_drawn (hn : s.nextInput = some (.fontByte a v, rest)) (hin : a < s.fontMem.length)
    (hnew : s.fontMem.getD a 0 ≠ v) (hq : (s.current ++ s.stream).length ≠ 0) (hd : ∃ m ∈ s.workDone, m.DrawnFrom a) :
    ∃ t pss, step s = .next t ∧ (({ s with inputs := rest } : State).noteFont a v).PiecesDraw s.workDone pss ∧
      (∀ j, t.readFb j = (s.paint pss.flatten).readFb j) ∧
      (t.dropped = true ↔ .dropChar ∈ s.workDone ∨ ∃ q ∈ pss.flatten, s.pixelOutcome q.1 q.2.1 = .dropped) ∧
      t = { ({ s with inputs := rest } : State).noteFont a v with
        fb := t.fb, dropped := t.dropped, freeCtr := t.freeCtr } := by
  rw [← workDone_inputs s rest] at hd ⊢
  obtain ⟨pss, n, hdraws, hread, e⟩ := fontByte_drawn (s := { s with inputs := rest }) hin hnew hq hd
  have houtcome : ∀ x y : Int, ({ s with inputs := rest } : State).pixelOutcome x y = s.pixelOutcome x y :=
    sameSurface_pixelOutcome ⟨rfl, rfl, rfl, rfl, rfl, rfl, rfl⟩
  refine ⟨_, pss, step_fontByte hn, hdraws, fun j => (hread j).trans (readFb_paint_inputs s rest _ j), ?_, ?_⟩
  · rw [e]
    simp only [houtcome, Bool.or_eq_true, decide_eq_true_eq]
    exact or_comm
  · rw [e]

/-- Settles O60: the work done is the part of a text command's work that is not left, and a write that reaches the block
is one of the cases of `fontByte`. -/
theorem fontByteInput : Obligations.FontByteInput := by
  refine ⟨fun s => ⟨workDone_of_no_work, fun _ _ _ hr hw h => workDone_of_runsText hr hw h,
    fun hno _ _ hm ha => (runsText_of_drawnFrom hm ha).elim hno⟩, fun s a v rest hn => ?_⟩
  have hstep := step_fontByte hn
  refine ⟨fun hkeep => ?_, fun hin hnew => ⟨fun hq => ?_, fun hq hd => ?_, fun hq hd => ?_⟩⟩
  · exact hstep.trans (congrArg _ (fontByte_same hkeep))
  · exact hstep.trans (congrArg _ (fontByte_unqueued hin hnew hq))
  · rw [← workDone_inputs s rest] at hd
    exact hstep.trans (congrArg _ (fontByte_undrawn hin hnew hq hd))
  · obtain ⟨t, pss, ht, hdraws, hread, hdropped, heq⟩ := step_fontByte_drawn hn hin hnew hq hd
    exact ⟨t, pss, ht, hdraws, hread, fun j hj => (hread j).trans (readFb_paint_outside s _ hj), hdropped, heq⟩

end Sys2Proof.Machine
end
